-- ==== Sys2Proof/Word.lean ====
section
/-! DEFINITION. The two widths of INT64-CORE (00_scope.md R4, R5) and the wired constants (R9). -/

namespace Sys2Proof

/-- A bus word, a half of a register or a command word: 32 bits (R4 `WORD_BITS`, `BUS_BITS`). -/
abbrev Word := BitVec 32

/-- A 64-bit value: one word pair (R4 `VALUE_BITS`, R6). -/
abbrev Value := BitVec 64

/-- `ZERO` of R9, which is also `MIN_U`. -/
abbrev ZERO : Value := 0x0000000000000000#64
/-- `ONE` of R9. -/
abbrev ONE : Value := 0x0000000000000001#64
/-- `MIN_S` of R9: s = -2^63. -/
abbrev MIN_S : Value := 0x8000000000000000#64
/-- `MAX_S` of R9: s = 2^63 - 1. -/
abbrev MAX_S : Value := 0x7FFFFFFFFFFFFFFF#64
/-- `MIN_U` of R9: u = 0. -/
abbrev MIN_U : Value := 0x0000000000000000#64
/-- `MAX_U` of R9: u = 2^64 - 1. -/
abbrev MAX_U : Value := 0xFFFFFFFFFFFFFFFF#64

end Sys2Proof
end

