-- ==== Sys2Proof/Config.lean ====
section
/-! DEFINITION. The implementation parameters of 00_scope.md R4, and the words that come from outside the block. `LAT` is
no number here: the schedule of State says how many host events come before the block's turn (log 1). -/

namespace Sys2Proof.Config

/-- The platform's choice of the window's place, in units of 64 bytes. FREE VALUE (R4, 92_eei_decisions.md D3:
OPEN); it has no body, so no proof can use a value of it (log 4). -/
opaque windowSlot : Nat

/-- What another device on the host's bus returns to the host's k-th read outside the window. FREE VALUE (the spec defines
no `BusRead` there: 20_memory.md R40, R43); it has no body, so no proof can use a value of it (log 20). -/
opaque foreignWord : Nat → Word

/-- `WINDOW_BYTES` of R4. -/
def windowBytes : Nat := 64

/-- `BASE` of R4 and 20_memory.md R40: the host byte address of offset 0x00, a multiple of 64. -/
def base : Nat := windowBytes * windowSlot

end Sys2Proof.Config
end

