-- ==== Sys2Proof/Syntax.lean ====
section
/-! DEFINITION. The 28 commands of 30_encoding.md R63. A command word has no operand field (R60): the operands
are the latched `a` and `b` (R62), so every constructor stands alone. -/

namespace Sys2Proof

/-- One constructor for each row of the opcode map, in its order (30_encoding.md R63). -/
inductive Instr
  | add | sub
  | mulu | muls | divu | divs | remu | rems
  | neg | abs
  | and | or | xor | not
  | sll | srl | sra
  | cmpu | cmps | minu | mins | maxu | maxs
  | lzc
  | cvtfu | cvtfs | cvtuf | cvtsf
  deriving DecidableEq, Repr

/-- Which latched operands a command reads (30_encoding.md R62). -/
inductive Arity
  | two      -- `a` and `b`
  | one      -- `a`; `b` is ignored entirely
  | shift    -- `a` and the count `b[5:0]`
  deriving DecidableEq, Repr

end Sys2Proof
end

