-- ==== Sys2Proof/WellFormed.lean ====
section
/-! DEFINITION. What a well-formed command is. A command as SYNTAX has no field that could be wrong (30_encoding.md
R60), so all the checks are on the 32-bit word that carries it: they are R64's list of illegal words, written apart
from the opcode map that the decoder uses, so that the two can be held against each other. -/

namespace Sys2Proof

/-- A command has no operand field (R60), so each of the 28 is well-formed. -/
def Instr.wellFormed (_i : Instr) : Bool := true

/-- R64, "every word with `RSVD != 0`": bits 31:8 must be 0 (R60). -/
def rsvdClear (c : Word) : Bool := c.extractLsb' 8 24 == 0#24

/-- R64, "every `OPC` in groups 0x0 and 0x9 to 0xF" (`OPC = 0x00` among them). -/
def groupAssigned (c : Word) : Bool :=
  let g := (c.extractLsb' 4 4).toNat
  decide (1 ≤ g ∧ g ≤ 8)

/-- R64, "every unused function in groups 0x1 to 0x8": the ranges of `OPC` it lists. -/
def functionUnused (c : Word) : Bool :=
  let opc := (c.extractLsb' 0 8).toNat
  decide ((0x12 ≤ opc ∧ opc ≤ 0x1F) ∨ (0x26 ≤ opc ∧ opc ≤ 0x2F) ∨ (0x32 ≤ opc ∧ opc ≤ 0x3F) ∨
    (0x44 ≤ opc ∧ opc ≤ 0x4F) ∨ (0x53 ≤ opc ∧ opc ≤ 0x5F) ∨ (0x66 ≤ opc ∧ opc ≤ 0x6F) ∨
    (0x71 ≤ opc ∧ opc ≤ 0x7F) ∨ (0x84 ≤ opc ∧ opc ≤ 0x8F))

/-- A command word that R64 does not call illegal. -/
def commandWordLegal (c : Word) : Bool := rsvdClear c && groupAssigned c && !functionUnused c

end Sys2Proof
end

