-- ==== Sys2Proof/Decode.lean ====
section
/-! DEFINITION. The decoder and the encoder of command words (30_encoding.md R60 to R66). -/

namespace Sys2Proof

/-- Why a word is illegal (R64). -/
inductive Illegal
  /-- `RSVD != 0`. -/
  | reservedBits (rsvd : BitVec 24)
  /-- `RSVD = 0` and `OPC` is none of R63. -/
  | unassigned (opc : BitVec 8)
  deriving DecidableEq, Repr

/-- What the decoder makes of a word. -/
inductive Decoded
  | command (i : Instr)
  | illegal (why : Illegal)
  deriving DecidableEq, Repr

/-- One row of the opcode map R63: `OPC` and the command. -/
structure OpcodeRow where
  opc : BitVec 8
  instr : Instr
  deriving DecidableEq, Repr

/-- `RSVD`, bits 31:8 (R60). -/
def rsvdField (c : Word) : BitVec 24 := c.extractLsb' 8 24

/-- `OPC`, bits 7:0 (R60). -/
def opcField (c : Word) : BitVec 8 := c.extractLsb' 0 8

/-- `OPC[7:4]`, the group (R61). -/
def opcGroup (c : Word) : BitVec 4 := c.extractLsb' 4 4

/-- `OPC[0]`: in groups 0x2, 0x6 and 0x8 it selects the signed reading (R61). -/
def opcSigned (c : Word) : Bool := c.getLsbD 0

/-- Groups 0x1 to 0x3 of R63. -/
def opcodeRowsArith : List OpcodeRow :=
  [⟨0x10, .add⟩, ⟨0x11, .sub⟩,
   ⟨0x20, .mulu⟩, ⟨0x21, .muls⟩, ⟨0x22, .divu⟩, ⟨0x23, .divs⟩, ⟨0x24, .remu⟩, ⟨0x25, .rems⟩,
   ⟨0x30, .neg⟩, ⟨0x31, .abs⟩]

/-- Groups 0x4 and 0x5 of R63. -/
def opcodeRowsBits : List OpcodeRow :=
  [⟨0x40, .and⟩, ⟨0x41, .or⟩, ⟨0x42, .xor⟩, ⟨0x43, .not⟩,
   ⟨0x50, .sll⟩, ⟨0x51, .srl⟩, ⟨0x52, .sra⟩]

/-- Groups 0x6 to 0x8 of R63. -/
def opcodeRowsRest : List OpcodeRow :=
  [⟨0x60, .cmpu⟩, ⟨0x61, .cmps⟩, ⟨0x62, .minu⟩, ⟨0x63, .mins⟩, ⟨0x64, .maxu⟩, ⟨0x65, .maxs⟩,
   ⟨0x70, .lzc⟩,
   ⟨0x80, .cvtfu⟩, ⟨0x81, .cvtfs⟩, ⟨0x82, .cvtuf⟩, ⟨0x83, .cvtsf⟩]

/-- The opcode map R63, all 28 rows. -/
def opcodeTable : List OpcodeRow := opcodeRowsArith ++ opcodeRowsBits ++ opcodeRowsRest

/-- The row of an `OPC`, if R63 has one. -/
def lookupOpc (opc : BitVec 8) : Option Instr :=
  (opcodeTable.find? (fun row => row.opc == opc)).map OpcodeRow.instr

/-- Decoding, total on every 32-bit word (R66's two tests; R207: it looks at no operand). -/
def decode (c : Word) : Decoded :=
  if rsvdField c = 0 then
    match lookupOpc (opcField c) with
    | some i => .command i
    | none => .illegal (.unassigned (opcField c))
  else .illegal (.reservedBits (rsvdField c))

/-- The word of a command: `zext_32(OPC)`, `RSVD = 0` (R63). -/
def encode (i : Instr) : Word :=
  match i with
  | .add => 0x00000010
  | .sub => 0x00000011
  | .mulu => 0x00000020
  | .muls => 0x00000021
  | .divu => 0x00000022
  | .divs => 0x00000023
  | .remu => 0x00000024
  | .rems => 0x00000025
  | .neg => 0x00000030
  | .abs => 0x00000031
  | .and => 0x00000040
  | .or => 0x00000041
  | .xor => 0x00000042
  | .not => 0x00000043
  | .sll => 0x00000050
  | .srl => 0x00000051
  | .sra => 0x00000052
  | .cmpu => 0x00000060
  | .cmps => 0x00000061
  | .minu => 0x00000062
  | .mins => 0x00000063
  | .maxu => 0x00000064
  | .maxs => 0x00000065
  | .lzc => 0x00000070
  | .cvtfu => 0x00000080
  | .cvtfs => 0x00000081
  | .cvtuf => 0x00000082
  | .cvtsf => 0x00000083

/-- The command word whose bits are `w`, `nbits` of them given and the others 0 (log 13). The bus carries words, not
bytes (20_memory.md R47), so no byte order enters. -/
def tableWord (nbits w : Nat) : Word := BitVec.ofNat 32 (w % 2 ^ nbits)

/-- The command the decoder reads from a row's bits, numbered as the opcode table numbers them (log 13). A pattern that
needs more than the 32 bits of a command word (R65) is none. -/
def decodeTableWord (nbits w : Nat) : Option Instr :=
  if w % 2 ^ nbits < 2 ^ 32 then
    match decode (tableWord nbits w) with
    | .command i => some i
    | .illegal _ => none
  else none

/-- Which operands a command reads (R62). -/
def Instr.arity (i : Instr) : Arity :=
  match i with
  | .add | .sub | .mulu | .muls | .divu | .divs | .remu | .rems | .and | .or | .xor
  | .cmpu | .cmps | .minu | .mins | .maxu | .maxs => .two
  | .neg | .abs | .not | .lzc | .cvtfu | .cvtfs | .cvtuf | .cvtsf => .one
  | .sll | .srl | .sra => .shift

end Sys2Proof
end

