-- ==== Sys2Proof/Machine/State.lean ====
section
/-! DEFINITION. The state of INT64-CORE (10_state.md) with the two fields that carry its host into one
deterministic step, the reasons a step can stop, and reset (R32). -/

namespace Sys2Proof.Machine

/-- The command in flight, 10_state.md R30: the word written to CMD and the values `A` and `B` held then. -/
structure Pending where
  /-- `c`, the command word. -/
  cmd : Word
  /-- `a`, the latched `A`. -/
  a : Value
  /-- `b`, the latched `B`. -/
  b : Value
  deriving DecidableEq, Repr

/-- One bus access of the host (20_memory.md R42, R43), at a byte address of its own address space, `size` bytes wide.
Only 4-byte accesses carry a meaning, so a write's data is one word (log 6). -/
inductive Access
  | read (addr size : Nat)
  | write (addr size : Nat) (v : Word)
  deriving DecidableEq, Repr

/-- What may happen next from outside or inside the block (10_state.md R34, 70_reset_and_hazards.md R220). -/
inductive Event
  /-- The host takes a step: one access. -/
  | host (x : Access)
  /-- The block may take its step, the completion (R33). -/
  | block
  /-- The platform resets the block. -/
  | reset
  deriving DecidableEq, Repr

/-- The reasons for which a step faults. -/
inductive Fault
  /-- 60_exceptions.md R205: a host access to the window that 20_memory.md R42 does not define, of `size` bytes at
  offset `off` from `BASE`. Raised by `hostStep`. SAFE: the spec names the fault; no state of the block changes (log 6,
  log 7). -/
  | busAccessFault (off : Int) (size : Nat)
  /-- 10_state.md R33 "require PEND = (c, a, b)": a command's meaning asked for in a state that has no command in
  flight. Raised by `complete`, never by a step (log 8). SAFE: the machine has no such step. -/
  | noCommandInFlight
  deriving DecidableEq, Repr

/-- The reasons for which a step is refused. -/
inductive Refusal
  /-- An arm of `exec` whose command has no meaning yet; raised by `exec` alone. SAFE: the machine stops. No arm
  raises it now. -/
  | notModelled (mnemonic : String)
  deriving DecidableEq, Repr

/-- Every piece of state of 10_state.md R20, then the two fields of the model's own. -/
structure State where
  /-- `A` (R21). -/
  regA : Value
  /-- `B` (R22). -/
  regB : Value
  /-- `R` (R23). -/
  regR : Value
  /-- `S` (R24). -/
  regS : Value
  /-- `STATUS.ERR` (R26), 2 bits (log 14). -/
  err : BitVec 2
  /-- `STATUS.LT` (R27). -/
  lt : Bool
  /-- `STATUS.EQ` (R27). -/
  eq : Bool
  /-- `STATUS.GT` (R27). -/
  gt : Bool
  /-- `STATUS.DROP` (R28). -/
  drop : Bool
  /-- `PEND` (R30). -/
  pend : Option Pending
  /-- The model's own: what happens next, in this order (R34; log 1). -/
  schedule : List Event
  /-- The model's own: the words the block has returned to its host, newest first (log 3). -/
  busReads : List Word
  deriving DecidableEq, Repr

/-- `STATUS.BUSY`, a view of `PEND` (R25). -/
def State.busy (s : State) : Bool := s.pend.isSome

/-- The state after reset: R32, and nothing scheduled or read yet (log 1, log 3). -/
def State.reset : State where
  regA := 0x0000000000000000#64
  regB := 0x0000000000000000#64
  regR := 0x0000000000000000#64
  regS := 0x0000000000000000#64
  err := 0#2
  lt := false
  eq := false
  gt := false
  drop := false
  pend := none
  schedule := []
  busReads := []

end Sys2Proof.Machine
end

