-- ==== Sys2Proof/Machine/Operands.lean ====
section
/-! DEFINITION. Word pairs, the readings of a value, and the operand forms of 30_encoding.md R62. -/

namespace Sys2Proof.Machine

/-- `lo(v) = v[31:0]` (00_scope.md R5). -/
def lo (v : Value) : Word := v.extractLsb' 0 32

/-- `hi(v) = v[63:32]` (R5). -/
def hi (v : Value) : Word := v.extractLsb' 32 32

/-- `{h, l}` (R6). -/
def pair (h l : Word) : Value := h ++ l

/-- `v` with `v[31:0] <- w` (20_memory.md R45). -/
def setLo (v : Value) (w : Word) : Value := pair (hi v) w

/-- `v` with `v[63:32] <- w` (R45). -/
def setHi (v : Value) (w : Word) : Value := pair w (lo v)

/-- `u(v)` (00_scope.md R7). -/
def u (v : Value) : Nat := v.toNat

/-- `s(v)` (R7). -/
def sgn (v : Value) : Int := v.toInt

/-- `bits64(n)`: the pattern of `n mod 2^64` (R7). -/
def bits64 (n : Int) : Value := BitVec.ofInt 64 n

/-- `v[63]`. -/
def signBit (v : Value) : Bool := v.getLsbD 63

/-- Bit 31 of a word. -/
def bit31 (w : Word) : Bool := w.getLsbD 31

/-- The shift count `n = u(b[5:0])` (30_encoding.md R62). -/
def shiftCount (b : Value) : Nat := (b.extractLsb' 0 6).toNat

/-- A carry or borrow as a word. -/
def carryWord (c : Bool) : Word := if c then 1#32 else 0#32

end Sys2Proof.Machine
end

