-- ==== Sys2Proof/Machine/Kernel.lean ====
section
/-! DEFINITION. The word-pair kernel functions of 00_scope.md R11, each in the form of its rule's pseudocode. All are
pure and none raises. -/

namespace Sys2Proof.Machine

/-- 40_add_sub.md R100: the two-word adder with carry propagation. -/
def add64 (a b : Value) : Value :=
  let sl := lo a + lo b
  let c := (bit31 (lo a) && bit31 (lo b)) || ((bit31 (lo a) || bit31 (lo b)) && !bit31 sl)
  let sh := hi a + hi b + carryWord c
  pair sh sl

/-- 40_add_sub.md R102: the two-word subtractor with borrow propagation, `a - b`. -/
def sub64 (a b : Value) : Value :=
  let dl := lo a - lo b
  let w := (!bit31 (lo a) && bit31 (lo b)) || ((!bit31 (lo a) || bit31 (lo b)) && bit31 dl)
  let dh := hi a - hi b - carryWord w
  pair dh dl

/-- 42_sign.md R130: complement plus one. -/
def neg64 (a : Value) : Value := add64 (pair (~~~ hi a) (~~~ lo a)) ONE

/-- 44_shift.md R150, for `n` in 0 to 63. -/
def shl64 (a : Value) (n : Nat) : Value :=
  if n = 0 then a
  else if 32 ≤ n then pair (lo a <<< (n - 32)) 0x00000000#32
  else pair ((hi a <<< n) ||| (lo a >>> (32 - n))) (lo a <<< n)

/-- 44_shift.md R150, for `n` in 0 to 63; fills with zeros. -/
def shr64 (a : Value) (n : Nat) : Value :=
  if n = 0 then a
  else if 32 ≤ n then pair 0x00000000#32 (hi a >>> (n - 32))
  else pair (hi a >>> n) ((lo a >>> n) ||| (hi a <<< (32 - n)))

/-- 44_shift.md R153 `asr32(w, k)`: the pattern of `floor(s32(w) / 2^k)`. -/
def asr32 (w : Word) (k : Nat) : Word := BitVec.ofInt 32 (w.toInt / 2 ^ k)

/-- 44_shift.md R153's pseudocode, for `n` in 0 to 63. -/
def sra64 (a : Value) (n : Nat) : Value :=
  if n = 0 then a
  else if 32 ≤ n then pair (if signBit a then 0xFFFFFFFF#32 else 0x00000000#32) (asr32 (hi a) (n - 32))
  else pair (asr32 (hi a) n) ((lo a >>> n) ||| (hi a <<< (32 - n)))

/-- 45_compare.md R160: high words first, unsigned, then low words unsigned; -1, 0 or 1. -/
def cmpU (a b : Value) : Int :=
  if hi a ≠ hi b then (if (hi a).toNat > (hi b).toNat then 1 else -1)
  else if lo a ≠ lo b then (if (lo a).toNat > (lo b).toNat then 1 else -1)
  else 0

/-- 45_compare.md R160: high words first, signed, then low words unsigned; -1, 0 or 1. -/
def cmpS (a b : Value) : Int :=
  if hi a ≠ hi b then (if (hi a).toInt > (hi b).toInt then 1 else -1)
  else if lo a ≠ lo b then (if (lo a).toNat > (lo b).toNat then 1 else -1)
  else 0

/-- The zero bits of `w[k-1:0]` above its highest set bit; `k` if there is none. -/
def clzBelow (w : Word) : Nat → Nat
  | 0 => 0
  | k + 1 => if w.getLsbD k then 0 else clzBelow w k + 1

/-- 00_scope.md R7 `clz32(w)`: the zero bits above the highest set bit, and 32 for `w = 0`. -/
def clz32 (w : Word) : Nat := clzBelow w 32

/-- 46_count.md R170. -/
def lzc64 (a : Value) : Nat :=
  if hi a ≠ 0x00000000#32 then clz32 (hi a) else 32 + clz32 (lo a)

/-- The loop of 41_muldiv.md R110, at most `fuel` times round; R110: "at most 64 times" (log 15). -/
def mulLoop : Nat → Value → Value → Value → Value
  | 0, acc, _, _ => acc
  | fuel + 1, acc, base, t =>
    if t = ZERO then acc
    else mulLoop fuel (if t.getLsbD 0 then add64 acc base else acc) (shl64 base 1) (shr64 t 1)

/-- 41_muldiv.md R110: shift-and-add; the operand that is larger by unsigned compare is the base. -/
def mulU (a b : Value) : Value :=
  if 0 ≤ cmpU a b then mulLoop 64 ZERO a b else mulLoop 64 ZERO b a

/-- The loop of 41_muldiv.md R113, run the given number of times on the divisor `d`, quotient `q`, remainder `r`. The
compare is unsigned (90_conflicts.md C1). -/
def divLoop : Nat → Value → Value → Value → Value × Value
  | 0, _, q, r => (q, r)
  | k + 1, d, q, r =>
    if 0 ≤ cmpU r d then divLoop k (shr64 d 1) (shl64 q 1 ||| ONE) (sub64 r d)
    else divLoop k (shr64 d 1) (shl64 q 1) r

/-- 41_muldiv.md R113, for `b != ZERO` (log 16): (quotient, remainder). -/
def divremU (a b : Value) : Value × Value :=
  if cmpU a b < 0 then (ZERO, a)
  else if a = b then (ONE, ZERO)
  else
    let sh := lzc64 b - lzc64 a
    divLoop (sh + 1) (shl64 b sh) ZERO a

/-- The magnitude a signed command works on: `neg64` of a negative operand (41_muldiv.md R112, R116; `MIN_S` is its own
magnitude, R120). -/
def magnitude (a : Value) : Value := if signBit a then neg64 a else a

/-- 41_muldiv.md R112's pseudocode. -/
def mulS (a b : Value) : Value :=
  if a = ZERO ∨ b = ZERO then ZERO
  else
    let p := mulU (magnitude a) (magnitude b)
    if signBit a ^^ signBit b then neg64 p else p

/-- 41_muldiv.md R116, for `b != ZERO` (log 16): (quotient, remainder), truncating. -/
def divremS (a b : Value) : Value × Value :=
  let qr := divremU (magnitude a) (magnitude b)
  (if signBit a ^^ signBit b then neg64 qr.1 else qr.1, if signBit a then neg64 qr.2 else qr.2)

/-- 42_sign.md R132's pseudocode. -/
def abs64 (a : Value) : Value := if signBit a ∧ a ≠ MIN_S then neg64 a else a

end Sys2Proof.Machine
end

