-- ==== Sys2Proof/Machine/Flags.lean ====
section
/-! DEFINITION. The compare flags (10_state.md R27) and the STATUS word (20_memory.md R41, R44). -/

namespace Sys2Proof.Machine

/-- The three compare flags a command may write (R27). -/
structure CompareFlags where
  lt : Bool
  eq : Bool
  gt : Bool
  deriving DecidableEq, Repr

/-- `(LT, EQ, GT) <- (k = -1, k = 0, k = 1)` (45_compare.md R161). -/
def flagsOf (k : Int) : CompareFlags := ⟨decide (k = -1), decide (k = 0), decide (k = 1)⟩

/-- The STATUS word: `zext_32({DROP, GT, EQ, LT, ERR[1:0], BUSY})`, BUSY in bit 0 (R44). -/
def statusWord (s : State) : Word :=
  (BitVec.ofBool s.drop ++ BitVec.ofBool s.gt ++ BitVec.ofBool s.eq ++ BitVec.ofBool s.lt ++ s.err ++
    BitVec.ofBool s.busy).setWidth 32

end Sys2Proof.Machine
end

