-- ==== Sys2Proof/Machine/Ops.lean ====
section
/-! DEFINITION. The execution frame every command shares: its result record (30_encoding.md R66), the completion step
(10_state.md R33), and error reporting (60_exceptions.md R200 to R209). The block takes no trap and has no trap return
(R208, R209): raising an error is a completion that writes `ERR` and nothing else. -/

namespace Sys2Proof.Machine

/-- `ERR = 0`, none (R200). -/
abbrev errNone : BitVec 2 := 0#2
/-- `ERR = 1`, DivideByZero (R200). -/
abbrev errDivideByZero : BitVec 2 := 1#2
/-- `ERR = 2`, IllegalCommand (R200). -/
abbrev errIllegalCommand : BitVec 2 := 2#2

/-- `res = (r, s, flags, err)` of R66, in which `r`, `s` and `flags` may each be absent. -/
structure Result where
  r : Option Value
  s : Option Value
  flags : Option CompareFlags
  err : BitVec 2
  deriving DecidableEq, Repr

/-- A rule that ends with `R <- v`. -/
def Result.value (v : Value) : Result := ⟨some v, none, none, errNone⟩

/-- A rule that ends with `R <- v` and `S <- w` (the division unit, 10_state.md R24). -/
def Result.values (v w : Value) : Result := ⟨some v, some w, none, errNone⟩

/-- A rule that ends with `R <- v` and `(LT, EQ, GT) <- f` (the comparator, R27). -/
def Result.compared (v : Value) (f : CompareFlags) : Result := ⟨some v, none, some f, errNone⟩

/-- Raising an error: everything absent but the code (R66; R201, R202). -/
def Result.raise (code : BitVec 2) : Result := ⟨none, none, none, code⟩

/-- `raise DivideByZero()` when the latched `b` is `ZERO`, else the rule's result (41_muldiv.md R114, R201). -/
def guardDivisor (b : Value) (res : Result) : Result :=
  if b = ZERO then Result.raise errDivideByZero else res

/-- What 10_state.md R33 does with a result: with `err = 0` the present parts are written; `ERR` is written and `PEND`
becomes none in every case; nothing else changes. -/
def State.commit (s : State) (res : Result) : State :=
  let written : State :=
    if res.err = errNone then
      { s with
        regR := res.r.getD s.regR
        regS := res.s.getD s.regS
        lt := (res.flags.map CompareFlags.lt).getD s.lt
        eq := (res.flags.map CompareFlags.eq).getD s.eq
        gt := (res.flags.map CompareFlags.gt).getD s.gt }
    else s
  { written with err := res.err, pend := none }

/-- The completion step of R33 for a command whose rule is the pure function `f` of the latched operands (30_encoding.md
R62, R67). It requires a command in flight (log 8). -/
def complete (f : Value → Value → Result) (s : State) : Host.Outcome State Fault Refusal :=
  match s.pend with
  | some p => .next (s.commit (f p.a p.b))
  | none => .fault .noCommandInFlight

/-- The completion of an illegal word: `ERR <- 2` whatever the operands (60_exceptions.md R202, R207). -/
def completeIllegal (s : State) : Host.Outcome State Fault Refusal :=
  complete (fun _ _ => Result.raise errIllegalCommand) s

end Sys2Proof.Machine
end

