-- ==== Sys2Proof/Machine/Bus.lean ====
section
/-! DEFINITION. The register window (20_memory.md): which accesses are defined (R40, R42), what a read returns (R44),
what a write does (R45), and the CMD write, which accepts or drops a command (R46). -/

namespace Sys2Proof.Machine

/-- The register at a window offset (R41). -/
inductive WindowReg
  | aLo | aHi | bLo | bHi
  | cmd | status
  | rLo | rHi | sLo | sHi
  | reserved
  deriving DecidableEq, Repr

/-- The register map R41, for the aligned offsets 0x00 to 0x3C. -/
def regAt (off : Nat) : WindowReg :=
  if off = 0x00 then .aLo
  else if off = 0x04 then .aHi
  else if off = 0x08 then .bLo
  else if off = 0x0C then .bHi
  else if off = 0x10 then .cmd
  else if off = 0x14 then .status
  else if off = 0x18 then .rLo
  else if off = 0x1C then .rHi
  else if off = 0x20 then .sLo
  else if off = 0x24 then .sHi
  else .reserved

/-- Where a host access goes. -/
inductive Route
  /-- No byte of it lies in the window: not the block's (R40; log 5). -/
  | outside
  /-- An aligned 32-bit access at this offset (R42). -/
  | window (off : Nat)
  /-- Any other access to the window (R42; log 6). -/
  | undefined (off : Int)
  deriving DecidableEq, Repr

/-- The route of an access of `size` bytes whose address is `off` bytes from `BASE` (log 5, log 6). -/
def routeOffset (off : Int) (size : Nat) : Route :=
  if off + (max size 1 : Nat) ≤ 0 ∨ (Config.windowBytes : Int) ≤ off then .outside
  else if size = 4 ∧ 0 ≤ off ∧ off % 4 = 0 then .window off.toNat
  else .undefined off

/-- The route of an access at a host byte address (R40). -/
def route (addr size : Nat) : Route := routeOffset ((addr : Int) - (Config.base : Int)) size

/-- `BusRead(off)`'s word (R44); it changes no state. -/
def busRead (s : State) (r : WindowReg) : Word :=
  match r with
  | .aLo => lo s.regA
  | .aHi => hi s.regA
  | .bLo => lo s.regB
  | .bHi => hi s.regB
  | .cmd => 0x00000000#32
  | .status => statusWord s
  | .rLo => lo s.regR
  | .rHi => hi s.regR
  | .sLo => lo s.regS
  | .sHi => hi s.regS
  | .reserved => 0x00000000#32

/-- The write to CMD (R46): accept when nothing is in flight, else drop. Acceptance does not decode `v`. -/
def writeCmd (s : State) (v : Word) : State :=
  match s.pend with
  | none => { s with pend := some ⟨v, s.regA, s.regB⟩, drop := false }
  | some _ => { s with drop := true }

/-- `BusWrite(off, v)` (R45, R46). -/
def busWrite (s : State) (r : WindowReg) (v : Word) : State :=
  match r with
  | .aLo => { s with regA := setLo s.regA v }
  | .aHi => { s with regA := setHi s.regA v }
  | .bLo => { s with regB := setLo s.regB v }
  | .bHi => { s with regB := setHi s.regB v }
  | .cmd => writeCmd s v
  | .status | .rLo | .rHi | .sLo | .sHi | .reserved => s

/-- The read of a routed access: the host receives the word (log 3). -/
def hostRead (s : State) (size : Nat) (r : Route) : Host.Outcome State Fault Refusal :=
  match r with
  | .outside => .next s
  | .window off => .next { s with busReads := busRead s (regAt off) :: s.busReads }
  | .undefined off => .fault (.busAccessFault off size)

/-- The write of a routed access. -/
def hostWrite (s : State) (size : Nat) (v : Word) (r : Route) : Host.Outcome State Fault Refusal :=
  match r with
  | .outside => .next s
  | .window off => .next (busWrite s (regAt off) v)
  | .undefined off => .fault (.busAccessFault off size)

/-- One step of the host (10_state.md R34, 20_memory.md R43). -/
def hostStep (x : Access) (s : State) : Host.Outcome State Fault Refusal :=
  match x with
  | .read addr size => hostRead s size (route addr size)
  | .write addr size v => hostWrite s size v (route addr size)

end Sys2Proof.Machine
end

