-- ==== Sys2Proof/Machine/AddSub.lean ====
section
/-! DEFINITION. ADD and SUB (40_add_sub.md). -/

namespace Sys2Proof.Machine

/-- 40_add_sub.md R101. -/
def execAdd (s : State) : Host.Outcome State Fault Refusal :=
  complete (fun a b => Result.value (add64 a b)) s

/-- 40_add_sub.md R103. -/
def execSub (s : State) : Host.Outcome State Fault Refusal :=
  complete (fun a b => Result.value (sub64 a b)) s

end Sys2Proof.Machine
end

