-- ==== Sys2Proof/Machine/Bitwise.lean ====
section
/-! DEFINITION. AND, OR, XOR, NOT (43_bitwise.md), word by word as their rules write them. -/

namespace Sys2Proof.Machine

/-- 43_bitwise.md R140. -/
def execAnd (s : State) : Host.Outcome State Fault Refusal :=
  complete (fun a b => Result.value (pair (hi a &&& hi b) (lo a &&& lo b))) s

/-- 43_bitwise.md R141. -/
def execOr (s : State) : Host.Outcome State Fault Refusal :=
  complete (fun a b => Result.value (pair (hi a ||| hi b) (lo a ||| lo b))) s

/-- 43_bitwise.md R142. -/
def execXor (s : State) : Host.Outcome State Fault Refusal :=
  complete (fun a b => Result.value (pair (hi a ^^^ hi b) (lo a ^^^ lo b))) s

/-- 43_bitwise.md R143; `b` is ignored. -/
def execNot (s : State) : Host.Outcome State Fault Refusal :=
  complete (fun a _ => Result.value (pair (~~~ hi a) (~~~ lo a))) s

end Sys2Proof.Machine
end

