-- ==== Sys2Proof/Machine/Compare.lean ====
section
/-! DEFINITION. CMPU, CMPS, MINU, MINS, MAXU, MAXS (45_compare.md). -/

namespace Sys2Proof.Machine

/-- What CMPU and CMPS write for the three-way result `k` (R161): `R <- bits64(k)` and the flags. -/
def compareResult (k : Int) : Result := Result.compared (bits64 k) (flagsOf k)

/-- `if k <= 0 then a else b` (R163, R164); a tie gives `a` (92_eei_decisions.md D38). -/
def minBy (k : Int) (a b : Value) : Value := if k ≤ 0 then a else b

/-- `if k >= 0 then a else b` (R165, R166). -/
def maxBy (k : Int) (a b : Value) : Value := if 0 ≤ k then a else b

/-- 45_compare.md R161. -/
def execCmpu (s : State) : Host.Outcome State Fault Refusal :=
  complete (fun a b => compareResult (cmpU a b)) s

/-- 45_compare.md R162. -/
def execCmps (s : State) : Host.Outcome State Fault Refusal :=
  complete (fun a b => compareResult (cmpS a b)) s

/-- 45_compare.md R163; writes no flag. -/
def execMinu (s : State) : Host.Outcome State Fault Refusal :=
  complete (fun a b => Result.value (minBy (cmpU a b) a b)) s

/-- 45_compare.md R164; writes no flag. -/
def execMins (s : State) : Host.Outcome State Fault Refusal :=
  complete (fun a b => Result.value (minBy (cmpS a b) a b)) s

/-- 45_compare.md R165; writes no flag. -/
def execMaxu (s : State) : Host.Outcome State Fault Refusal :=
  complete (fun a b => Result.value (maxBy (cmpU a b) a b)) s

/-- 45_compare.md R166; writes no flag. -/
def execMaxs (s : State) : Host.Outcome State Fault Refusal :=
  complete (fun a b => Result.value (maxBy (cmpS a b) a b)) s

end Sys2Proof.Machine
end

