-- ==== Sys2Proof/Machine/Float.lean ====
section
/-! DEFINITION. The binary64 format (47_convert.md R180), and the two conversions `f2i` (R181) and `rne64` (R184) as
exact integer arithmetic. -/

namespace Sys2Proof.Machine

/-- `f[63]`, the sign (R180). -/
def f64Sign (f : Value) : Bool := f.getLsbD 63

/-- `E = f[62:52]`, the biased exponent (R180). -/
def f64Exp (f : Value) : Nat := (f.extractLsb' 52 11).toNat

/-- `F = f[51:0]`, the fraction (R180). -/
def f64Frac (f : Value) : Nat := (f.extractLsb' 0 52).toNat

/-- The classes of R180. A finite value is `(-1)^neg * m * 2^e`. -/
inductive F64Class
  | nan
  | inf (neg : Bool)
  | finite (neg : Bool) (m : Nat) (e : Int)
  deriving DecidableEq, Repr

/-- The class of a pattern (R180). -/
def f64Class (f : Value) : F64Class :=
  if f64Exp f = 0x7FF then
    if f64Frac f = 0 then .inf (f64Sign f) else .nan
  else if f64Exp f = 0 then .finite (f64Sign f) (f64Frac f) (-1074)
  else .finite (f64Sign f) (2 ^ 52 + f64Frac f) ((f64Exp f : Int) - 1075)

/-- `floor(m * 2^e)`, exactly. -/
def floorScaled (m : Nat) (e : Int) : Nat :=
  if 0 ≤ e then m * 2 ^ e.toNat else m / 2 ^ (-e).toNat

/-- `sign(x) * floor(|x|)`, the truncation of R181. -/
def truncScaled (neg : Bool) (m : Nat) (e : Int) : Int :=
  if neg then -(floorScaled m e : Int) else (floorScaled m e : Int)

/-- `f2i(a)` (R181): 0 for NaN, the infinities and zeros; else the truncation, as its least non-negative residue. -/
def f2i (a : Value) : Value :=
  match f64Class a with
  | .nan => ZERO
  | .inf _ => ZERO
  | .finite neg m e => bits64 (truncScaled neg m e)

/-- The number of bits of `n` up to its highest set bit; 0 for 0. -/
def bitLength (n : Nat) : Nat := if n = 0 then 0 else Nat.log2 n + 1

/-- `n / 2^k` rounded to the nearest integer, ties to the even one (`k` at least 1). -/
def roundShift (n k : Nat) : Nat :=
  let q := n / 2 ^ k
  let rem := n % 2 ^ k
  let half := 2 ^ (k - 1)
  if half < rem ∨ (rem = half ∧ q % 2 = 1) then q + 1 else q

/-- The pattern of `m * 2^(E - 1075)` for `2^52 ≤ m ≤ 2^53`, sign bit 0 (R180). For `m = 2^53`, which rounding up can
give, the sum carries into the exponent field: the pattern of `2^52 * 2^(E + 1 - 1075)`. -/
def packNormal (bexp m : Nat) : Value := BitVec.ofNat 64 (bexp * 2 ^ 52 + (m - 2 ^ 52))

/-- `rne64(n)` for `0 ≤ n < 2^64` (R184), as a pattern: the nearest binary64 value, ties to even (log 17). -/
def rne64 (n : Nat) : Value :=
  let len := bitLength n
  if n = 0 then ZERO
  else if len ≤ 53 then packNormal (1022 + len) (n * 2 ^ (53 - len))
  else packNormal (1022 + len) (roundShift n (len - 53))

/-- The pattern of `-x` for a pattern of `x ≥ 0`: sign bit set (R186). -/
def f64Negate (f : Value) : Value := f ||| MIN_S

/-- 47_convert.md R186's pseudocode. -/
def cvtSigned (a : Value) : Value :=
  if a = MIN_S then 0xC3E0000000000000#64
  else if signBit a then f64Negate (rne64 (u (neg64 a)))
  else rne64 (u a)

end Sys2Proof.Machine
end

