-- ==== Sys2Proof/Machine/Convert.lean ====
section
/-! DEFINITION. CVTFU, CVTFS, CVTUF, CVTSF (47_convert.md); all four ignore `b`. -/

namespace Sys2Proof.Machine

/-- 47_convert.md R182. -/
def execCvtfu (s : State) : Host.Outcome State Fault Refusal :=
  complete (fun a _ => Result.value (f2i a)) s

/-- 47_convert.md R183: every input gives the same `R` as CVTFU. -/
def execCvtfs (s : State) : Host.Outcome State Fault Refusal :=
  complete (fun a _ => Result.value (f2i a)) s

/-- 47_convert.md R185. -/
def execCvtuf (s : State) : Host.Outcome State Fault Refusal :=
  complete (fun a _ => Result.value (rne64 (u a))) s

/-- 47_convert.md R186. -/
def execCvtsf (s : State) : Host.Outcome State Fault Refusal :=
  complete (fun a _ => Result.value (cvtSigned a)) s

end Sys2Proof.Machine
end

