-- ==== Sys2Proof/Machine/Count.lean ====
section
/-! DEFINITION. LZC (46_count.md). -/

namespace Sys2Proof.Machine

/-- 46_count.md R171: `R <- zext_64(lzc64(a))`; `b` is ignored. -/
def execLzc (s : State) : Host.Outcome State Fault Refusal :=
  complete (fun a _ => Result.value (BitVec.ofNat 64 (lzc64 a))) s

end Sys2Proof.Machine
end

