-- ==== Sys2Proof/Machine/MulDiv.lean ====
section
/-! DEFINITION. MULU, MULS, DIVU, DIVS, REMU, REMS (41_muldiv.md). -/

namespace Sys2Proof.Machine

/-- 41_muldiv.md R111. -/
def execMulu (s : State) : Host.Outcome State Fault Refusal :=
  complete (fun a b => Result.value (mulU a b)) s

/-- 41_muldiv.md R112. -/
def execMuls (s : State) : Host.Outcome State Fault Refusal :=
  complete (fun a b => Result.value (mulS a b)) s

/-- 41_muldiv.md R114: quotient in `R`, remainder in `S`. -/
def execDivu (s : State) : Host.Outcome State Fault Refusal :=
  complete (fun a b => guardDivisor b (Result.values (divremU a b).1 (divremU a b).2)) s

/-- 41_muldiv.md R117: quotient in `R`, remainder in `S`. -/
def execDivs (s : State) : Host.Outcome State Fault Refusal :=
  complete (fun a b => guardDivisor b (Result.values (divremS a b).1 (divremS a b).2)) s

/-- 41_muldiv.md R115: remainder in `R`, quotient in `S`. -/
def execRemu (s : State) : Host.Outcome State Fault Refusal :=
  complete (fun a b => guardDivisor b (Result.values (divremU a b).2 (divremU a b).1)) s

/-- 41_muldiv.md R118: remainder in `R`, quotient in `S`. -/
def execRems (s : State) : Host.Outcome State Fault Refusal :=
  complete (fun a b => guardDivisor b (Result.values (divremS a b).2 (divremS a b).1)) s

end Sys2Proof.Machine
end

