-- ==== Sys2Proof/Machine/Shift.lean ====
section
/-! DEFINITION. SLL, SRL, SRA (44_shift.md); the count is `b[5:0]` for all three (30_encoding.md R62). -/

namespace Sys2Proof.Machine

/-- 44_shift.md R151. -/
def execSll (s : State) : Host.Outcome State Fault Refusal :=
  complete (fun a b => Result.value (shl64 a (shiftCount b))) s

/-- 44_shift.md R152. -/
def execSrl (s : State) : Host.Outcome State Fault Refusal :=
  complete (fun a b => Result.value (shr64 a (shiftCount b))) s

/-- 44_shift.md R153. -/
def execSra (s : State) : Host.Outcome State Fault Refusal :=
  complete (fun a b => Result.value (sra64 a (shiftCount b))) s

end Sys2Proof.Machine
end

