-- ==== Sys2Proof/Machine/Sign.lean ====
section
/-! DEFINITION. NEG and ABS (42_sign.md). -/

namespace Sys2Proof.Machine

/-- 42_sign.md R131; `b` is ignored. -/
def execNeg (s : State) : Host.Outcome State Fault Refusal :=
  complete (fun a _ => Result.value (neg64 a)) s

/-- 42_sign.md R132; `b` is ignored. -/
def execAbs (s : State) : Host.Outcome State Fault Refusal :=
  complete (fun a _ => Result.value (abs64 a)) s

end Sys2Proof.Machine
end

