-- ==== Sys2Proof/Machine/Dispatch.lean ====
section
/-! DEFINITION. `exec`: one arm for each command of 30_encoding.md R63, each one call of its meaning. -/

namespace Sys2Proof.Machine

-- `Execute` of 30_encoding.md R66 and the commit of 10_state.md R33, for a decoded command.
def exec (i : Instr) (s : State) : Host.Outcome State Fault Refusal :=
  match i with
  | .add => Sys2Proof.Machine.execAdd s
  | .sub => Sys2Proof.Machine.execSub s
  | .mulu => Sys2Proof.Machine.execMulu s
  | .muls => Sys2Proof.Machine.execMuls s
  | .divu => Sys2Proof.Machine.execDivu s
  | .divs => Sys2Proof.Machine.execDivs s
  | .remu => Sys2Proof.Machine.execRemu s
  | .rems => Sys2Proof.Machine.execRems s
  | .neg => Sys2Proof.Machine.execNeg s
  | .abs => Sys2Proof.Machine.execAbs s
  | .and => Sys2Proof.Machine.execAnd s
  | .or => Sys2Proof.Machine.execOr s
  | .xor => Sys2Proof.Machine.execXor s
  | .not => Sys2Proof.Machine.execNot s
  | .sll => Sys2Proof.Machine.execSll s
  | .srl => Sys2Proof.Machine.execSrl s
  | .sra => Sys2Proof.Machine.execSra s
  | .cmpu => Sys2Proof.Machine.execCmpu s
  | .cmps => Sys2Proof.Machine.execCmps s
  | .minu => Sys2Proof.Machine.execMinu s
  | .mins => Sys2Proof.Machine.execMins s
  | .maxu => Sys2Proof.Machine.execMaxu s
  | .maxs => Sys2Proof.Machine.execMaxs s
  | .lzc => Sys2Proof.Machine.execLzc s
  | .cvtfu => Sys2Proof.Machine.execCvtfu s
  | .cvtfs => Sys2Proof.Machine.execCvtfs s
  | .cvtuf => Sys2Proof.Machine.execCvtuf s
  | .cvtsf => Sys2Proof.Machine.execCvtsf s

end Sys2Proof.Machine
end

