-- ==== Sys2Proof/Machine/Sched.lean ====
section
/-! DEFINITION. Whose step comes next (10_state.md R34; log 1, log 2, log 9), the reset event (70_reset_and_hazards.md
R220, R221; log 10), and the placing of a command in flight (log 11). -/

namespace Sys2Proof.Machine

/-- The step to be taken, with the state it is taken in: the one whose schedule has moved past the event. -/
inductive Turn
  /-- Nothing is enabled, so nothing happens (60_exceptions.md R214). -/
  | idle (s : State)
  /-- The completion of the command in flight (R33). -/
  | completion (p : Pending) (s : State)
  /-- A host access (R34). -/
  | access (x : Access) (s : State)
  /-- The platform's reset (R220). -/
  | reset (s : State)
  deriving DecidableEq, Repr

/-- The block's turn: the completion if a command is in flight, else nothing (R33; log 9). -/
def blockTurn (s : State) : Turn :=
  match s.pend with
  | some p => .completion p s
  | none => .idle s

/-- The state whose schedule has moved past its first event. -/
def State.advance (s : State) : State := { s with schedule := s.schedule.tail }

/-- Whose turn it is. When the host has nothing more to do, the block takes its step if it can (log 2). -/
def turn (s : State) : Turn :=
  match s.schedule.head? with
  | none => blockTurn s.advance
  | some .block => blockTurn s.advance
  | some (.host x) => .access x s.advance
  | some .reset => .reset s.advance

/-- Reset: every item of the block's state at its reset value; a command in flight is discarded (R220, R221). What the
host has read and what it will do are not the block's (log 10). -/
def applyReset (s : State) : State :=
  { State.reset with schedule := s.schedule, busReads := s.busReads }

/-- The word `w` in flight with the present operands, as an accepting CMD write latches them (20_memory.md R46), and the
block's turn next (log 11). -/
def placeCommand (s : State) (w : Word) : State :=
  { s with pend := some ⟨w, s.regA, s.regB⟩, schedule := .block :: s.schedule }

end Sys2Proof.Machine
end

