-- ==== Sys2Proof/Machine/Step.lean ====
section
/-! DEFINITION. One step of the machine: the step of whichever agent the schedule names (10_state.md R34). -/

namespace Sys2Proof.Machine

/-- A completion decodes the word in flight and runs its command; an illegal word reports `ERR = 2` (R33; 30_encoding.md
R66; 60_exceptions.md R207). -/
def step (s : State) : Host.Outcome State Fault Refusal :=
  match turn s with
  | .idle t => .next t
  | .access x t => hostStep x t
  | .reset t => .next (applyReset t)
  | .completion p t =>
    match decode p.cmd with
    | .command i => exec i t
    | .illegal _ => completeIllegal t

/-- `s` with the command whose bits are `w` in flight and its completion the very next step (log 11). -/
def State.withFetchWord (s : State) (nbits w : Nat) : State := placeCommand s (tableWord nbits w)

end Sys2Proof.Machine
end

