-- ==== Sys2Proof/Machine/HostProc.lean ====
section
/-! DEFINITION. The host procedures of 30_encoding.md R69 to R72, which are host software beside the block (log 18): the
bus statements, the command statements, and the pseudo-instructions. No step of the machine calls them. -/

namespace Sys2Proof.Machine

/-- `W off, v32` (R69). -/
def accessW (off : Nat) (v : Word) : Access := .write (Config.base + off) 4 v

/-- `RD off` (R69). -/
def accessRD (off : Nat) : Access := .read (Config.base + off) 4

/-- `k` rounds of `POLL` (R69): a read of STATUS each. -/
def pollReads (k : Nat) : List Access := List.replicate k (accessRD 0x14)

/-- The writes a command statement makes for operand `B` (R70): none for a one-operand command; for a shift the count `n`
as it is written, not reduced, in the low word and 0 in the high word. A count is one data word, `lo b`. -/
def operandBWrites (i : Instr) (b : Value) : List Access :=
  match i.arity with
  | .one => []
  | .two => [accessW 0x08 (lo b), accessW 0x0C (hi b)]
  | .shift => [accessW 0x08 (lo b), accessW 0x0C 0x00000000#32]

/-- The writes of a command statement, `POLL` apart (R70). -/
def commandAccesses (i : Instr) (a b : Value) : List Access :=
  [accessW 0x00 (lo a), accessW 0x04 (hi a)] ++ operandBWrites i b ++ [accessW 0x10 (encode i)]

/-- The boolean pseudo-instructions of R72. -/
inductive Predicate
  | eq | ne | lts | ltu | gts | gtu | les | leu | ges | geu
  deriving DecidableEq, Repr

/-- The compare a predicate issues (R72). -/
def Predicate.command (p : Predicate) : Instr :=
  match p with
  | .eq | .ne | .ltu | .gtu | .leu | .geu => .cmpu
  | .lts | .gts | .les | .ges => .cmps

/-- What a predicate reads off the STATUS word (R72). -/
def Predicate.result (p : Predicate) (t : Word) : Bool :=
  match p with
  | .eq => t.getLsbD 4
  | .ne => !t.getLsbD 4
  | .lts | .ltu => t.getLsbD 3
  | .gts | .gtu => t.getLsbD 5
  | .les | .leu => t.getLsbD 3 || t.getLsbD 4
  | .ges | .geu => t.getLsbD 5 || t.getLsbD 4

/-- A fold over a non-empty list from its seed; the assembler refuses the empty one (R72). -/
def foldList (f : Value → Value → Value) (seed : Value) (vs : List Value) : Option Value :=
  match vs with
  | [] => none
  | v :: rest => some ((v :: rest).foldl f seed)

/-- `MINSN` (R72). -/
def minSN : List Value → Option Value := foldList (fun acc v => minBy (cmpS acc v) acc v) MAX_S
/-- `MAXSN` (R72). -/
def maxSN : List Value → Option Value := foldList (fun acc v => maxBy (cmpS acc v) acc v) MIN_S
/-- `MINUN` (R72). -/
def minUN : List Value → Option Value := foldList (fun acc v => minBy (cmpU acc v) acc v) MAX_U
/-- `MAXUN` (R72). -/
def maxUN : List Value → Option Value := foldList (fun acc v => maxBy (cmpU acc v) acc v) MIN_U

/-- What the formatting procedures emit (R72): a sign and digits, the most significant first. -/
structure Formatted where
  minus : Bool
  digits : List Nat
  deriving DecidableEq, Repr

/-- Step 1 of `FMT16`, for a signed value: the sign, and the value with `NEG` taken (R72). -/
def fmtMagnitude (v : Value) : Value := if signBit v then neg64 v else v

/-- Leading zero digits stripped; all zeros give the single digit 0 (R72, step 3). -/
def stripZeros (ds : List Nat) : List Nat :=
  match ds.dropWhile (fun d => d == 0) with
  | [] => [0]
  | d :: rest => d :: rest

/-- The 16 nibbles, high word first (R72, step 2). -/
def nibbles (v : Value) : List Nat := (List.range 16).map fun i => (v.extractLsb' (4 * (15 - i)) 4).toNat

/-- The 64 bits, high word first (R72, step 2). -/
def bitDigits (v : Value) : List Nat := (List.range 64).map fun i => (v.extractLsb' (63 - i) 1).toNat

/-- `FMT10`'s loop: `DIVU v, 10`, the remainder emitted, until the quotient is 0; at most `fuel` rounds, and 20 are
enough below 2^64 (R72). -/
def decimalDigits : Nat → Value → List Nat → List Nat
  | 0, _, acc => acc
  | fuel + 1, v, acc =>
    let qr := divremU v 10#64
    if qr.1 = ZERO then u qr.2 :: acc else decimalDigits fuel qr.1 (u qr.2 :: acc)

/-- `FMT16` of a signed value (R72). -/
def fmt16S (v : Value) : Formatted := ⟨signBit v, stripZeros (nibbles (fmtMagnitude v))⟩
/-- `FMT16` of an unsigned value (R72). -/
def fmt16U (v : Value) : Formatted := ⟨false, stripZeros (nibbles v)⟩
/-- `FMT2` of a signed value (R72). -/
def fmt2S (v : Value) : Formatted := ⟨signBit v, stripZeros (bitDigits (fmtMagnitude v))⟩
/-- `FMT2` of an unsigned value (R72). -/
def fmt2U (v : Value) : Formatted := ⟨false, stripZeros (bitDigits v)⟩
/-- `FMT10` of a signed value (R72). -/
def fmt10S (v : Value) : Formatted := ⟨signBit v, decimalDigits 20 (fmtMagnitude v) []⟩
/-- `FMT10` of an unsigned value (R72). -/
def fmt10U (v : Value) : Formatted := ⟨false, decimalDigits 20 v []⟩

end Sys2Proof.Machine
end

