-- ==== Sys2Proof/Machine/HostProg.lean ====
section
/-! DEFINITION. The host's statements of 30_encoding.md R69 and its programs, run beside the block (log 18). The host's
control flow decides which access comes next; each access and each completion is a `step` of the machine. -/

namespace Sys2Proof.Machine

/-- A 32-bit data operand of a host statement: a literal, a host variable (R69), or the last word the host read at an
offset (R70's `R` and `S`). -/
inductive HostOperand
  | word (v : Word)
  | var (x : Nat)
  | lastRead (off : Nat)
  deriving DecidableEq, Repr

/-- The bus-level statements (R69). A label is the number of the statement it stands before. -/
inductive HostStmt
  /-- `W off, v32`. -/
  | w (off : Nat) (v : HostOperand)
  /-- `RD off -> x`. -/
  | rd (off x : Nat)
  /-- `POLL`: `RD 0x14 -> t` until `t[0] = 0`. -/
  | poll (t : Nat)
  /-- `BNZ x, L`. -/
  | bnz (x target : Nat)
  /-- `BZ x, L`. -/
  | bz (x target : Nat)
  /-- `EMIT x`. -/
  | emit (x : Nat)
  deriving DecidableEq, Repr

/-- The host: the number of its next statement, its variables (the latest value of each first), its output list (newest
first), the words it has read by their offset (the latest first), and how many of its reads went outside the window
(log 20). -/
structure HostState where
  position : Nat
  vars : List (Nat × Word)
  out : List Word
  lastReads : List (Nat × Word)
  foreignReads : Nat
  deriving DecidableEq, Repr

/-- A host and its block. -/
structure System where
  host : HostState
  block : State
  deriving DecidableEq, Repr

/-- What a turn of a host and its block can come to. -/
inductive SystemOutcome
  | next (y : System)
  /-- The host has executed its last statement. -/
  | ended
  /-- A statement reads a variable that nothing has assigned; R69 gives it no value (log 18). -/
  | unassigned (x : Nat)
  /-- An operand is the last word read at an offset that the host has not read; R70 gives it no value (log 18). -/
  | unread (off : Nat)
  /-- The block's step faulted. -/
  | fault (f : Fault)
  /-- The block's step was refused. -/
  | refused (r : Refusal)
  deriving DecidableEq, Repr

/-- The latest word of a key, if it has one. -/
def latest (entries : List (Nat × Word)) (k : Nat) : Option Word := (entries.find? (fun entry => entry.1 == k)).map Prod.snd

/-- The value of a host variable, if it has one. -/
def HostState.lookup (h : HostState) (x : Nat) : Option Word := latest h.vars x

/-- The host after `x <- v`. -/
def HostState.assign (h : HostState) (x : Nat) (v : Word) : HostState := { h with vars := (x, v) :: h.vars }

/-- The host at its next statement. -/
def HostState.advance (h : HostState) : HostState := { h with position := h.position + 1 }

/-- The host at the statement a label stands before. -/
def HostState.jump (h : HostState) (target : Nat) : HostState := { h with position := target }

/-- One access of the host, made now: one step of the machine (20_memory.md R43, 10_state.md R34). -/
def accessNow (x : Access) (s : State) : Host.Outcome State Fault Refusal := step { s with schedule := [.host x] }

/-- The word the last access returned. -/
def returned (s : State) : Word := s.busReads.headD 0x00000000#32

/-- After an access: the host goes on as `k` says, unless the block's step stopped. -/
def afterAccess (o : Host.Outcome State Fault Refusal) (k : State → HostState) : SystemOutcome :=
  match o with
  | .next t => .next ⟨k t, t⟩
  | .fault f => .fault f
  | .refused r => .refused r

/-- The word a read at `off` gives the host, `t` being the block after it: the word the block returned, or outside the
window a free value, since the spec defines no `BusRead` there (DESIGN CHOICE, log 20). -/
def wordRead (h : HostState) (off : Nat) (t : State) : Word :=
  if off < Config.windowBytes then returned t else Config.foreignWord h.foreignReads

/-- The host after `x <- BusRead(off)`, still at the same statement. -/
def HostState.receive (h : HostState) (off x : Nat) (t : State) : HostState :=
  { h.assign x (wordRead h off t) with
    lastReads := (off, wordRead h off t) :: h.lastReads
    foreignReads := if off < Config.windowBytes then h.foreignReads else h.foreignReads + 1 }

/-- With a host variable's value, if it has one. -/
def withVar (h : HostState) (x : Nat) (k : Word → SystemOutcome) : SystemOutcome :=
  match h.lookup x with
  | some v => k v
  | none => .unassigned x

/-- The value of a data operand, if it has one. -/
def HostOperand.valueIn (o : HostOperand) (h : HostState) : Option Word :=
  match o with
  | .word v => some v
  | .var x => h.lookup x
  | .lastRead off => latest h.lastReads off

/-- With a data operand's value, if it has one. -/
def withOperand (h : HostState) (o : HostOperand) (k : Word → SystemOutcome) : SystemOutcome :=
  match o with
  | .word v => k v
  | .var x => withVar h x k
  | .lastRead off =>
    match latest h.lastReads off with
    | some v => k v
    | none => .unread off

/-- One statement of the host (R69). `POLL` assigns each STATUS word it reads to `t`, and stays where it is until bit 0
of it is 0. -/
def hostStmt (stmt : HostStmt) (y : System) : SystemOutcome :=
  match stmt with
  | .w off v =>
    withOperand y.host v fun word => afterAccess (accessNow (accessW off word) y.block) fun _ => y.host.advance
  | .rd off x => afterAccess (accessNow (accessRD off) y.block) fun s => (y.host.receive off x s).advance
  | .poll t =>
    afterAccess (accessNow (accessRD 0x14) y.block) fun s =>
      let h := y.host.receive 0x14 t s
      if (returned s).getLsbD 0 then h else h.advance
  | .bnz x target =>
    withVar y.host x fun v => .next { y with host := if v ≠ 0 then y.host.jump target else y.host.advance }
  | .bz x target =>
    withVar y.host x fun v => .next { y with host := if v = 0 then y.host.jump target else y.host.advance }
  | .emit x => withVar y.host x fun v => .next { y with host := { y.host.advance with out := v :: y.host.out } }

/-- The host's turn in its program. -/
def hostTurn (prog : List HostStmt) (y : System) : SystemOutcome :=
  match prog[y.host.position]? with
  | some stmt => hostStmt stmt y
  | none => .ended

/-- The block's turn: its completion, if a command is in flight (10_state.md R33, R34). -/
def blockTurnNow (y : System) : SystemOutcome :=
  afterAccess (step { y.block with schedule := [.block] }) fun _ => y.host

/-- One turn of the system; `blocks` says whose (R34: either may come next). -/
def systemStep (prog : List HostStmt) (blocks : Bool) (y : System) : SystemOutcome :=
  if blocks then blockTurnNow y else hostTurn prog y

/-- Several turns of the system, stopping at the first that answers no next system. -/
def systemRun (prog : List HostStmt) : List Bool → System → SystemOutcome
  | [], y => .next y
  | blocks :: rest, y =>
    match systemStep prog blocks y with
    | .next z => systemRun prog rest z
    | .ended => .ended
    | .unassigned x => .unassigned x
    | .unread off => .unread off
    | .fault f => .fault f
    | .refused r => .refused r

/-- A program has ended when its last statement is executed and the block is idle (70_reset_and_hazards.md R232). -/
def System.programEnded (prog : List HostStmt) (y : System) : Bool :=
  decide (prog.length ≤ y.host.position) && !y.block.busy

/-- A host at the start of its program, and the block after reset (95_test_vectors.md part 3). -/
def System.start : System := ⟨⟨0, [], [], [], 0⟩, State.reset⟩

/-- The 64-bit operand forms of a command statement (R70). The three literals are ways to write a value. -/
inductive Operand
  | literal (v : Value)
  /-- `(xlo, xhi)`. -/
  | pair (xlo xhi : Nat)
  /-- `R`: the last values the host read from `R_LO` and `R_HI`. -/
  | lastR
  /-- `S`: the last values the host read from `S_LO` and `S_HI`. -/
  | lastS
  deriving DecidableEq, Repr

/-- A signed decimal literal `d`: `bits64(d)`, valid for `d` in [-2^63, 2^64 - 1] (R70). -/
def decimalLiteral (d : Int) : Option Operand :=
  if -2 ^ 63 ≤ d ∧ d ≤ 2 ^ 64 - 1 then some (.literal (bits64 d)) else none

/-- `m * 2^e` in units of `2^ulp`, if that is a whole number. -/
def inUnits (m : Nat) (e ulp : Int) : Option Nat :=
  if ulp ≤ e then some (m * 2 ^ (e - ulp).toNat)
  else if m % 2 ^ (ulp - e).toNat = 0 then some (m / 2 ^ (ulp - e).toNat) else none

/-- The binary64 pattern of the magnitude `m * 2^e`, `m` not 0, if it is a binary64 value: its highest bit stands for
`2^top`, and it must be a multiple of the last place of its binade, `2^-1074` at the least (47_convert.md R180). -/
def f64Magnitude (m : Nat) (e : Int) : Option Value :=
  let top : Int := e + bitLength m - 1
  if 1023 < top then none
  else if top < -1022 then (inUnits m e (-1074)).map (BitVec.ofNat 64)
  else (inUnits m e (top - 52)).map (packNormal (top + 1023).toNat)

/-- A binary64 literal `f64:x` for `x = (-1)^neg * m * 2^e` (R70). R70 does not say which `x` it admits: here `x` is a
finite binary64 value, so an infinity or a NaN has no `f64:` literal (its pattern is written in hexadecimal), and an `x`
that is no binary64 value is refused (DESIGN CHOICE, log 23). -/
def f64Literal (neg : Bool) (m : Nat) (e : Int) : Option Value :=
  let magnitude : Option Value := if m = 0 then some ZERO else f64Magnitude m e
  magnitude.map fun f => if neg then f64Negate f else f

/-- The low word of an operand (R70). -/
def Operand.low (o : Operand) : HostOperand :=
  match o with
  | .literal v => .word (lo v)
  | .pair xlo _ => .var xlo
  | .lastR => .lastRead 0x18
  | .lastS => .lastRead 0x20

/-- The high word of an operand (R70). -/
def Operand.high (o : Operand) : HostOperand :=
  match o with
  | .literal v => .word (hi v)
  | .pair _ xhi => .var xhi
  | .lastR => .lastRead 0x1C
  | .lastS => .lastRead 0x24

/-- The value of an operand, if both its words have one. -/
def Operand.valueIn (o : Operand) (h : HostState) : Option Value :=
  match o.high.valueIn h, o.low.valueIn h with
  | some vh, some vl => some (Sys2Proof.Machine.pair vh vl)
  | _, _ => none

/-- A command statement, as the statements it expands to; `t` is POLL's variable (R70). For a shift the count `n` is the
low word of `opB`. No write is omitted as redundant, which R70 allows (log 18). -/
def commandStatement (i : Instr) (opA opB : Operand) (t : Nat) : List HostStmt :=
  let operandA : List HostStmt := [.w 0x00 opA.low, .w 0x04 opA.high]
  let operandB : List HostStmt := match i.arity with
    | .one => []
    | .two => [.w 0x08 opB.low, .w 0x0C opB.high]
    | .shift => [.w 0x08 opB.low, .w 0x0C (.word 0x00000000#32)]
  let command : List HostStmt := [.w 0x10 (.word (encode i)), .poll t]
  operandA ++ operandB ++ command

/-- `GETR -> (xlo, xhi)` (R72). -/
def getR (xlo xhi : Nat) : List HostStmt := [.rd 0x18 xlo, .rd 0x1C xhi]
/-- `GETS -> (xlo, xhi)` (R72). -/
def getS (xlo xhi : Nat) : List HostStmt := [.rd 0x20 xlo, .rd 0x24 xhi]

/-- A boolean pseudo-instruction's statements; its result is `Predicate.result` of the variable `t` (R72). EQ, and NE "as
EQ", read STATUS into `t` once more. The rows of LTS to GEU write no such read: their `t` is POLL's (DEDUCED, log 21). -/
def Predicate.statements (p : Predicate) (opA opB : Operand) (t : Nat) : List HostStmt :=
  let result : List HostStmt := match p with
    | .eq | .ne => [.rd 0x14 t]
    | .lts | .ltu | .gts | .gtu | .les | .leu | .ges | .geu => []
  commandStatement p.command opA opB t ++ result

/-- `COMPARE a, b`: CMPS or CMPU, then GETR; its result is `compareValue` of the variables `xlo` and `xhi` (R72). -/
def compareStatements (signed : Bool) (opA opB : Operand) (t xlo xhi : Nat) : List HostStmt :=
  commandStatement (if signed then .cmps else .cmpu) opA opB t ++ getR xlo xhi

/-- `COMPARE`'s result `s(R)`, from the two words of `R` (R72). -/
def compareValue (rlo rhi : Word) : Int := sgn (pair rhi rlo)

/-- One round of a list fold: the command on `acc` and a list element, and `GETR -> acc` (R72). -/
def foldRound (i : Instr) (acc v : Operand) (t xlo xhi : Nat) : List HostStmt :=
  commandStatement i acc v t ++ getR xlo xhi

/-- The list forms of R72. -/
inductive ListFold
  | minSN | maxSN | minUN | maxUN
  deriving DecidableEq, Repr

/-- The command a list form repeats (R72). -/
def ListFold.command (f : ListFold) : Instr :=
  match f with
  | .minSN => .mins
  | .maxSN => .maxs
  | .minUN => .minu
  | .maxUN => .maxu

/-- The value `acc` begins with (R72). -/
def ListFold.seed (f : ListFold) : Value :=
  match f with
  | .minSN => MAX_S
  | .maxSN => MIN_S
  | .minUN => MAX_U
  | .maxUN => MIN_U

/-- A list form's result on values (R72). -/
def ListFold.result (f : ListFold) : List Value → Option Value :=
  match f with
  | .minSN => Sys2Proof.Machine.minSN
  | .maxSN => Sys2Proof.Machine.maxSN
  | .minUN => Sys2Proof.Machine.minUN
  | .maxUN => Sys2Proof.Machine.maxUN

/-- A list form's statements; `acc` is the variables `(xlo, xhi)` (R72). No bus statement assigns a literal to a variable,
so the first round takes the seed as its literal operand, as 95_test_vectors.md program P5 does. The empty list is
refused. -/
def ListFold.statements (f : ListFold) (vs : List Operand) (t xlo xhi : Nat) : Option (List HostStmt) :=
  match vs with
  | [] => none
  | v :: rest =>
    some (foldRound f.command (.literal f.seed) v t xlo xhi ++
      rest.flatMap fun w => foldRound f.command (.pair xlo xhi) w t xlo xhi)

end Sys2Proof.Machine
end

