-- ==== Sys2Proof/Machine/Timing.lean ====
section
/-! DEFINITION. The iteration counts of 70_reset_and_hazards.md R230. Informative: nothing in the step reads them, and
no rule depends on them (log 19). -/

namespace Sys2Proof.Machine

/-- How often 41_muldiv.md R110's loop goes round for the bit-tested operand `t`, at most `fuel` times. -/
def mulCount : Nat → Value → Nat
  | 0, _ => 0
  | fuel + 1, t => if t = ZERO then 0 else mulCount fuel (shr64 t 1) + 1

/-- The rounds of `mulU a b` (R110). -/
def mulIterationsU (a b : Value) : Nat := if 0 ≤ cmpU a b then mulCount 64 b else mulCount 64 a

/-- The rounds of MULS: on the two magnitudes, and 0 when an operand is zero (R230). -/
def mulIterationsS (a b : Value) : Nat :=
  if a = ZERO ∨ b = ZERO then 0 else mulIterationsU (magnitude a) (magnitude b)

/-- The rounds of `divremU a b` (R113, R230). For `b = ZERO` they are 0: R230's table does not name that case, and the
division commands raise before they call the divider (41_muldiv.md R114; DEDUCED, log 22). -/
def divIterationsU (a b : Value) : Nat :=
  if b = ZERO ∨ cmpU a b < 0 ∨ a = b then 0 else lzc64 b - lzc64 a + 1

/-- The rounds of `divremS a b`: on the magnitudes (R230); 0 for `b = ZERO` as well (log 22). -/
def divIterationsS (a b : Value) : Nat := divIterationsU (magnitude a) (magnitude b)

/-- R230's table; none for the commands it calls constant. -/
def iterations (i : Instr) (a b : Value) : Option Nat :=
  match i with
  | .mulu => some (mulIterationsU a b)
  | .muls => some (mulIterationsS a b)
  | .divu | .remu => some (divIterationsU a b)
  | .divs | .rems => some (divIterationsS a b)
  | .add | .sub | .neg | .abs | .and | .or | .xor | .not | .sll | .srl | .sra
  | .cmpu | .cmps | .minu | .mins | .maxu | .maxs | .lzc | .cvtfu | .cvtfs | .cvtuf | .cvtsf => none

end Sys2Proof.Machine
end

