-- ==== Sys2Proof/Safety.lean ====
section
/-! DEFINITION. What the statements call a legal state, a harmless access and a safe run. -/

namespace Sys2Proof.Machine

/-- 10_state.md R35's third invariant: no compare flag is set, or exactly one. -/
def flagsLegal (lt eq gt : Bool) : Bool := !(lt && eq) && !(lt && gt) && !(eq && gt)

/-- The three invariants of R35. The first holds by definition of `State.busy` (R25). -/
abbrev State.Inv (s : State) : Prop :=
  (s.busy = true ↔ s.pend.isSome = true) ∧ s.err ≠ 3#2 ∧ flagsLegal s.lt s.eq s.gt = true

/-- The route a host access takes. -/
def Access.route (x : Access) : Route :=
  match x with
  | .read addr size => Sys2Proof.Machine.route addr size
  | .write addr size _ => Sys2Proof.Machine.route addr size

/-- An access that 20_memory.md R42 defines, or that is not the block's at all (R40). -/
def Access.harmless (x : Access) : Prop := ∀ off, x.route ≠ .undefined off

/-- A write to the CMD register (R46). -/
def Access.isCmdWrite (x : Access) : Prop := ∃ v, x = .write (Config.base + 0x10) 4 v

/-- An event that can fault only if its access is undefined. -/
def Event.harmless (e : Event) : Prop :=
  match e with
  | .host x => x.harmless
  | .block => True
  | .reset => True

/-- An event that neither writes CMD nor resets the block. -/
def Event.passive (e : Event) : Prop :=
  match e with
  | .host x => x.harmless ∧ ¬ x.isCmdWrite
  | .block => True
  | .reset => False

/-- The block's turn has come: the schedule names it, or the host has nothing more to do (log 2). -/
def State.blockNext (s : State) : Prop := s.schedule = [] ∨ ∃ rest, s.schedule = .block :: rest

/-- `n` steps of the machine, stopping at the first fault or refusal: the host's `Core.run`, with the model's own types. -/
def runFor (n : Nat) (s : State) : Host.Outcome State Fault Refusal := Host.Core.run Sys2Proof.core n s

/-- `n` steps run without a fault and without a refusal. -/
def SafeFor (n : Nat) (s : State) : Prop := ∃ t, runFor n s = .next t

/-- The number a binary64 pattern stands for; none for NaN and the infinities (47_convert.md R180). -/
def f64Value (f : Value) : Option ℚ :=
  match f64Class f with
  | .nan => none
  | .inf _ => none
  | .finite neg m e => some ((if neg then -1 else 1) * (m : ℚ) * (2 : ℚ) ^ e)

/-- `f` is a binary64 pattern nearest to the integer `n`, and where another value is equally near, its fraction is even
(47_convert.md R184). -/
def NearestTiesToEven (f : Value) (n : Int) : Prop :=
  ∃ x, f64Value f = some x ∧
    ∀ g y, f64Value g = some y → |x - n| ≤ |y - n| ∧ (|x - n| = |y - n| → y ≠ x → f64Frac f % 2 = 0)

end Sys2Proof.Machine
end

