-- ==== Sys2Proof/Certificates/Slice0/Obligations.lean ====
section
/-! DEFINITION. The statements for the provers. Each says which rule of spec/ it formalises; every statement about a
command's effect is its completion statement and its frame in one equation: the next state is the old one with exactly
the named fields replaced. -/

open Sys2Proof Sys2Proof.Machine

/-! ## Reset, the decoder, and what a step runs -/

/-- 10_state.md R32. -/
def Obligations.ResetLeavesSpecValues : Prop :=
  State.reset.regA = 0x0000000000000000#64 ∧ State.reset.regB = 0x0000000000000000#64 ∧
  State.reset.regR = 0x0000000000000000#64 ∧ State.reset.regS = 0x0000000000000000#64 ∧
  State.reset.busy = false ∧ State.reset.err = 0#2 ∧
  State.reset.lt = false ∧ State.reset.eq = false ∧ State.reset.gt = false ∧
  State.reset.drop = false ∧ State.reset.pend = none

/-- Words written out from 30_encoding.md R60 and R63: `RSVD` in bits 31:8, `OPC` in bits 7:0. -/
def Obligations.SampleWordsDecodeAsMapped : Prop :=
  decode 0b00000000000000000000000000010001#32 = .command .sub ∧
  decode 0b00000000000000000000000000100011#32 = .command .divs ∧
  decode 0b00000000000000000000000000110001#32 = .command .abs ∧
  decode 0b00000000000000000000000001000010#32 = .command .xor ∧
  decode 0b00000000000000000000000001010010#32 = .command .sra ∧
  decode 0b00000000000000000000000001100001#32 = .command .cmps ∧
  decode 0b00000000000000000000000001110000#32 = .command .lzc ∧
  decode 0b00000000000000000000000010000011#32 = .command .cvtsf ∧
  decode 0b00000000000000000000000100010000#32 = .illegal (.reservedBits 1#24) ∧
  decode 0b00000000000000000000000000100110#32 = .illegal (.unassigned 0x26#8)

/-- 30_encoding.md R63's table: the 28 legal words, and no other word is a command. -/
def Obligations.OpcodeMapIsAsTabulated : Prop :=
  ∀ (c : Word) (i : Instr), decode c = .command i ↔ (c, i) ∈
    [(0x10#32, Instr.add), (0x11#32, .sub), (0x20#32, .mulu), (0x21#32, .muls), (0x22#32, .divu), (0x23#32, .divs),
     (0x24#32, .remu), (0x25#32, .rems), (0x30#32, .neg), (0x31#32, .abs), (0x40#32, .and), (0x41#32, .or),
     (0x42#32, .xor), (0x43#32, .not), (0x50#32, .sll), (0x51#32, .srl), (0x52#32, .sra), (0x60#32, .cmpu),
     (0x61#32, .cmps), (0x62#32, .minu), (0x63#32, .mins), (0x64#32, .maxu), (0x65#32, .maxs), (0x70#32, .lzc),
     (0x80#32, .cvtfu), (0x81#32, .cvtfs), (0x82#32, .cvtuf), (0x83#32, .cvtsf)]

/-- Decoding and encoding agree: every well-formed command decodes from its own word, and from no other
(30_encoding.md R60, R63). -/
def Obligations.DecodeAndEncodeAgree : Prop :=
  ∀ (i : Instr) (c : Word), i.wellFormed = true → (decode c = .command i ↔ c = encode i)

/-- 30_encoding.md R64: a word is illegal exactly when its reserved bits, its group or its function is on R64's list. -/
def Obligations.IllegalWordsAreThoseListed : Prop :=
  ∀ c : Word, (∃ why, decode c = .illegal why) ↔
    (c.toNat / 2 ^ 8 ≠ 0 ∨ c.toNat / 2 ^ 4 % 2 ^ 4 = 0 ∨ 9 ≤ c.toNat / 2 ^ 4 % 2 ^ 4 ∨
      (let opc := c.toNat % 2 ^ 8
       (0x12 ≤ opc ∧ opc ≤ 0x1F) ∨ (0x26 ≤ opc ∧ opc ≤ 0x2F) ∨ (0x32 ≤ opc ∧ opc ≤ 0x3F) ∨
       (0x44 ≤ opc ∧ opc ≤ 0x4F) ∨ (0x53 ≤ opc ∧ opc ≤ 0x5F) ∨ (0x66 ≤ opc ∧ opc ≤ 0x6F) ∨
       (0x71 ≤ opc ∧ opc ≤ 0x7F) ∨ (0x84 ≤ opc ∧ opc ≤ 0x8F)))

/-- The checks of WellFormed.lean, written from 30_encoding.md R64, accept exactly the words the decoder accepts. -/
def Obligations.WellFormedWordsAreThoseDecoded : Prop :=
  ∀ c : Word, commandWordLegal c = true ↔ ∃ i, decode c = .command i

/-- 10_state.md R33 with 30_encoding.md R66: when the block's turn has come and the word in flight decodes to a command,
the step is that command's meaning, in the state whose schedule has moved on (the schedule is the model's own, log 1). -/
def Obligations.StepRunsTheCommandInFlight : Prop :=
  (∀ (s : State) (p : Pending) (i : Instr), i.wellFormed = true → s.blockNext → s.pend = some p →
    decode p.cmd = .command i → step s = exec i { s with schedule := s.schedule.tail }) ∧
  (∀ (s : State) (nbits w : Nat) (i : Instr), decodeTableWord nbits w = some i →
    step (s.withFetchWord nbits w) = exec i { s with pend := some ⟨tableWord nbits w, s.regA, s.regB⟩ })

/-! ## The commands -/

/-- 40_add_sub.md R101. -/
def Obligations.AddWritesWrappedSum : Prop :=
  decode 0x00000010#32 = .command .add ∧
  ∀ (s : State) (p : Pending), s.pend = some p →
    exec .add s = .next { s with regR := bits64 ((u p.a : Int) + u p.b), err := 0#2, pend := none }

/-- 40_add_sub.md R103. -/
def Obligations.SubWritesWrappedDifference : Prop :=
  decode 0x00000011#32 = .command .sub ∧
  ∀ (s : State) (p : Pending), s.pend = some p →
    exec .sub s = .next { s with regR := bits64 ((u p.a : Int) - u p.b), err := 0#2, pend := none }

/-- 41_muldiv.md R111 and R112: the low 64 bits of the product of the unsigned readings, and of the signed ones. -/
def Obligations.MultipliesWriteTheLowProduct : Prop :=
  decode 0x00000020#32 = .command .mulu ∧ decode 0x00000021#32 = .command .muls ∧
  ∀ (s : State) (p : Pending), s.pend = some p →
    exec .mulu s = .next { s with regR := bits64 ((u p.a : Int) * u p.b), err := 0#2, pend := none } ∧
    exec .muls s = .next { s with regR := bits64 (sgn p.a * sgn p.b), err := 0#2, pend := none }

/-- 41_muldiv.md R114 and R115, with R113's postcondition: quotient and remainder of the unsigned readings; a zero
divisor writes `ERR = 1` and nothing else. -/
def Obligations.UnsignedDivisionIsExact : Prop :=
  decode 0x00000022#32 = .command .divu ∧ decode 0x00000024#32 = .command .remu ∧
  ∀ (s : State) (p : Pending), s.pend = some p →
    (p.b ≠ ZERO →
      exec .divu s = .next { s with
        regR := bits64 (u p.a / u p.b : Nat), regS := bits64 (u p.a % u p.b : Nat), err := 0#2, pend := none } ∧
      exec .remu s = .next { s with
        regR := bits64 (u p.a % u p.b : Nat), regS := bits64 (u p.a / u p.b : Nat), err := 0#2, pend := none }) ∧
    (p.b = ZERO →
      exec .divu s = .next { s with err := 1#2, pend := none } ∧
      exec .remu s = .next { s with err := 1#2, pend := none })

/-- 41_muldiv.md R117 and R118: the quotient truncated toward zero and the remainder with the dividend's sign, modulo
2^64 (so `MIN_S / -1` gives `MIN_S`); a zero divisor writes `ERR = 1` and nothing else. -/
def Obligations.SignedDivisionTruncates : Prop :=
  decode 0x00000023#32 = .command .divs ∧ decode 0x00000025#32 = .command .rems ∧
  ∀ (s : State) (p : Pending), s.pend = some p →
    (p.b ≠ ZERO →
      exec .divs s = .next { s with
        regR := bits64 ((sgn p.a).tdiv (sgn p.b)), regS := bits64 ((sgn p.a).tmod (sgn p.b)),
        err := 0#2, pend := none } ∧
      exec .rems s = .next { s with
        regR := bits64 ((sgn p.a).tmod (sgn p.b)), regS := bits64 ((sgn p.a).tdiv (sgn p.b)),
        err := 0#2, pend := none }) ∧
    (p.b = ZERO →
      exec .divs s = .next { s with err := 1#2, pend := none } ∧
      exec .rems s = .next { s with err := 1#2, pend := none })

/-- 60_exceptions.md R201: the four division commands with a zero divisor, and only they, complete with `ERR = 1`, and
then write nothing else; MULU and MULS never do, whatever their operands. -/
def Obligations.OnlyDivisionReportsAZeroDivisor : Prop :=
  ∀ (s : State) (p : Pending) (i : Instr), s.pend = some p →
    ∃ t, exec i s = .next t ∧
      (t.err = 1#2 ↔ (i = .divu ∨ i = .divs ∨ i = .remu ∨ i = .rems) ∧ p.b = ZERO) ∧
      (t.err = 1#2 → t = { s with err := 1#2, pend := none })

/-- 41_muldiv.md R120 (the spec marks its results as derived from R110, R113 and R116): the most negative value. -/
def Obligations.MostNegativeValueWraps : Prop :=
  neg64 MIN_S = MIN_S ∧
  ∀ (s : State) (c : Word),
    exec .divs { s with pend := some ⟨c, MIN_S, bits64 (-1)⟩ } =
      .next { s with regR := MIN_S, regS := ZERO, err := 0#2, pend := none } ∧
    exec .divs { s with pend := some ⟨c, MIN_S, bits64 3⟩ } =
      .next { s with regR := 0xD555555555555556#64, regS := bits64 (-2), err := 0#2, pend := none } ∧
    exec .divs { s with pend := some ⟨c, MIN_S, MIN_S⟩ } =
      .next { s with regR := ONE, regS := ZERO, err := 0#2, pend := none } ∧
    exec .muls { s with pend := some ⟨c, MIN_S, bits64 (-1)⟩ } =
      .next { s with regR := MIN_S, err := 0#2, pend := none } ∧
    ∀ b : Value, b ≠ MIN_S →
      exec .rems { s with pend := some ⟨c, b, MIN_S⟩ } =
        .next { s with regR := b, regS := ZERO, err := 0#2, pend := none }

/-- 42_sign.md R131 and R132. `|s(MIN_S)| = 2^63` has the pattern `MIN_S`. -/
def Obligations.NegAndAbsWriteSignResults : Prop :=
  decode 0x00000030#32 = .command .neg ∧ decode 0x00000031#32 = .command .abs ∧
  ∀ (s : State) (p : Pending), s.pend = some p →
    exec .neg s = .next { s with regR := bits64 (-(u p.a : Int)), err := 0#2, pend := none } ∧
    exec .abs s = .next { s with regR := bits64 |sgn p.a|, err := 0#2, pend := none }

/-- 43_bitwise.md R140 to R143, bit by bit. -/
def Obligations.BitwiseCommandsActBitByBit : Prop :=
  decode 0x00000040#32 = .command .and ∧ decode 0x00000041#32 = .command .or ∧
  decode 0x00000042#32 = .command .xor ∧ decode 0x00000043#32 = .command .not ∧
  ∀ (s : State) (p : Pending), s.pend = some p →
    ∃ vAnd vOr vXor vNot : Value,
      exec .and s = .next { s with regR := vAnd, err := 0#2, pend := none } ∧
      exec .or s = .next { s with regR := vOr, err := 0#2, pend := none } ∧
      exec .xor s = .next { s with regR := vXor, err := 0#2, pend := none } ∧
      exec .not s = .next { s with regR := vNot, err := 0#2, pend := none } ∧
      (∀ k, k < 64 →
        vAnd.getLsbD k = (p.a.getLsbD k && p.b.getLsbD k) ∧
        vOr.getLsbD k = (p.a.getLsbD k || p.b.getLsbD k) ∧
        vXor.getLsbD k = (p.a.getLsbD k ^^ p.b.getLsbD k) ∧
        vNot.getLsbD k = !p.a.getLsbD k) ∧
      vNot = bits64 (2 ^ 64 - 1 - u p.a)

/-- 44_shift.md R151 and R152: the count is `u(b) mod 64`; bits shifted out are lost and zeros come in. -/
def Obligations.LogicalShiftsMoveByTheCountModSixtyFour : Prop :=
  decode 0x00000050#32 = .command .sll ∧ decode 0x00000051#32 = .command .srl ∧
  ∀ (s : State) (p : Pending), s.pend = some p →
    exec .sll s = .next { s with regR := bits64 (u p.a * 2 ^ (u p.b % 64) : Nat), err := 0#2, pend := none } ∧
    exec .srl s = .next { s with regR := bits64 (u p.a / 2 ^ (u p.b % 64) : Nat), err := 0#2, pend := none }

/-- 44_shift.md R153, in the form the spec derives from its pseudocode: the quotient by `2^n`, rounded toward minus
infinity; bit by bit, the sign comes in from the left. -/
def Obligations.ArithmeticShiftFillsWithTheSign : Prop :=
  decode 0x00000052#32 = .command .sra ∧
  ∀ (s : State) (p : Pending), s.pend = some p →
    ∃ v : Value,
      exec .sra s = .next { s with regR := v, err := 0#2, pend := none } ∧
      v = bits64 (sgn p.a / 2 ^ (u p.b % 64)) ∧
      ∀ k, k < 64 → v.getLsbD k = if k + u p.b % 64 < 64 then p.a.getLsbD (k + u p.b % 64) else p.a.getLsbD 63

/-- 45_compare.md R161 and R162: -1, 0 or 1 in `R`, and exactly one flag. -/
def Obligations.ComparesWriteResultAndFlags : Prop :=
  decode 0x00000060#32 = .command .cmpu ∧ decode 0x00000061#32 = .command .cmps ∧
  ∀ (s : State) (p : Pending), s.pend = some p →
    exec .cmpu s = .next { s with
      regR := if u p.a < u p.b then 0xFFFFFFFFFFFFFFFF#64 else if u p.a = u p.b then 0#64 else 1#64,
      lt := decide (u p.a < u p.b), eq := decide (u p.a = u p.b), gt := decide (u p.b < u p.a),
      err := 0#2, pend := none } ∧
    exec .cmps s = .next { s with
      regR := if sgn p.a < sgn p.b then 0xFFFFFFFFFFFFFFFF#64 else if sgn p.a = sgn p.b then 0#64 else 1#64,
      lt := decide (sgn p.a < sgn p.b), eq := decide (sgn p.a = sgn p.b), gt := decide (sgn p.b < sgn p.a),
      err := 0#2, pend := none }

/-- 45_compare.md R163 to R166; no compare flag is written. -/
def Obligations.MinAndMaxSelectAnOperand : Prop :=
  decode 0x00000062#32 = .command .minu ∧ decode 0x00000063#32 = .command .mins ∧
  decode 0x00000064#32 = .command .maxu ∧ decode 0x00000065#32 = .command .maxs ∧
  ∀ (s : State) (p : Pending), s.pend = some p →
    exec .minu s = .next { s with regR := if u p.a ≤ u p.b then p.a else p.b, err := 0#2, pend := none } ∧
    exec .mins s = .next { s with regR := if sgn p.a ≤ sgn p.b then p.a else p.b, err := 0#2, pend := none } ∧
    exec .maxu s = .next { s with regR := if u p.b ≤ u p.a then p.a else p.b, err := 0#2, pend := none } ∧
    exec .maxs s = .next { s with regR := if sgn p.b ≤ sgn p.a then p.a else p.b, err := 0#2, pend := none }

/-- 46_count.md R171, with R170's "number of most-significant zero bits before the first set bit, 0-64". -/
def Obligations.LzcCountsLeadingZeros : Prop :=
  decode 0x00000070#32 = .command .lzc ∧
  ∀ (s : State) (p : Pending), s.pend = some p →
    ∃ n : Nat, n ≤ 64 ∧
      exec .lzc s = .next { s with regR := bits64 n, err := 0#2, pend := none } ∧
      (∀ k, 64 - n ≤ k → k < 64 → p.a.getLsbD k = false) ∧
      (n < 64 → p.a.getLsbD (63 - n) = true)

/-- 47_convert.md R181 to R183: NaN and the infinities give 0; every other value is truncated toward zero and reduced
modulo 2^64. -/
def Obligations.ConversionsToIntegerTruncate : Prop :=
  decode 0x00000080#32 = .command .cvtfu ∧ decode 0x00000081#32 = .command .cvtfs ∧
  ∀ (s : State) (p : Pending), s.pend = some p →
    ∃ v : Value,
      exec .cvtfu s = .next { s with regR := v, err := 0#2, pend := none } ∧
      exec .cvtfs s = .next { s with regR := v, err := 0#2, pend := none } ∧
      (f64Value p.a = none → v = ZERO) ∧
      (∀ x, f64Value p.a = some x → v = bits64 (if 0 ≤ x then ⌊x⌋ else -⌊-x⌋))

/-- 47_convert.md R185 and R186, with R184's rounding: the nearest binary64 value, ties to even; 0 gives +0.0. -/
def Obligations.ConversionsFromIntegerRoundToNearest : Prop :=
  decode 0x00000082#32 = .command .cvtuf ∧ decode 0x00000083#32 = .command .cvtsf ∧
  ∀ (s : State) (p : Pending), s.pend = some p →
    ∃ vu vs : Value,
      exec .cvtuf s = .next { s with regR := vu, err := 0#2, pend := none } ∧
      exec .cvtsf s = .next { s with regR := vs, err := 0#2, pend := none } ∧
      NearestTiesToEven vu (u p.a) ∧ NearestTiesToEven vs (sgn p.a) ∧
      (p.a = ZERO → vu = ZERO ∧ vs = ZERO)

/-! ## Rules over all commands -/

/-- 30_encoding.md R68: what each command's completion writes and what it leaves. -/
def Obligations.ResultRoutingIsAsListed : Prop :=
  ∀ (i : Instr) (s : State) (p : Pending), s.pend = some p →
    ∃ t, exec i s = .next t ∧ t.pend = none ∧
      t.regA = s.regA ∧ t.regB = s.regB ∧ t.drop = s.drop ∧ t.schedule = s.schedule ∧ t.busReads = s.busReads ∧
      (t.err ≠ 0#2 → t.regR = s.regR ∧ t.regS = s.regS ∧ t.lt = s.lt ∧ t.eq = s.eq ∧ t.gt = s.gt) ∧
      (i ≠ .divu ∧ i ≠ .divs ∧ i ≠ .remu ∧ i ≠ .rems → t.err = 0#2 ∧ t.regS = s.regS) ∧
      (i ≠ .cmpu ∧ i ≠ .cmps → t.lt = s.lt ∧ t.eq = s.eq ∧ t.gt = s.gt) ∧
      (t.err = 0#2 → ∃ v : Value, ∀ (s' t' : State), s'.pend = some p → exec i s' = .next t' → t'.regR = v)

/-- 30_encoding.md R67: a command reads its latched operands and nothing else. -/
def Obligations.ResultDependsOnlyOnLatchedOperands : Prop :=
  ∀ (i : Instr) (s s' : State) (p : Pending), s.pend = some p → s'.pend = some p →
    ∃ t t', exec i s = .next t ∧ exec i s' = .next t' ∧ t.err = t'.err ∧
      (t.err = 0#2 → t.regR = t'.regR) ∧
      (t.regS = t'.regS ∨ (t.regS = s.regS ∧ t'.regS = s'.regS)) ∧
      ((t.lt = t'.lt ∧ t.eq = t'.eq ∧ t.gt = t'.gt) ∨
        (t.lt = s.lt ∧ t.eq = s.eq ∧ t.gt = s.gt ∧ t'.lt = s'.lt ∧ t'.eq = s'.eq ∧ t'.gt = s'.gt))

/-- 30_encoding.md R62: a one-operand command ignores `b` entirely, and a shift ignores `b[63:6]`. -/
def Obligations.UnreadOperandBitsAreIgnored : Prop :=
  ∀ (i : Instr) (s : State) (c : Word) (a b b' : Value),
    i.arity = .one ∨ (i.arity = .shift ∧ u b % 64 = u b' % 64) →
    exec i { s with pend := some ⟨c, a, b⟩ } = exec i { s with pend := some ⟨c, a, b'⟩ }

/-- 60_exceptions.md R202: a word that is none of the 28 completes with `ERR = 2` and writes nothing else. -/
def Obligations.IllegalCommandReportsErrTwo : Prop :=
  ∀ (s : State) (p : Pending), s.blockNext → s.pend = some p → (∀ i, p.cmd ≠ encode i) →
    step s = .next { s with err := 2#2, pend := none, schedule := s.schedule.tail }

/-- 60_exceptions.md R207's three priorities: the word is looked at before the operands. -/
def Obligations.ErrorCodeFollowsThePriorities : Prop :=
  ∀ (s : State) (p : Pending), s.blockNext → s.pend = some p →
    ∃ t, step s = .next t ∧ t.drop = s.drop ∧
      ((∀ i, p.cmd ≠ encode i) → t.err = 2#2) ∧
      ((p.cmd = 0x22#32 ∨ p.cmd = 0x23#32 ∨ p.cmd = 0x24#32 ∨ p.cmd = 0x25#32) → p.b = ZERO → t.err = 1#2) ∧
      (∀ i, p.cmd = encode i → (i ≠ .divu ∧ i ≠ .divs ∧ i ≠ .remu ∧ i ≠ .rems) ∨ p.b ≠ ZERO → t.err = 0#2)

/-! ## The register window -/

/-- The word 20_memory.md R44 gives for each offset, with R41's places of the STATUS fields. -/
def Sys2Proof.Machine.windowWord (s : State) (off : Nat) : Word :=
  match off with
  | 0x00 => BitVec.ofNat 32 (u s.regA % 2 ^ 32)
  | 0x04 => BitVec.ofNat 32 (u s.regA / 2 ^ 32)
  | 0x08 => BitVec.ofNat 32 (u s.regB % 2 ^ 32)
  | 0x0C => BitVec.ofNat 32 (u s.regB / 2 ^ 32)
  | 0x14 => BitVec.ofNat 32 (s.pend.isSome.toNat + 2 * s.err.toNat + 8 * s.lt.toNat + 16 * s.eq.toNat +
      32 * s.gt.toNat + 64 * s.drop.toNat)
  | 0x18 => BitVec.ofNat 32 (u s.regR % 2 ^ 32)
  | 0x1C => BitVec.ofNat 32 (u s.regR / 2 ^ 32)
  | 0x20 => BitVec.ofNat 32 (u s.regS % 2 ^ 32)
  | 0x24 => BitVec.ofNat 32 (u s.regS / 2 ^ 32)
  | _ => 0x00000000#32

/-- 20_memory.md R44: a read returns the register's word (to `busReads`, the model's own, log 3) and changes no state. -/
def Obligations.WindowReadsReturnTheRegisters : Prop :=
  ∀ (s : State) (off : Nat) (rest : List Event), off % 4 = 0 → off < 0x40 →
    s.schedule = .host (.read (Config.base + off) 4) :: rest →
    step s = .next { s with schedule := rest, busReads := windowWord s off :: s.busReads }

/-- 20_memory.md R45: the four operand halves are replaced; every other offset but CMD ignores the write. -/
def Obligations.WindowWritesReplaceOneHalf : Prop :=
  ∀ (s : State) (off : Nat) (v : Word) (rest : List Event), off % 4 = 0 → off < 0x40 → off ≠ 0x10 →
    s.schedule = .host (.write (Config.base + off) 4 v) :: rest →
    step s = .next { s with
      schedule := rest,
      regA := if off = 0x00 then bits64 ((u s.regA / 2 ^ 32 * 2 ^ 32 + v.toNat : Nat))
        else if off = 0x04 then bits64 ((v.toNat * 2 ^ 32 + u s.regA % 2 ^ 32 : Nat)) else s.regA,
      regB := if off = 0x08 then bits64 ((u s.regB / 2 ^ 32 * 2 ^ 32 + v.toNat : Nat))
        else if off = 0x0C then bits64 ((v.toNat * 2 ^ 32 + u s.regB % 2 ^ 32 : Nat)) else s.regB }

/-- 10_state.md R21 and R22, 20_memory.md R51: a read of a half of `A` or `B` returns the latest write to it, whatever
other accesses of defined kinds and turns of the block lie between, as long as none writes that half or resets. -/
def Obligations.ReadBackReturnsTheLatestWrite : Prop :=
  ∀ (s : State) (off : Nat) (v : Word) (mid rest : List Event),
    (off = 0x00 ∨ off = 0x04 ∨ off = 0x08 ∨ off = 0x0C) →
    (∀ e ∈ mid, e.harmless ∧ e ≠ .reset ∧ ∀ v', e ≠ .host (accessW off v')) →
    s.schedule = .host (accessW off v) :: (mid ++ .host (accessRD off) :: rest) →
    ∃ t, runFor (mid.length + 2) s = .next t ∧ t.schedule = rest ∧ t.busReads.head? = some v

/-- 20_memory.md R46: a CMD write is accepted when nothing is in flight, whatever the word, and dropped otherwise; it
is the only way to start a command, with the operands of that moment. -/
def Obligations.CmdWriteAcceptsOrDrops : Prop :=
  (∀ (s : State) (v : Word) (rest : List Event), s.schedule = .host (.write (Config.base + 0x10) 4 v) :: rest →
    (s.pend = none → step s = .next { s with schedule := rest, pend := some ⟨v, s.regA, s.regB⟩, drop := false }) ∧
    (s.pend ≠ none → step s = .next { s with schedule := rest, drop := true })) ∧
  ∀ (s t : State) (p : Pending), step s = .next t → t.pend = some p → s.pend ≠ some p →
    s.pend = none ∧ p.a = s.regA ∧ p.b = s.regB ∧
      ∃ rest, s.schedule = .host (.write (Config.base + 0x10) 4 p.cmd) :: rest

/-- 60_exceptions.md R205: an access to the window that is not an aligned 32-bit one faults, with its offset and size. -/
def Obligations.UndefinedAccessFaults : Prop :=
  ∀ (s : State) (off size : Nat) (v : Word) (rest : List Event), off < 0x40 → (size ≠ 4 ∨ off % 4 ≠ 0) →
    (s.schedule = .host (.read (Config.base + off) size) :: rest → step s = .fault (.busAccessFault off size)) ∧
    (s.schedule = .host (.write (Config.base + off) size v) :: rest → step s = .fault (.busAccessFault off size))

/-- The model's reading (DEDUCED, log 5) of 20_memory.md R40: an access with no byte in `[BASE, BASE + 0x3F]` is not the
block's and changes nothing of it. -/
def Obligations.AccessOutsideTheWindowChangesNothing : Prop :=
  ∀ (s : State) (addr size : Nat) (v : Word) (rest : List Event), 0 < size →
    (addr + size ≤ Config.base ∨ Config.base + 0x40 ≤ addr) →
    (s.schedule = .host (.read addr size) :: rest → step s = .next { s with schedule := rest }) ∧
    (s.schedule = .host (.write addr size v) :: rest → step s = .next { s with schedule := rest })

/-! ## The whole machine -/

/-- 10_state.md R35's invariants are kept by every step, whoever takes it. -/
def Obligations.LegalStateIsKeptByEveryStep : Prop :=
  ∀ s t : State, s.Inv → step s = .next t → t.Inv

/-- 10_state.md R35's invariants hold after reset. -/
def Obligations.ResetStateIsLegal : Prop := State.reset.Inv

/-- 10_state.md R26 and R27, 20_memory.md R49: between a completion and the next one, results, error code and flags
stand still (a reset apart). -/
def Obligations.ResultsChangeOnlyAtCompletionOrReset : Prop :=
  ∀ s t : State, step s = .next t →
    (t.regR ≠ s.regR ∨ t.regS ≠ s.regS ∨ t.err ≠ s.err ∨ t.lt ≠ s.lt ∨ t.eq ≠ s.eq ∨ t.gt ≠ s.gt) →
    (s.blockNext ∧ s.pend ≠ none ∧ t.pend = none) ∨ ∃ rest, s.schedule = .reset :: rest

/-- 10_state.md R28: a CMD write sets `DROP` while busy and clears it when accepted; nothing else but a reset changes it. -/
def Obligations.DropFollowsCmdWrites : Prop :=
  ∀ s t : State, step s = .next t →
    (∀ x rest, s.schedule = .host x :: rest → x.isCmdWrite → t.drop = s.busy) ∧
    (∀ rest, s.schedule = .reset :: rest → t.drop = false) ∧
    ((∀ x rest, s.schedule = .host x :: rest → ¬ x.isCmdWrite) → (∀ rest, s.schedule ≠ .reset :: rest) →
      t.drop = s.drop)

/-- 10_state.md R21 and R22: no command writes `A` or `B`; a step changes one of them only by a host write to one of its
halves, or by a reset. -/
def Obligations.OperandsChangeOnlyByHostWrites : Prop :=
  ∀ s t : State, step s = .next t →
    (t.regA ≠ s.regA → (∃ off v rest, (off = 0x00 ∨ off = 0x04) ∧
      s.schedule = .host (.write (Config.base + off) 4 v) :: rest) ∨ ∃ rest, s.schedule = .reset :: rest) ∧
    (t.regB ≠ s.regB → (∃ off v rest, (off = 0x08 ∨ off = 0x0C) ∧
      s.schedule = .host (.write (Config.base + off) 4 v) :: rest) ∨ ∃ rest, s.schedule = .reset :: rest)

/-- 10_state.md R32 and 70_reset_and_hazards.md R221: reset gives every item of state its reset value, whatever the
state; the command in flight is gone (what is to come and what was read are the model's own and stay, log 10). -/
def Obligations.ResetSetsEveryItem : Prop :=
  ∀ (s : State) (rest : List Event), s.schedule = .reset :: rest →
    step s = .next {
      regA := 0#64, regB := 0#64, regR := 0#64, regS := 0#64, err := 0#2,
      lt := false, eq := false, gt := false, drop := false, pend := none,
      schedule := rest, busReads := s.busReads }

/-- 70_reset_and_hazards.md R227: a write to `A` or `B` before the completion or after it, the outcome is the same. -/
def Obligations.OperandWriteCommutesWithCompletion : Prop :=
  ∀ (s : State) (p : Pending) (off : Nat) (v : Word) (rest : List Event), s.pend = some p →
    (off = 0x00 ∨ off = 0x04 ∨ off = 0x08 ∨ off = 0x0C) →
    ∃ t, runFor 2
        { s with schedule := .host (.write (Config.base + off) 4 v) :: .block :: rest } = .next t ∧
      runFor 2
        { s with schedule := .block :: .host (.write (Config.base + off) 4 v) :: rest } = .next t

/-- 10_state.md R33 and R34, 70_reset_and_hazards.md R229: wherever the completion falls among the host's reads and
operand writes, the command in flight completes, with the results it would have had at once. That it completes at the
latest after the last of them is the model's form of fairness (log 2). -/
def Obligations.EveryInterleavingCompletesAlike : Prop :=
  ∀ (s : State) (p : Pending), s.pend = some p → (∀ e ∈ s.schedule, e.passive) →
    ∃ t c, runFor (s.schedule.length + 1) s = .next t ∧
      step { s with schedule := [] } = .next c ∧
      t.pend = none ∧ t.schedule = [] ∧ t.regR = c.regR ∧ t.regS = c.regS ∧ t.err = c.err ∧
      t.lt = c.lt ∧ t.eq = c.eq ∧ t.gt = c.gt ∧ t.drop = s.drop

/-- 20_memory.md R49 (the spec marks it as derived): reads of `R_LO` and `R_HI` with no accepted command between them,
while idle, return the halves of one value. -/
def Obligations.HalvesReadWhileIdleBelongTogether : Prop :=
  ∀ (s : State) (mid : List Event), s.pend = none → (∀ e ∈ mid, e.passive) →
    s.schedule = .host (accessRD 0x18) :: (mid ++ [.host (accessRD 0x1C)]) →
    ∃ t between, runFor (mid.length + 2) s = .next t ∧
      t.busReads = hi s.regR :: (between ++ lo s.regR :: s.busReads) ∧ t.regR = s.regR

/-- 60_exceptions.md R214: while nothing is in flight the block's turn changes nothing. -/
def Obligations.IdleBlockKeepsItsState : Prop :=
  ∀ s : State, s.blockNext → s.pend = none → step s = .next { s with schedule := s.schedule.tail }

/-- A step stops only by the one fault of 60_exceptions.md R205; it never refuses, and `noCommandInFlight` (log 8) does
not occur. -/
def Obligations.StepStopsOnlyOnUndefinedAccess : Prop :=
  ∀ s : State,
    (∃ t, step s = .next t) ∨
    ∃ x rest off size, s.schedule = .host x :: rest ∧ x.route = .undefined off ∧
      step s = .fault (.busAccessFault off size)

/-- While the host makes only accesses that 20_memory.md R42 defines (or that are not the block's), no run stops. -/
def Obligations.HarmlessSchedulesRunForever : Prop :=
  ∀ (n : Nat) (s : State), (∀ e ∈ s.schedule, e.harmless) → SafeFor n s

/-! ## Laws the spec states for its operations -/

/-- 40_add_sub.md R104. -/
def Obligations.SubtractionUndoesAddition : Prop :=
  ∀ a b : Value, sub64 (add64 a b) b = a ∧ add64 a b = add64 b a ∧ sub64 a b = add64 a (neg64 b)

/-- 41_muldiv.md R121 (the spec marks it as derived), and 42_sign.md R131's involution. -/
def Obligations.MultiplicationLawsHold : Prop :=
  ∀ a b : Value, mulU a b = mulU b a ∧ mulS a b = mulU a b ∧ mulU a ZERO = ZERO ∧ mulS a ZERO = ZERO ∧
    neg64 (neg64 a) = a

/-- 41_muldiv.md R119 (the spec marks it as derived): the division identity, unsigned and signed. -/
def Obligations.DivisionIdentityHolds : Prop :=
  ∀ a b : Value, b ≠ ZERO →
    a = add64 (mulU (divremU a b).1 b) (divremU a b).2 ∧
    a = add64 (mulU (divremS a b).1 b) (divremS a b).2 ∧
    u (divremU a b).2 < u b ∧
    ((divremS a b).2 = ZERO ∨ signBit (divremS a b).2 = signBit a) ∧
    (sgn (divremS a b).2).natAbs < (sgn b).natAbs

/-- 44_shift.md R154 (the spec marks it as derived). -/
def Obligations.ShiftsAreMultiplicationAndDivision : Prop :=
  ∀ (a : Value) (n : Nat), n < 64 →
    shl64 a n = mulU a (shl64 ONE n) ∧ shr64 a n = (divremU a (shl64 ONE n)).1 ∧
    (signBit a = false → sra64 a n = shr64 a n) ∧ shl64 a 0 = a ∧ shr64 a 0 = a ∧ sra64 a 0 = a

/-- 30_encoding.md R72 and 45_compare.md R167: the boolean pseudo-instructions read off STATUS, after their compare, what
they are named for. -/
def Obligations.PredicatesReadTheCompareFlags : Prop :=
  ∀ (s : State) (p : Pending) (q : Predicate), s.pend = some p →
    ∃ t, exec q.command s = .next t ∧
      q.result (statusWord t) = match q with
        | .eq => decide (p.a = p.b)
        | .ne => decide (p.a ≠ p.b)
        | .lts => decide (sgn p.a < sgn p.b)
        | .ltu => decide (u p.a < u p.b)
        | .gts => decide (sgn p.b < sgn p.a)
        | .gtu => decide (u p.b < u p.a)
        | .les => decide (sgn p.a ≤ sgn p.b)
        | .leu => decide (u p.a ≤ u p.b)
        | .ges => decide (sgn p.b ≤ sgn p.a)
        | .geu => decide (u p.b ≤ u p.a)

/-- 30_encoding.md R72: the list folds give an extreme element of a non-empty list, and refuse the empty one. -/
def Obligations.ListFoldsFindTheExtreme : Prop :=
  (minSN [] = none ∧ maxSN [] = none ∧ minUN [] = none ∧ maxUN [] = none) ∧
  ∀ vs : List Value, vs ≠ [] →
    (∃ m ∈ vs, minSN vs = some m ∧ ∀ v ∈ vs, sgn m ≤ sgn v) ∧
    (∃ m ∈ vs, maxSN vs = some m ∧ ∀ v ∈ vs, sgn v ≤ sgn m) ∧
    (∃ m ∈ vs, minUN vs = some m ∧ ∀ v ∈ vs, u m ≤ u v) ∧
    (∃ m ∈ vs, maxUN vs = some m ∧ ∀ v ∈ vs, u v ≤ u m)

/-- 30_encoding.md R72: `FMT10` is exact (log 18: strings are digit lists here). -/
def Obligations.DecimalFormattingIsExact : Prop :=
  ∀ v : Value,
    (∀ d ∈ (fmt10U v).digits, d < 10) ∧ (fmt10U v).digits.foldl (fun n d => 10 * n + d) 0 = u v ∧
    (fmt10U v).minus = false ∧
    (∀ d ∈ (fmt10S v).digits, d < 10) ∧
    (if (fmt10S v).minus then -1 else 1) * (((fmt10S v).digits.foldl (fun n d => 10 * n + d) 0 : Nat) : Int) = sgn v ∧
    ((fmt10U v).digits.head? = some 0 → v = ZERO)

/-- 30_encoding.md R70: the writes of a command statement, made to an idle block, end with the command's result on the
operands written. For a one-operand command `B` keeps its value; for a shift it holds the count, one data word. -/
def Obligations.CommandStatementRunsItsCommand : Prop :=
  ∀ (s : State) (i : Instr) (a b : Value), s.pend = none →
    let b' : Value := match i.arity with
      | .one => s.regB
      | .two => b
      | .shift => bits64 (u b % 2 ^ 32 : Nat)
    ∃ t c, runFor ((commandAccesses i a b).length + 1)
        { s with schedule := (commandAccesses i a b).map Event.host } = .next t ∧
      exec i { s with pend := some ⟨encode i, a, b⟩ } = .next c ∧
      t = { c with regA := a, regB := b', drop := false, schedule := [] }

/-- 30_encoding.md R69 and 70_reset_and_hazards.md R225: `POLL` reads STATUS into `t` and stays while a command is in
flight; it goes on when none is. It changes nothing of the block but the words read (the model's own, log 3; its schedule
is spent, log 1). -/
def Obligations.PollWaitsForTheCompletion : Prop :=
  ∀ (y : System) (t : Nat), ∃ z, hostStmt (.poll t) y = .next z ∧
    z.host.position = (if y.block.busy then y.host.position else y.host.position + 1) ∧
    z.host.lookup t = some (windowWord y.block 0x14) ∧ (∀ x, x ≠ t → z.host.lookup x = y.host.lookup x) ∧
    z.host.out = y.host.out ∧
    z.block = { y.block with schedule := [], busReads := windowWord y.block 0x14 :: y.block.busReads }

/-- 70_reset_and_hazards.md R230 (informative, derived): the multiplier's loop goes round once per bit of the smaller
operand, the divider's at most 64 times. -/
def Obligations.IterationCountsAreBounded : Prop :=
  ∀ a b : Value,
    mulIterationsU a b = bitLength (min (u a) (u b)) ∧ mulIterationsU a b ≤ 64 ∧
    (b ≠ ZERO → divIterationsU a b ≤ 64) ∧
    (b ≠ ZERO → (divIterationsU a b = 0 ↔ u a < u b ∨ a = b))

/-- 30_encoding.md R70, with any operands that have a value: a host at a command statement of its program, with the block
idle and its turn coming before the last POLL, comes to the next statement with the command's result in the block, the
operand in `A`, and the STATUS word in POLL's variable. -/
def Obligations.HostRunsACommandStatement : Prop :=
  ∀ (before after : List HostStmt) (y : System) (i : Instr) (opA opB : Operand) (a b : Value) (t : Nat),
    y.host.position = before.length → y.block.pend = none → opA.valueIn y.host = some a →
    (i.arity = .one ∨ opB.valueIn y.host = some b) →
    let stmts := commandStatement i opA opB t
    ∃ z c, systemRun (before ++ stmts ++ after) (List.replicate (stmts.length - 1) false ++ [true, false]) y = .next z ∧
      exec i { y.block with pend := some ⟨encode i, a, b⟩ } = .next c ∧
      z.host.position = before.length + stmts.length ∧ z.host.lookup t = some (statusWord z.block) ∧
      z.block.regA = a ∧ z.block.pend = none ∧ z.block.drop = false ∧
      z.block.regR = c.regR ∧ z.block.regS = c.regS ∧ z.block.err = c.err ∧
      z.block.lt = c.lt ∧ z.block.eq = c.eq ∧ z.block.gt = c.gt

/-- An operand whose value a run that assigns the variables `xs` and reads `R` leaves as it is. -/
def Sys2Proof.Machine.Operand.keptThrough (o : Operand) (xs : List Nat) : Prop :=
  match o with
  | .literal _ => True
  | .pair xlo xhi => xlo ∉ xs ∧ xhi ∉ xs
  | .lastR => False
  | .lastS => True

/-- 30_encoding.md R72: the statements of MINSN, MAXSN, MINUN and MAXUN, with the block's turn before each POLL, leave the
list's extreme in `acc`. The operands are those whose value the fold does not itself change. -/
def Obligations.ListFormsComputeTheirFold : Prop :=
  ∀ (f : ListFold) (vs : List (Operand × Value)) (t xlo xhi : Nat) (before stmts after : List HostStmt) (y : System),
    xlo ≠ xhi → (∀ v ∈ vs, v.1.valueIn y.host = some v.2 ∧ v.1.keptThrough [t, xlo, xhi]) →
    f.statements (vs.map Prod.fst) t xlo xhi = some stmts → y.host.position = before.length → y.block.pend = none →
    let round := [false, false, false, false, false, true, false, false, false]
    ∃ z, systemRun (before ++ stmts ++ after) (vs.flatMap fun _ => round) y = .next z ∧
      z.host.position = before.length + stmts.length ∧
      (Operand.pair xlo xhi).valueIn z.host = f.result (vs.map Prod.snd)

/-- 30_encoding.md R70 with 47_convert.md R180: a binary64 literal has the value it is written for, and every finite
pattern, -0.0 included, has a literal. That the literals are those of finite values is the model's choice (log 23). -/
def Obligations.BinaryLiteralsHaveTheirValue : Prop :=
  (∀ (neg : Bool) (m : Nat) (e : Int) (f : Value), f64Literal neg m e = some f →
    f64Value f = some ((if neg then -1 else 1) * (m : ℚ) * (2 : ℚ) ^ e)) ∧
  ∀ (neg : Bool) (m : Nat) (e : Int) (f : Value), f64Class f = .finite neg m e → f64Literal neg m e = some f
end

