-- ==== Sys2Proof/Laws/State.lean ====
section
/-! SUPPORT. One lemma per field for each named update of State, so that no later proof unfolds a record update. -/

namespace Sys2Proof.Machine

section Advance
variable (s : State)
@[simp] theorem advance_regA : s.advance.regA = s.regA := rfl
@[simp] theorem advance_regB : s.advance.regB = s.regB := rfl
@[simp] theorem advance_regR : s.advance.regR = s.regR := rfl
@[simp] theorem advance_regS : s.advance.regS = s.regS := rfl
@[simp] theorem advance_err : s.advance.err = s.err := rfl
@[simp] theorem advance_lt : s.advance.lt = s.lt := rfl
@[simp] theorem advance_eq : s.advance.eq = s.eq := rfl
@[simp] theorem advance_gt : s.advance.gt = s.gt := rfl
@[simp] theorem advance_drop : s.advance.drop = s.drop := rfl
@[simp] theorem advance_pend : s.advance.pend = s.pend := rfl
@[simp] theorem advance_busReads : s.advance.busReads = s.busReads := rfl
@[simp] theorem advance_schedule : s.advance.schedule = s.schedule.tail := rfl
@[simp] theorem advance_busy : s.advance.busy = s.busy := rfl
end Advance

section Reset
variable (s : State)
@[simp] theorem applyReset_regA : (applyReset s).regA = 0x0000000000000000#64 := rfl
@[simp] theorem applyReset_regB : (applyReset s).regB = 0x0000000000000000#64 := rfl
@[simp] theorem applyReset_regR : (applyReset s).regR = 0x0000000000000000#64 := rfl
@[simp] theorem applyReset_regS : (applyReset s).regS = 0x0000000000000000#64 := rfl
@[simp] theorem applyReset_err : (applyReset s).err = 0#2 := rfl
@[simp] theorem applyReset_lt : (applyReset s).lt = false := rfl
@[simp] theorem applyReset_eq : (applyReset s).eq = false := rfl
@[simp] theorem applyReset_gt : (applyReset s).gt = false := rfl
@[simp] theorem applyReset_drop : (applyReset s).drop = false := rfl
@[simp] theorem applyReset_pend : (applyReset s).pend = none := rfl
@[simp] theorem applyReset_schedule : (applyReset s).schedule = s.schedule := rfl
@[simp] theorem applyReset_busReads : (applyReset s).busReads = s.busReads := rfl
end Reset

section Place
variable (s : State) (w : Word)
@[simp] theorem placeCommand_regA : (placeCommand s w).regA = s.regA := rfl
@[simp] theorem placeCommand_regB : (placeCommand s w).regB = s.regB := rfl
@[simp] theorem placeCommand_regR : (placeCommand s w).regR = s.regR := rfl
@[simp] theorem placeCommand_regS : (placeCommand s w).regS = s.regS := rfl
@[simp] theorem placeCommand_err : (placeCommand s w).err = s.err := rfl
@[simp] theorem placeCommand_lt : (placeCommand s w).lt = s.lt := rfl
@[simp] theorem placeCommand_eq : (placeCommand s w).eq = s.eq := rfl
@[simp] theorem placeCommand_gt : (placeCommand s w).gt = s.gt := rfl
@[simp] theorem placeCommand_drop : (placeCommand s w).drop = s.drop := rfl
@[simp] theorem placeCommand_pend : (placeCommand s w).pend = some ⟨w, s.regA, s.regB⟩ := rfl
@[simp] theorem placeCommand_schedule : (placeCommand s w).schedule = .block :: s.schedule := rfl
@[simp] theorem placeCommand_busReads : (placeCommand s w).busReads = s.busReads := rfl
@[simp] theorem placeCommand_advance :
    (placeCommand s w).advance = { s with pend := some ⟨w, s.regA, s.regB⟩ } := rfl
end Place

section Commit
variable (s : State) (res : Result)

/-- A completion leaves `A`, `B`, `DROP` and the model's own fields alone, whatever the result (10_state.md R33). -/
@[simp] theorem commit_regA : (s.commit res).regA = s.regA := by
  unfold State.commit; split <;> rfl
@[simp] theorem commit_regB : (s.commit res).regB = s.regB := by
  unfold State.commit; split <;> rfl
@[simp] theorem commit_drop : (s.commit res).drop = s.drop := by
  unfold State.commit; split <;> rfl
@[simp] theorem commit_schedule : (s.commit res).schedule = s.schedule := by
  unfold State.commit; split <;> rfl
@[simp] theorem commit_busReads : (s.commit res).busReads = s.busReads := by
  unfold State.commit; split <;> rfl
@[simp] theorem commit_err : (s.commit res).err = res.err := rfl
@[simp] theorem commit_pend : (s.commit res).pend = none := rfl
theorem commit_regR : (s.commit res).regR = if res.err = errNone then res.r.getD s.regR else s.regR := by
  unfold State.commit; split <;> rfl
theorem commit_regS : (s.commit res).regS = if res.err = errNone then res.s.getD s.regS else s.regS := by
  unfold State.commit; split <;> rfl
theorem commit_flags :
    ((s.commit res).lt, (s.commit res).eq, (s.commit res).gt) =
      match res.flags with
      | some f => if res.err = errNone then (f.lt, f.eq, f.gt) else (s.lt, s.eq, s.gt)
      | none => (s.lt, s.eq, s.gt) := by
  unfold State.commit
  cases res.flags <;> split <;> rfl

/-- The four shapes of result, committed. -/
@[simp] theorem commit_value (v : Value) : s.commit (.value v) = { s with regR := v, err := errNone, pend := none } := rfl
@[simp] theorem commit_values (v w : Value) :
    s.commit (.values v w) = { s with regR := v, regS := w, err := errNone, pend := none } := rfl
@[simp] theorem commit_compared (v : Value) (f : CompareFlags) :
    s.commit (.compared v f) =
      { s with regR := v, lt := f.lt, eq := f.eq, gt := f.gt, err := errNone, pend := none } := rfl
/-- Moving the schedule on and committing a result do not touch the same fields. -/
theorem commit_advance (res : Result) : s.advance.commit res = (s.commit res).advance := by
  simp only [State.commit]
  split_ifs <;> rfl
theorem commit_raise (code : BitVec 2) (h : code ≠ errNone) :
    s.commit (.raise code) = { s with err := code, pend := none } := by
  simp [State.commit, Result.raise, h]
@[simp] theorem commit_raise_divideByZero :
    s.commit (.raise errDivideByZero) = { s with err := errDivideByZero, pend := none } :=
  commit_raise s _ (by decide)
@[simp] theorem commit_raise_illegalCommand :
    s.commit (.raise errIllegalCommand) = { s with err := errIllegalCommand, pend := none } :=
  commit_raise s _ (by decide)
end Commit

section BusWrite
variable (s : State) (v : Word)
@[simp] theorem busWrite_aLo : busWrite s .aLo v = { s with regA := setLo s.regA v } := rfl
@[simp] theorem busWrite_aHi : busWrite s .aHi v = { s with regA := setHi s.regA v } := rfl
@[simp] theorem busWrite_bLo : busWrite s .bLo v = { s with regB := setLo s.regB v } := rfl
@[simp] theorem busWrite_bHi : busWrite s .bHi v = { s with regB := setHi s.regB v } := rfl
@[simp] theorem busWrite_status : busWrite s .status v = s := rfl
@[simp] theorem busWrite_rLo : busWrite s .rLo v = s := rfl
@[simp] theorem busWrite_rHi : busWrite s .rHi v = s := rfl
@[simp] theorem busWrite_sLo : busWrite s .sLo v = s := rfl
@[simp] theorem busWrite_sHi : busWrite s .sHi v = s := rfl
@[simp] theorem busWrite_reserved : busWrite s .reserved v = s := rfl
@[simp] theorem busWrite_cmd : busWrite s .cmd v = writeCmd s v := rfl
theorem writeCmd_idle (h : s.pend = none) :
    writeCmd s v = { s with pend := some ⟨v, s.regA, s.regB⟩, drop := false } := by
  simp [writeCmd, h]
theorem writeCmd_busy {p : Pending} (h : s.pend = some p) : writeCmd s v = { s with drop := true } := by
  simp [writeCmd, h]

/-- What a write leaves alone: results, error code, flags, what was read, and what is to come (R45, R46). -/
@[simp] theorem busWrite_regR (r : WindowReg) : (busWrite s r v).regR = s.regR := by
  cases r <;> simp only [busWrite, writeCmd]; split <;> rfl
@[simp] theorem busWrite_regS (r : WindowReg) : (busWrite s r v).regS = s.regS := by
  cases r <;> simp only [busWrite, writeCmd]; split <;> rfl
@[simp] theorem busWrite_err (r : WindowReg) : (busWrite s r v).err = s.err := by
  cases r <;> simp only [busWrite, writeCmd]; split <;> rfl
@[simp] theorem busWrite_lt (r : WindowReg) : (busWrite s r v).lt = s.lt := by
  cases r <;> simp only [busWrite, writeCmd]; split <;> rfl
@[simp] theorem busWrite_eq (r : WindowReg) : (busWrite s r v).eq = s.eq := by
  cases r <;> simp only [busWrite, writeCmd]; split <;> rfl
@[simp] theorem busWrite_gt (r : WindowReg) : (busWrite s r v).gt = s.gt := by
  cases r <;> simp only [busWrite, writeCmd]; split <;> rfl
@[simp] theorem busWrite_schedule (r : WindowReg) : (busWrite s r v).schedule = s.schedule := by
  cases r <;> simp only [busWrite, writeCmd]; split <;> rfl
@[simp] theorem busWrite_busReads (r : WindowReg) : (busWrite s r v).busReads = s.busReads := by
  cases r <;> simp only [busWrite, writeCmd]; split <;> rfl
end BusWrite

end Sys2Proof.Machine
end

