-- ==== Sys2Proof/Laws/Bus.lean ====
section
/-! SUPPORT. Which accesses reach the window, and everything one host step can do. -/

namespace Sys2Proof.Machine

/-- The seven bits of STATUS as a number: the places of 20_memory.md R41. -/
theorem statusBits (err : BitVec 2) (busy lt eq gt drop : Bool) :
    (BitVec.ofBool drop ++ BitVec.ofBool gt ++ BitVec.ofBool eq ++ BitVec.ofBool lt ++ err ++ BitVec.ofBool busy).setWidth 32
      = BitVec.ofNat 32 (busy.toNat + 2 * err.toNat + 8 * lt.toNat + 16 * eq.toNat + 32 * gt.toNat + 64 * drop.toNat) := by
  revert err busy lt eq gt drop
  decide

theorem statusWord_eq (s : State) :
    statusWord s = BitVec.ofNat 32 (s.busy.toNat + 2 * s.err.toNat + 8 * s.lt.toNat + 16 * s.eq.toNat + 32 * s.gt.toNat +
      64 * s.drop.toNat) :=
  statusBits _ _ _ _ _ _
theorem statusBit_busy (s : State) : (statusWord s).getLsbD 0 = s.busy := by
  have h : ∀ (err : BitVec 2) (busy lt eq gt drop : Bool), ((BitVec.ofBool drop ++ BitVec.ofBool gt ++ BitVec.ofBool eq ++
      BitVec.ofBool lt ++ err ++ BitVec.ofBool busy).setWidth 32).getLsbD 0 = busy := by decide
  exact h _ _ _ _ _ _

theorem statusBit_lt (s : State) : (statusWord s).getLsbD 3 = s.lt := by
  have h : ∀ (err : BitVec 2) (busy lt eq gt drop : Bool), ((BitVec.ofBool drop ++ BitVec.ofBool gt ++ BitVec.ofBool eq ++
      BitVec.ofBool lt ++ err ++ BitVec.ofBool busy).setWidth 32).getLsbD 3 = lt := by decide
  exact h _ _ _ _ _ _

theorem statusBit_eq (s : State) : (statusWord s).getLsbD 4 = s.eq := by
  have h : ∀ (err : BitVec 2) (busy lt eq gt drop : Bool), ((BitVec.ofBool drop ++ BitVec.ofBool gt ++ BitVec.ofBool eq ++
      BitVec.ofBool lt ++ err ++ BitVec.ofBool busy).setWidth 32).getLsbD 4 = eq := by decide
  exact h _ _ _ _ _ _

theorem statusBit_gt (s : State) : (statusWord s).getLsbD 5 = s.gt := by
  have h : ∀ (err : BitVec 2) (busy lt eq gt drop : Bool), ((BitVec.ofBool drop ++ BitVec.ofBool gt ++ BitVec.ofBool eq ++
      BitVec.ofBool lt ++ err ++ BitVec.ofBool busy).setWidth 32).getLsbD 5 = gt := by decide
  exact h _ _ _ _ _ _

/-- An aligned 32-bit access inside the window is defined, at its offset (20_memory.md R42). -/
theorem route_window {off : Nat} (h4 : off % 4 = 0) (h64 : off < 64) : route (Config.base + off) 4 = .window off := by
  have e : ((Config.base + off : Nat) : Int) - (Config.base : Int) = off := by push_cast; omega
  rw [route, e, routeOffset, if_neg (by simp [Config.windowBytes]; omega), if_pos ⟨rfl, by omega, by omega⟩]
  simp

/-- Any other access at an address of the window is undefined (R42). -/
theorem route_undefined {off size : Nat} (h64 : off < 64) (h : size ≠ 4 ∨ off % 4 ≠ 0) :
    route (Config.base + off) size = .undefined off := by
  have e : ((Config.base + off : Nat) : Int) - (Config.base : Int) = off := by push_cast; omega
  rw [route, e, routeOffset, if_neg (by simp only [Config.windowBytes]; omega), if_neg (by omega)]

/-- An access that ends before the window, or begins after it, is not the block's (R40). -/
theorem route_outside {addr size : Nat} (h : addr + max size 1 ≤ Config.base ∨ Config.base + 64 ≤ addr) :
    route addr size = .outside := by
  rw [route, routeOffset, if_pos]
  simp only [Config.windowBytes]
  omega

/-- A defined access is at an aligned offset of the window. -/
theorem route_window_iff {addr size off : Nat} :
    route addr size = .window off ↔ size = 4 ∧ addr = Config.base + off ∧ off % 4 = 0 ∧ off < 64 := by
  constructor
  · intro h
    rw [route, routeOffset] at h
    split_ifs at h with h1 h2
    cases h
    simp only [Config.windowBytes] at h1
    omega
  · rintro ⟨rfl, rfl, h4, h64⟩
    exact route_window h4 h64

/-- What one host step can do: nothing at all, a read's word returned, a write done, or a bus fault. -/
theorem hostStep_cases (x : Access) (s : State) :
    (x.route = .outside ∧ hostStep x s = .next s) ∨
    (∃ off size, x = .read (Config.base + off) 4 ∧ size = 4 ∧ off % 4 = 0 ∧ off < 64 ∧
      hostStep x s = .next { s with busReads := busRead s (regAt off) :: s.busReads }) ∨
    (∃ off v, x = .write (Config.base + off) 4 v ∧ off % 4 = 0 ∧ off < 64 ∧
      hostStep x s = .next (busWrite s (regAt off) v)) ∨
    (∃ off size, x.route = .undefined off ∧ hostStep x s = .fault (.busAccessFault off size)) := by
  cases x with
  | read addr size =>
    cases h : route addr size with
    | outside => exact .inl ⟨h, by simp [hostStep, h, hostRead]⟩
    | window off =>
      obtain ⟨rfl, rfl, h4, h64⟩ := route_window_iff.mp h
      exact .inr (.inl ⟨off, 4, rfl, rfl, h4, h64, by simp [hostStep, h, hostRead]⟩)
    | undefined off => exact .inr (.inr (.inr ⟨off, size, h, by simp [hostStep, h, hostRead]⟩))
  | write addr size v =>
    cases h : route addr size with
    | outside => exact .inl ⟨h, by simp [hostStep, h, hostWrite]⟩
    | window off =>
      obtain ⟨rfl, rfl, h4, h64⟩ := route_window_iff.mp h
      exact .inr (.inr (.inl ⟨off, v, rfl, h4, h64, by simp [hostStep, h, hostWrite]⟩))
    | undefined off => exact .inr (.inr (.inr ⟨off, size, h, by simp [hostStep, h, hostWrite]⟩))

theorem hostStep_read {off : Nat} (h4 : off % 4 = 0) (h64 : off < 64) (s : State) :
    hostStep (.read (Config.base + off) 4) s = .next { s with busReads := busRead s (regAt off) :: s.busReads } := by
  simp [hostStep, route_window h4 h64, hostRead]

theorem hostStep_write {off : Nat} (h4 : off % 4 = 0) (h64 : off < 64) (v : Word) (s : State) :
    hostStep (.write (Config.base + off) 4 v) s = .next (busWrite s (regAt off) v) := by
  simp [hostStep, route_window h4 h64, hostWrite]

/-- A host step never refuses, and faults only on an undefined access. -/
theorem hostStep_harmless {x : Access} (hx : x.harmless) (s : State) : ∃ t, hostStep x s = .next t := by
  rcases hostStep_cases x s with ⟨-, h⟩ | ⟨_, _, -, -, -, -, h⟩ | ⟨_, _, -, -, -, h⟩ | ⟨off, _, hr, -⟩
  · exact ⟨_, h⟩
  · exact ⟨_, h⟩
  · exact ⟨_, h⟩
  · exact absurd hr (hx off)

/-- A host step that answers leaves the results, the error code and the flags as they were (R49). -/
theorem hostStep_keeps_results {x : Access} {s t : State} (h : hostStep x s = .next t) :
    t.regR = s.regR ∧ t.regS = s.regS ∧ t.err = s.err ∧ t.lt = s.lt ∧ t.eq = s.eq ∧ t.gt = s.gt ∧
      t.schedule = s.schedule := by
  rcases hostStep_cases x s with ⟨-, h'⟩ | ⟨_, _, -, -, -, -, h'⟩ | ⟨_, _, -, -, -, h'⟩ | ⟨_, _, -, h'⟩ <;>
    rw [h'] at h <;> cases h <;> simp

/-- The sixteen aligned offsets of the window (R41). -/
theorem offset_cases {off : Nat} (h4 : off % 4 = 0) (h64 : off < 64) :
    off = 0x00 ∨ off = 0x04 ∨ off = 0x08 ∨ off = 0x0C ∨ off = 0x10 ∨ off = 0x14 ∨ off = 0x18 ∨ off = 0x1C ∨
    off = 0x20 ∨ off = 0x24 ∨ off = 0x28 ∨ off = 0x2C ∨ off = 0x30 ∨ off = 0x34 ∨ off = 0x38 ∨ off = 0x3C := by
  omega

/-- A write elsewhere than CMD leaves what is in flight, and `DROP`, as they were (R45). -/
theorem busWrite_elsewhere {off : Nat} (h4 : off % 4 = 0) (h64 : off < 64) (h : off ≠ 0x10) (s : State) (v : Word) :
    (busWrite s (regAt off) v).pend = s.pend ∧ (busWrite s (regAt off) v).drop = s.drop := by
  rcases offset_cases h4 h64 with rfl | rfl | rfl | rfl | rfl | rfl | rfl | rfl | rfl | rfl | rfl | rfl | rfl | rfl |
    rfl | rfl
  all_goals first | exact absurd rfl h | exact ⟨rfl, rfl⟩

/-- A harmless access that is no CMD write answers, and leaves what is in flight, and `DROP`, as they were. -/
theorem hostStep_passive {x : Access} (hx : (Event.host x).passive) (s : State) :
    ∃ t, hostStep x s = .next t ∧ t.pend = s.pend ∧ t.drop = s.drop ∧ ∃ words, t.busReads = words ++ s.busReads := by
  rcases hostStep_cases x s with ⟨_, e⟩ | ⟨off, _, _, _, _, _, e⟩ | ⟨off, v, rfl, h4, h64, e⟩ | ⟨off, _, hr, e⟩
  · exact ⟨_, e, rfl, rfl, [], rfl⟩
  · exact ⟨_, e, rfl, rfl, [_], rfl⟩
  · have h := busWrite_elsewhere h4 h64 (by rintro rfl; exact hx.2 ⟨v, rfl⟩) s v
    exact ⟨_, e, h.1, h.2, [], by simp⟩
  · exact absurd hr (hx.1 off)

end Sys2Proof.Machine
end

