-- ==== Sys2Proof/Laws/Decode.lean ====
section
/-! SUPPORT. The decoder's table has one row per `OPC`, and the decoder's two outcomes. -/

namespace Sys2Proof

/-- No two rows of the opcode map share an `OPC` (30_encoding.md R63). -/
theorem opcodeTable_no_overlap : opcodeTable.Pairwise (fun r₁ r₂ => r₁.opc ≠ r₂.opc) := by decide

/-- No two rows name the same command. -/
theorem opcodeTable_no_repeat : opcodeTable.Pairwise (fun r₁ r₂ => r₁.instr ≠ r₂.instr) := by decide

theorem opcodeTable_length : opcodeTable.length = 28 := by decide

/-- A word is its two fields (R60). -/
theorem word_eq_fields (c : Word) : c = rsvdField c ++ opcField c := by
  apply BitVec.eq_of_getLsbD_eq
  intro i hi
  rw [BitVec.getLsbD_append]
  by_cases h : i < 8
  · simp [h, opcField]
  · have e : 8 + (i - 8) = i := by omega
    have h24 : i - 8 < 24 := by omega
    simp [h, h24, rsvdField, e]

theorem decode_reserved {c : Word} (h : rsvdField c ≠ 0) : decode c = .illegal (.reservedBits (rsvdField c)) := by
  rw [decode, if_neg h]

theorem decode_assigned {c : Word} {i : Instr} (h : rsvdField c = 0) (hl : lookupOpc (opcField c) = some i) :
    decode c = .command i := by
  simp [decode, h, hl]

theorem decode_unassigned {c : Word} (h : rsvdField c = 0) (hl : lookupOpc (opcField c) = none) :
    decode c = .illegal (.unassigned (opcField c)) := by
  simp [decode, h, hl]

end Sys2Proof
end

