-- ==== Sys2Proof/Laws/Words.lean ====
section
/-! SUPPORT. Word pairs as numbers: `lo`, `hi` and `pair` against division by 2^32, and the readings `u` and `sgn`. -/

namespace Sys2Proof.Machine

theorem toNat_lo (v : Value) : (lo v).toNat = v.toNat % 2 ^ 32 := by
  simp [lo, BitVec.extractLsb'_toNat]

theorem toNat_hi (v : Value) : (hi v).toNat = v.toNat / 2 ^ 32 := by
  have hv := v.isLt
  simp only [hi, BitVec.extractLsb'_toNat, Nat.shiftRight_eq_div_pow]
  omega

theorem toNat_pair (h l : Word) : (pair h l).toNat = h.toNat * 2 ^ 32 + l.toNat := by
  have hl := l.isLt
  have key : (pair h l).toNat = h.toNat <<< 32 ||| l.toNat := BitVec.toNat_append h l
  rw [key, ← Nat.shiftLeft_add_eq_or_of_lt hl, Nat.shiftLeft_eq]

theorem toNat_eq_hi_lo (v : Value) : v.toNat = (hi v).toNat * 2 ^ 32 + (lo v).toNat := by
  rw [toNat_hi, toNat_lo]
  omega

@[simp] theorem lo_pair (h l : Word) : lo (pair h l) = l := by
  have hl := l.isLt
  apply BitVec.eq_of_toNat_eq
  rw [toNat_lo, toNat_pair]
  omega

@[simp] theorem hi_pair (h l : Word) : hi (pair h l) = h := by
  have hl := l.isLt
  apply BitVec.eq_of_toNat_eq
  rw [toNat_hi, toNat_pair]
  omega

@[simp] theorem pair_hi_lo (v : Value) : pair (hi v) (lo v) = v := by
  apply BitVec.eq_of_toNat_eq
  rw [toNat_pair, ← toNat_eq_hi_lo]

@[simp] theorem lo_setLo (v : Value) (w : Word) : lo (setLo v w) = w := lo_pair _ _
@[simp] theorem hi_setLo (v : Value) (w : Word) : hi (setLo v w) = hi v := hi_pair _ _
@[simp] theorem lo_setHi (v : Value) (w : Word) : lo (setHi v w) = lo v := lo_pair _ _
@[simp] theorem hi_setHi (v : Value) (w : Word) : hi (setHi v w) = w := hi_pair _ _

/-- Two values with equal halves are equal. -/
theorem value_ext {v w : Value} (hh : hi v = hi w) (hl : lo v = lo w) : v = w := by
  rw [← pair_hi_lo v, ← pair_hi_lo w, hh, hl]

theorem hi_eq_zero_iff (v : Value) : hi v = 0x00000000#32 ↔ v.toNat < 2 ^ 32 := by
  rw [← BitVec.toNat_inj, toNat_hi]
  simp only [BitVec.toNat_ofNat]
  omega

theorem bit31_eq_decide (w : Word) : bit31 w = decide (2 ^ 31 ≤ w.toNat) := by
  have := w.isLt
  rw [bit31, BitVec.getLsbD, Nat.testBit_eq_decide_div_mod_eq]
  congr 1
  apply propext
  omega

theorem signBit_eq_decide (v : Value) : signBit v = decide (2 ^ 63 ≤ v.toNat) := by
  have := v.isLt
  rw [signBit, BitVec.getLsbD, Nat.testBit_eq_decide_div_mod_eq]
  congr 1
  apply propext
  omega

theorem signBit_iff (v : Value) : signBit v = true ↔ 2 ^ 63 ≤ v.toNat := by
  simp [signBit_eq_decide]

/-- `s(v) = u(v) - 2^64 * v[63]` (00_scope.md R7). -/
theorem sgn_eq (v : Value) : sgn v = (u v : Int) - if signBit v then 2 ^ 64 else 0 := by
  have := v.isLt
  rw [sgn, u, signBit_eq_decide, BitVec.toInt_eq_toNat_cond]
  split_ifs with h₁ h₂ <;> simp only [decide_eq_true_eq] at * <;> push_cast at * <;> omega

theorem sgn_neg_iff (v : Value) : sgn v < 0 ↔ signBit v = true := by
  have := v.isLt
  rw [sgn_eq, u]
  split_ifs with h
  · simp only [h, iff_true]; omega
  · simp only [h, iff_false, Bool.false_eq_true]; omega

/-- `u(bits64(n)) = n mod 2^64`, the least non-negative residue (00_scope.md R7). -/
theorem u_bits64 (n : Int) : (u (bits64 n) : Int) = n % 2 ^ 64 := by
  rw [u, bits64, BitVec.toNat_ofInt]
  have : 0 ≤ n % (2 ^ 64 : Nat) := Int.emod_nonneg _ (by norm_num)
  rw [Int.toNat_of_nonneg this]
  norm_num

theorem bits64_natCast (n : Nat) : bits64 n = BitVec.ofNat 64 n := by
  rw [bits64, BitVec.ofInt_natCast]

@[simp] theorem bits64_u (v : Value) : bits64 (u v) = v := by
  rw [bits64_natCast, u, BitVec.ofNat_toNat, BitVec.setWidth_eq]

@[simp] theorem bits64_sgn (v : Value) : bits64 (sgn v) = v := by
  rw [bits64, sgn, BitVec.ofInt_toInt]

/-- Patterns are equal exactly when the integers agree modulo 2^64. -/
theorem bits64_eq_iff (m n : Int) : bits64 m = bits64 n ↔ m % 2 ^ 64 = n % 2 ^ 64 := by
  rw [← BitVec.toNat_inj]
  constructor
  · intro h
    rw [← u_bits64, ← u_bits64, u, u, h]
  · intro h
    have : (u (bits64 m) : Int) = u (bits64 n) := by rw [u_bits64, u_bits64, h]
    exact_mod_cast this

theorem shiftCount_eq (b : Value) : shiftCount b = u b % 64 := by
  simp [shiftCount, u, BitVec.extractLsb'_toNat]

theorem shiftCount_lt (b : Value) : shiftCount b < 64 := by
  rw [shiftCount_eq]
  exact Nat.mod_lt _ (by norm_num)

end Sys2Proof.Machine
end

