-- ==== Sys2Proof/Laws/Float.lean ====
section
/-! SUPPORT. The binary64 arithmetic of Machine/Float.lean in terms of rational numbers. -/

namespace Sys2Proof.Machine

/-- `floorScaled` is the floor it is named for. -/
theorem floorScaled_eq (m : Nat) (e : Int) : (floorScaled m e : Int) = ⌊(m : ℚ) * (2 : ℚ) ^ e⌋ := by
  unfold floorScaled
  split_ifs with h
  · obtain ⟨k, rfl⟩ := Int.eq_ofNat_of_zero_le h
    have cast : (m : ℚ) * (2 : ℚ) ^ ((k : Nat) : Int) = ((m * 2 ^ k : Nat) : ℚ) := by push_cast; rw [zpow_natCast]
    rw [cast, Int.floor_natCast]
    simp
  · obtain ⟨k, hk⟩ := Int.eq_ofNat_of_zero_le (show 0 ≤ -e by omega)
    have he : e = -(k : Int) := by omega
    subst he
    have cast : (m : ℚ) * (2 : ℚ) ^ (-(k : Int)) = (m : ℚ) / ((2 ^ k : Nat) : ℚ) := by
      push_cast; rw [zpow_neg, zpow_natCast, div_eq_mul_inv]
    rw [cast, Rat.floor_natCast_div_natCast]
    simp

/-- The truncation of R181 on a class's sign, significand and exponent. -/
theorem truncScaled_eq (neg : Bool) (m : Nat) (e : Int) :
    truncScaled neg m e = if neg then -⌊(m : ℚ) * (2 : ℚ) ^ e⌋ else ⌊(m : ℚ) * (2 : ℚ) ^ e⌋ := by
  unfold truncScaled
  rw [floorScaled_eq]

theorem f64Exp_eq (f : Value) : f64Exp f = u f / 2 ^ 52 % 2 ^ 11 := by
  simp [f64Exp, u, BitVec.extractLsb'_toNat, Nat.shiftRight_eq_div_pow]

theorem f64Frac_eq (f : Value) : f64Frac f = u f % 2 ^ 52 := by
  simp [f64Frac, u, BitVec.extractLsb'_toNat]

theorem f64Sign_eq (f : Value) : f64Sign f = signBit f := rfl

theorem u_packNormal {bexp m : Nat} (he : bexp < 2046) (hm : m ≤ 2 ^ 53) :
    u (packNormal bexp m) = bexp * 2 ^ 52 + (m - 2 ^ 52) := by
  simp only [u, packNormal, BitVec.toNat_ofNat]
  exact Nat.mod_eq_of_lt (by omega)

/-- The value of a normal pattern without sign (R180). -/
theorem f64Value_normal {f : Value} {bexp frac : Nat} (hs : f64Sign f = false) (hx : f64Exp f = bexp)
    (hf : f64Frac f = frac) (h0 : bexp ≠ 0) (h7 : bexp ≠ 0x7FF) :
    f64Value f = some (((2 : ℚ) ^ 52 + (frac : ℚ)) * (2 : ℚ) ^ ((bexp : Int) - 1075)) := by
  have hc : f64Class f = .finite false (2 ^ 52 + frac) ((bexp : Int) - 1075) := by
    rw [f64Class, hx, hf, hs, if_neg h7, if_neg h0]
  rw [f64Value, hc]
  norm_num

/-- What `packNormal` packs (R180), the carry of a significand rounded up to 2^53 included. -/
theorem f64Value_packNormal {bexp m : Nat} (h1 : 1 ≤ bexp) (he : bexp < 2046) (hl : 2 ^ 52 ≤ m) (hm : m ≤ 2 ^ 53) :
    f64Value (packNormal bexp m) = some ((m : ℚ) * (2 : ℚ) ^ ((bexp : Int) - 1075)) := by
  have hu := u_packNormal he hm
  have hs : f64Sign (packNormal bexp m) = false := by
    rw [f64Sign_eq, signBit_eq_decide]
    simp only [u] at hu
    rw [hu]
    exact decide_eq_false (by omega)
  rcases Nat.lt_or_ge m (2 ^ 53) with hlt | hge
  · have hx : f64Exp (packNormal bexp m) = bexp := by rw [f64Exp_eq, hu]; omega
    have hf : f64Frac (packNormal bexp m) = m - 2 ^ 52 := by rw [f64Frac_eq, hu]; omega
    have sum : (2 : ℚ) ^ 52 + ((m - 2 ^ 52 : Nat) : ℚ) = (m : ℚ) := by rw [Nat.cast_sub hl]; norm_num
    rw [f64Value_normal hs hx hf (by omega) (by omega), sum]
  · have hmm : m = 2 ^ 53 := Nat.le_antisymm hm hge
    have hx : f64Exp (packNormal bexp m) = bexp + 1 := by rw [f64Exp_eq, hu]; omega
    have hf : f64Frac (packNormal bexp m) = 0 := by rw [f64Frac_eq, hu]; omega
    have two : (((bexp + 1 : Nat) : Int) - 1075) = ((bexp : Int) - 1075) + 1 := by omega
    have sum : ((2 : ℚ) ^ 52 + ((0 : Nat) : ℚ)) * 2 = ((2 ^ 53 : Nat) : ℚ) := by norm_num
    rw [f64Value_normal hs hx hf (by omega) (by omega), hmm, two, zpow_add₀ (by norm_num), zpow_one, ← sum]
    generalize (2 : ℚ) ^ ((bexp : Int) - 1075) = x
    generalize (2 : ℚ) ^ 52 + ((0 : Nat) : ℚ) = y
    rw [mul_comm x 2, mul_assoc]

/-- The fraction's last bit is the significand's. -/
theorem f64Frac_packNormal_parity {bexp m : Nat} (he : bexp < 2046) (hl : 2 ^ 52 ≤ m) (hm : m ≤ 2 ^ 53) :
    f64Frac (packNormal bexp m) % 2 = m % 2 := by
  rw [f64Frac_eq, u_packNormal he hm]
  omega

/-- Rounding moves by at most a half, and by exactly a half only to an even quotient (R184). -/
theorem roundShift_spec (n k : Nat) :
    2 * n ≤ 2 * (roundShift n (k + 1) * 2 ^ (k + 1)) + 2 ^ (k + 1) ∧
    2 * (roundShift n (k + 1) * 2 ^ (k + 1)) ≤ 2 * n + 2 ^ (k + 1) ∧
    (2 * n = 2 * (roundShift n (k + 1) * 2 ^ (k + 1)) + 2 ^ (k + 1) → roundShift n (k + 1) % 2 = 0) ∧
    (2 * (roundShift n (k + 1) * 2 ^ (k + 1)) = 2 * n + 2 ^ (k + 1) → roundShift n (k + 1) % 2 = 0) := by
  have hpow : 2 ^ (k + 1) = 2 * 2 ^ k := by rw [Nat.pow_succ, Nat.mul_comm]
  have hdm := Nat.div_add_mod n (2 ^ (k + 1))
  have hlt := Nat.mod_lt n (show 0 < 2 ^ (k + 1) by positivity)
  have hcomm : 2 ^ (k + 1) * (n / 2 ^ (k + 1)) = n / 2 ^ (k + 1) * 2 ^ (k + 1) := Nat.mul_comm _ _
  unfold roundShift
  simp only [Nat.add_sub_cancel]
  split_ifs with h
  · have hsucc : (n / 2 ^ (k + 1) + 1) * 2 ^ (k + 1) = n / 2 ^ (k + 1) * 2 ^ (k + 1) + 2 ^ (k + 1) := Nat.succ_mul _ _
    rw [hsucc]
    generalize n / 2 ^ (k + 1) * 2 ^ (k + 1) = p at *
    refine ⟨by omega, by omega, by omega, by omega⟩
  · generalize n / 2 ^ (k + 1) * 2 ^ (k + 1) = p at *
    refine ⟨by omega, by omega, by omega, by omega⟩

/-- The bounds of a number of a given bit length. -/
theorem bitLength_spec {n : Nat} (h : n ≠ 0) : 2 ^ (bitLength n - 1) ≤ n ∧ n < 2 ^ bitLength n := by
  rw [bitLength, if_neg h]
  exact ⟨Nat.log2_self_le h, Nat.lt_log2_self⟩

/-- Rounding a number of 53 + k bits to 53 of them stays in `packNormal`'s range. -/
theorem roundShift_range {n k : Nat} (hl : 2 ^ (52 + (k + 1)) ≤ n) (hu : n < 2 ^ (53 + (k + 1))) :
    2 ^ 52 ≤ roundShift n (k + 1) ∧ roundShift n (k + 1) ≤ 2 ^ 53 := by
  have hq1 : 2 ^ 52 ≤ n / 2 ^ (k + 1) := by
    rw [Nat.le_div_iff_mul_le (by positivity), ← Nat.pow_add]; exact hl
  have hq2 : n / 2 ^ (k + 1) < 2 ^ 53 := by
    rw [Nat.div_lt_iff_lt_mul (by positivity), ← Nat.pow_add]; exact hu
  unfold roundShift
  dsimp only
  split_ifs <;> omega

theorem f64Frac_lt (f : Value) : f64Frac f < 2 ^ 52 := by
  rw [f64Frac_eq]
  exact Nat.mod_lt _ (by norm_num)

/-- A finite value is a whole number below 2^53 times a power of two, up to its sign (R180). -/
theorem f64Value_form {g : Value} {y : ℚ} (h : f64Value g = some y) :
    ∃ (m : Nat) (e : Int), m < 2 ^ 53 ∧ (y = m * (2 : ℚ) ^ e ∨ y = -(m * (2 : ℚ) ^ e)) := by
  have hf := f64Frac_lt g
  rw [f64Value, f64Class] at h
  split_ifs at h with h1 h2 h3
  · refine ⟨f64Frac g, -1074, by omega, ?_⟩
    simp only [Option.some.injEq] at h
    cases hs : f64Sign g <;> simp only [hs] at h
    · exact .inl (by rw [← h]; simp)
    · exact .inr (by rw [← h]; simp)
  · refine ⟨2 ^ 52 + f64Frac g, (f64Exp g : Int) - 1075, by omega, ?_⟩
    simp only [Option.some.injEq] at h
    cases hs : f64Sign g <;> simp only [hs] at h
    · exact .inl (by rw [← h]; simp)
    · exact .inr (by rw [← h]; simp; ring)

/-- A finite value of magnitude at least 2^(52+k) is a multiple of 2^k. -/
theorem f64Value_multiple {g : Value} {y : ℚ} (h : f64Value g = some y) (k : Nat) (hk : (2 : ℚ) ^ (52 + k) ≤ |y|) :
    ∃ j : Int, y = j * (2 : ℚ) ^ k := by
  obtain ⟨m, e, hm, hy⟩ := f64Value_form h
  have hpos : (0 : ℚ) < (2 : ℚ) ^ e := by positivity
  have habs : |y| = m * (2 : ℚ) ^ e := by
    rcases hy with hy | hy <;> rw [hy]
    · exact abs_of_nonneg (by positivity)
    · rw [abs_neg]; exact abs_of_nonneg (by positivity)
  have he : (k : Int) ≤ e := by
    by_contra hlt
    have hstep : (2 : ℚ) ^ e ≤ (2 : ℚ) ^ ((k : Int) - 1) := zpow_le_zpow_right₀ (by norm_num) (by omega)
    have hm' : (m : ℚ) < 2 ^ 53 := by exact_mod_cast hm
    have hlt' : (m : ℚ) * (2 : ℚ) ^ e < 2 ^ 53 * (2 : ℚ) ^ ((k : Int) - 1) :=
      lt_of_lt_of_le (mul_lt_mul_of_pos_right hm' hpos) (mul_le_mul_of_nonneg_left hstep (by positivity))
    have hsum : (2 : ℚ) ^ 53 * (2 : ℚ) ^ ((k : Int) - 1) = (2 : ℚ) ^ (52 + k) := by
      rw [← zpow_natCast, ← zpow_natCast, ← zpow_add₀ (by norm_num)]
      congr 1
      push_cast
      ring
    rw [hsum, ← habs] at hlt'
    exact absurd hk (not_le.mpr hlt')
  obtain ⟨d, rfl⟩ : ∃ d : Nat, e = k + d := ⟨(e - k).toNat, by omega⟩
  have hprod : (2 : ℚ) ^ ((k : Int) + d) = (2 : ℚ) ^ d * (2 : ℚ) ^ k := by
    rw [zpow_add₀ (by norm_num), zpow_natCast, zpow_natCast, mul_comm]
  rcases hy with hy | hy
  · exact ⟨m * 2 ^ d, by rw [hy, hprod]; push_cast; ring⟩
  · exact ⟨-(m * 2 ^ d), by rw [hy, hprod]; push_cast; ring⟩

/-- A pattern whose value is the integer itself is the nearest one to it. -/
theorem nearest_of_exact {f : Value} {n : Int} (h : f64Value f = some (n : ℚ)) : NearestTiesToEven f n := by
  refine ⟨n, h, fun g y hy => ?_⟩
  simp only [sub_self, abs_zero]
  exact ⟨abs_nonneg _, fun h0 hne => absurd (sub_eq_zero.mp (abs_eq_zero.mp h0.symm)) hne⟩

end Sys2Proof.Machine
end

