-- ==== Sys2Proof/Laws/Ops.lean ====
section
/-! SUPPORT. Everything a completion can do, said once: `complete` on a state with and without a command in flight, the
shape every command's meaning has, and what its result may hold. -/

namespace Sys2Proof.Machine

theorem complete_some (f : Value → Value → Result) {s : State} {p : Pending} (h : s.pend = some p) :
    complete f s = .next (s.commit (f p.a p.b)) := by
  simp [complete, h]

theorem complete_none (f : Value → Value → Result) {s : State} (h : s.pend = none) :
    complete f s = .fault .noCommandInFlight := by
  simp [complete, h]

/-- If a completion answers a next state, a command was in flight and its result was committed. -/
theorem complete_next {f : Value → Value → Result} {s t : State} (h : complete f s = .next t) :
    ∃ p, s.pend = some p ∧ t = s.commit (f p.a p.b) := by
  cases hp : s.pend with
  | none => rw [complete_none f hp] at h; cases h
  | some p => rw [complete_some f hp] at h; cases h; exact ⟨p, rfl, rfl⟩

/-- `guardDivisor` on a nonzero divisor lets the rule's result through, on a zero one it raises (R201). -/
theorem guardDivisor_ne {b : Value} (res : Result) (h : b ≠ ZERO) : guardDivisor b res = res := by
  simp [guardDivisor, h]
theorem guardDivisor_zero (res : Result) : guardDivisor ZERO res = .raise errDivideByZero := by
  simp [guardDivisor]

theorem flagsOf_legal (k : Int) : flagsLegal (flagsOf k).lt (flagsOf k).eq (flagsOf k).gt = true := by
  simp only [flagsLegal, flagsOf]
  by_cases h1 : k = -1 <;> by_cases h2 : k = 0 <;> by_cases h3 : k = 1 <;> simp [h1, h2, h3]

/-- A result the spec's rules can give: `ERR` is none of the reserved, flags written are legal. -/
def Result.Legal (res : Result) : Prop :=
  res.err ≠ 3#2 ∧ ∀ f, res.flags = some f → flagsLegal f.lt f.eq f.gt = true

theorem errNone_ne : errNone ≠ 3#2 := by decide

theorem legal_value (v : Value) : (Result.value v).Legal := ⟨errNone_ne, by intro f h; cases h⟩
theorem legal_values (v w : Value) : (Result.values v w).Legal := ⟨errNone_ne, by intro f h; cases h⟩
theorem legal_compared (v : Value) (k : Int) : (Result.compared v (flagsOf k)).Legal :=
  ⟨errNone_ne, by intro f h; cases h; exact flagsOf_legal k⟩
theorem legal_raise {code : BitVec 2} (h : code ≠ 3#2) : (Result.raise code).Legal := ⟨h, by intro f h; cases h⟩
/-! Each command's meaning as the completion of its pure rule. -/

theorem exec_add (s : State) : exec .add s = complete (fun a b => Result.value (add64 a b)) s := rfl
theorem exec_sub (s : State) : exec .sub s = complete (fun a b => Result.value (sub64 a b)) s := rfl
theorem exec_mulu (s : State) : exec .mulu s = complete (fun a b => Result.value (mulU a b)) s := rfl
theorem exec_muls (s : State) : exec .muls s = complete (fun a b => Result.value (mulS a b)) s := rfl
theorem exec_divu (s : State) : exec .divu s = complete (fun a b => guardDivisor b (Result.values (divremU a b).1 (divremU a b).2)) s := rfl
theorem exec_divs (s : State) : exec .divs s = complete (fun a b => guardDivisor b (Result.values (divremS a b).1 (divremS a b).2)) s := rfl
theorem exec_remu (s : State) : exec .remu s = complete (fun a b => guardDivisor b (Result.values (divremU a b).2 (divremU a b).1)) s := rfl
theorem exec_rems (s : State) : exec .rems s = complete (fun a b => guardDivisor b (Result.values (divremS a b).2 (divremS a b).1)) s := rfl
theorem exec_neg (s : State) : exec .neg s = complete (fun a _ => Result.value (neg64 a)) s := rfl
theorem exec_abs (s : State) : exec .abs s = complete (fun a _ => Result.value (abs64 a)) s := rfl
theorem exec_and (s : State) : exec .and s = complete (fun a b => Result.value (pair (hi a &&& hi b) (lo a &&& lo b))) s := rfl
theorem exec_or (s : State) : exec .or s = complete (fun a b => Result.value (pair (hi a ||| hi b) (lo a ||| lo b))) s := rfl
theorem exec_xor (s : State) : exec .xor s = complete (fun a b => Result.value (pair (hi a ^^^ hi b) (lo a ^^^ lo b))) s := rfl
theorem exec_not (s : State) : exec .not s = complete (fun a _ => Result.value (pair (~~~ hi a) (~~~ lo a))) s := rfl
theorem exec_sll (s : State) : exec .sll s = complete (fun a b => Result.value (shl64 a (shiftCount b))) s := rfl
theorem exec_srl (s : State) : exec .srl s = complete (fun a b => Result.value (shr64 a (shiftCount b))) s := rfl
theorem exec_sra (s : State) : exec .sra s = complete (fun a b => Result.value (sra64 a (shiftCount b))) s := rfl
theorem exec_cmpu (s : State) : exec .cmpu s = complete (fun a b => compareResult (cmpU a b)) s := rfl
theorem exec_cmps (s : State) : exec .cmps s = complete (fun a b => compareResult (cmpS a b)) s := rfl
theorem exec_minu (s : State) : exec .minu s = complete (fun a b => Result.value (minBy (cmpU a b) a b)) s := rfl
theorem exec_mins (s : State) : exec .mins s = complete (fun a b => Result.value (minBy (cmpS a b) a b)) s := rfl
theorem exec_maxu (s : State) : exec .maxu s = complete (fun a b => Result.value (maxBy (cmpU a b) a b)) s := rfl
theorem exec_maxs (s : State) : exec .maxs s = complete (fun a b => Result.value (maxBy (cmpS a b) a b)) s := rfl
theorem exec_lzc (s : State) : exec .lzc s = complete (fun a _ => Result.value (BitVec.ofNat 64 (lzc64 a))) s := rfl
theorem exec_cvtfu (s : State) : exec .cvtfu s = complete (fun a _ => Result.value (f2i a)) s := rfl
theorem exec_cvtfs (s : State) : exec .cvtfs s = complete (fun a _ => Result.value (f2i a)) s := rfl
theorem exec_cvtuf (s : State) : exec .cvtuf s = complete (fun a _ => Result.value (rne64 (u a))) s := rfl
theorem exec_cvtsf (s : State) : exec .cvtsf s = complete (fun a _ => Result.value (cvtSigned a)) s := rfl

/-- The division unit's commands (10_state.md R24). -/
def Divides (i : Instr) : Prop := i = .divu ∨ i = .divs ∨ i = .remu ∨ i = .rems

/-- The commands that write the compare flags (10_state.md R27). -/
def Compares (i : Instr) : Prop := i = .cmpu ∨ i = .cmps

/-- The four shapes a command's result may have: one value; a value and flags; two values; or, for a zero divisor alone,
the error (30_encoding.md R66, R68). -/
def ResultShape (i : Instr) (b : Value) (res : Result) : Prop :=
  (¬ Divides i ∧ ¬ Compares i ∧ ∃ v, res = .value v) ∨
  (¬ Divides i ∧ Compares i ∧ ∃ v k, res = .compared v (flagsOf k)) ∨
  (Divides i ∧ ¬ Compares i ∧ b ≠ ZERO ∧ ∃ v w, res = .values v w) ∨
  (Divides i ∧ ¬ Compares i ∧ b = ZERO ∧ res = .raise errDivideByZero)

theorem divides_cases {i : Instr} (hd : Divides i) (hc : ¬ Compares i) (b v w : Value) :
    ResultShape i b (guardDivisor b (.values v w)) := by
  by_cases hb : b = ZERO
  · exact .inr (.inr (.inr ⟨hd, hc, hb, by rw [hb, guardDivisor_zero]⟩))
  · exact .inr (.inr (.inl ⟨hd, hc, hb, v, w, guardDivisor_ne _ hb⟩))

/-- Every command's meaning is the completion of one pure function of the latched operands, with a result of its shape
(30_encoding.md R66 to R68). -/
theorem exec_shape (i : Instr) :
    ∃ f : Value → Value → Result, (∀ s, exec i s = complete f s) ∧ ∀ a b, ResultShape i b (f a b) := by
  cases i
  case add => exact ⟨_, exec_add, fun a b => .inl ⟨by simp [Divides], by simp [Compares], _, rfl⟩⟩
  case sub => exact ⟨_, exec_sub, fun a b => .inl ⟨by simp [Divides], by simp [Compares], _, rfl⟩⟩
  case mulu => exact ⟨_, exec_mulu, fun a b => .inl ⟨by simp [Divides], by simp [Compares], _, rfl⟩⟩
  case muls => exact ⟨_, exec_muls, fun a b => .inl ⟨by simp [Divides], by simp [Compares], _, rfl⟩⟩
  case divu => refine ⟨_, exec_divu, fun a b => ?_⟩; exact divides_cases (by simp [Divides]) (by simp [Compares]) _ _ _
  case divs => refine ⟨_, exec_divs, fun a b => ?_⟩; exact divides_cases (by simp [Divides]) (by simp [Compares]) _ _ _
  case remu => refine ⟨_, exec_remu, fun a b => ?_⟩; exact divides_cases (by simp [Divides]) (by simp [Compares]) _ _ _
  case rems => refine ⟨_, exec_rems, fun a b => ?_⟩; exact divides_cases (by simp [Divides]) (by simp [Compares]) _ _ _
  case neg => exact ⟨_, exec_neg, fun a b => .inl ⟨by simp [Divides], by simp [Compares], _, rfl⟩⟩
  case abs => exact ⟨_, exec_abs, fun a b => .inl ⟨by simp [Divides], by simp [Compares], _, rfl⟩⟩
  case and => exact ⟨_, exec_and, fun a b => .inl ⟨by simp [Divides], by simp [Compares], _, rfl⟩⟩
  case or => exact ⟨_, exec_or, fun a b => .inl ⟨by simp [Divides], by simp [Compares], _, rfl⟩⟩
  case xor => exact ⟨_, exec_xor, fun a b => .inl ⟨by simp [Divides], by simp [Compares], _, rfl⟩⟩
  case not => exact ⟨_, exec_not, fun a b => .inl ⟨by simp [Divides], by simp [Compares], _, rfl⟩⟩
  case sll => exact ⟨_, exec_sll, fun a b => .inl ⟨by simp [Divides], by simp [Compares], _, rfl⟩⟩
  case srl => exact ⟨_, exec_srl, fun a b => .inl ⟨by simp [Divides], by simp [Compares], _, rfl⟩⟩
  case sra => exact ⟨_, exec_sra, fun a b => .inl ⟨by simp [Divides], by simp [Compares], _, rfl⟩⟩
  case cmpu => exact ⟨_, exec_cmpu, fun a b => .inr (.inl ⟨by simp [Divides], by simp [Compares], _, _, rfl⟩)⟩
  case cmps => exact ⟨_, exec_cmps, fun a b => .inr (.inl ⟨by simp [Divides], by simp [Compares], _, _, rfl⟩)⟩
  case minu => exact ⟨_, exec_minu, fun a b => .inl ⟨by simp [Divides], by simp [Compares], _, rfl⟩⟩
  case mins => exact ⟨_, exec_mins, fun a b => .inl ⟨by simp [Divides], by simp [Compares], _, rfl⟩⟩
  case maxu => exact ⟨_, exec_maxu, fun a b => .inl ⟨by simp [Divides], by simp [Compares], _, rfl⟩⟩
  case maxs => exact ⟨_, exec_maxs, fun a b => .inl ⟨by simp [Divides], by simp [Compares], _, rfl⟩⟩
  case lzc => exact ⟨_, exec_lzc, fun a b => .inl ⟨by simp [Divides], by simp [Compares], _, rfl⟩⟩
  case cvtfu => exact ⟨_, exec_cvtfu, fun a b => .inl ⟨by simp [Divides], by simp [Compares], _, rfl⟩⟩
  case cvtfs => exact ⟨_, exec_cvtfs, fun a b => .inl ⟨by simp [Divides], by simp [Compares], _, rfl⟩⟩
  case cvtuf => exact ⟨_, exec_cvtuf, fun a b => .inl ⟨by simp [Divides], by simp [Compares], _, rfl⟩⟩
  case cvtsf => exact ⟨_, exec_cvtsf, fun a b => .inl ⟨by simp [Divides], by simp [Compares], _, rfl⟩⟩

theorem ResultShape.legal {i : Instr} {b : Value} {res : Result} (h : ResultShape i b res) : res.Legal := by
  rcases h with ⟨-, -, v, rfl⟩ | ⟨-, -, v, k, rfl⟩ | ⟨-, -, -, v, w, rfl⟩ | ⟨-, -, -, rfl⟩
  · exact legal_value v
  · exact legal_compared v k
  · exact legal_values v w
  · exact legal_raise (by decide)

/-- With a command in flight every command answers a next state: a result of its shape, committed. -/
theorem exec_some (i : Instr) {s : State} {p : Pending} (h : s.pend = some p) :
    ∃ res, exec i s = .next (s.commit res) ∧ ResultShape i p.b res := by
  obtain ⟨f, he, hf⟩ := exec_shape i
  exact ⟨_, (he s).trans (complete_some f h), hf _ _⟩

/-- If `exec` answers a next state, a command was in flight and a legal result was committed. -/
theorem exec_next {i : Instr} {s t : State} (h : exec i s = .next t) :
    ∃ p res, s.pend = some p ∧ res.Legal ∧ t = s.commit res := by
  obtain ⟨f, he, hf⟩ := exec_shape i
  rw [he] at h
  obtain ⟨p, hp, rfl⟩ := complete_next h
  exact ⟨p, _, hp, (hf _ _).legal, rfl⟩

theorem exec_not_refused (i : Instr) (s : State) (r : Refusal) : exec i s ≠ .refused r := by
  obtain ⟨f, he, -⟩ := exec_shape i
  rw [he, complete]
  split <;> simp

theorem completeIllegal_some {s : State} {p : Pending} (h : s.pend = some p) :
    completeIllegal s = .next { s with err := errIllegalCommand, pend := none } := by
  rw [completeIllegal, complete_some _ h, commit_raise_illegalCommand]

end Sys2Proof.Machine
end

