-- ==== Sys2Proof/Laws/Step.lean ====
section
/-! SUPPORT. Everything one step of the machine can do, said once. -/

namespace Sys2Proof.Machine

theorem turn_block {s : State} (h : s.blockNext) : turn s = blockTurn s.advance := by
  rcases h with h | ⟨rest, h⟩ <;> simp [turn, h]

theorem turn_host {s : State} {x : Access} {rest : List Event} (h : s.schedule = .host x :: rest) :
    turn s = .access x s.advance := by
  simp [turn, h]

theorem turn_reset {s : State} {rest : List Event} (h : s.schedule = .reset :: rest) : turn s = .reset s.advance := by
  simp [turn, h]

/-- The completion step of a word in flight (10_state.md R33). -/
theorem step_completion {s : State} {p : Pending} (hb : s.blockNext) (hp : s.pend = some p) :
    step s = match decode p.cmd with
      | .command i => exec i s.advance
      | .illegal _ => completeIllegal s.advance := by
  simp only [step, turn_block hb, blockTurn, advance_pend, hp]
  all_goals rfl

theorem step_command {s : State} {p : Pending} {i : Instr} (hb : s.blockNext) (hp : s.pend = some p)
    (hd : decode p.cmd = .command i) : step s = exec i s.advance := by
  rw [step_completion hb hp, hd]

theorem step_illegal {s : State} {p : Pending} {why : Illegal} (hb : s.blockNext) (hp : s.pend = some p)
    (hd : decode p.cmd = .illegal why) : step s = .next { s.advance with err := errIllegalCommand, pend := none } := by
  have hp' : s.advance.pend = some p := hp
  simp [step_completion hb hp, hd, completeIllegal_some hp']

theorem step_idle {s : State} (hb : s.blockNext) (hp : s.pend = none) : step s = .next s.advance := by
  simp [step, turn_block hb, blockTurn, hp]

/-- The completion of one command in flight commits one result, whatever else the state holds. -/
theorem step_commits (p : Pending) :
    ∃ res : Result, ∀ s : State, s.blockNext → s.pend = some p → step s = .next (s.advance.commit res) := by
  cases hd : decode p.cmd with
  | command i =>
    obtain ⟨f, he, -⟩ := exec_shape i
    exact ⟨f p.a p.b, fun s hb hp => by
      rw [step_command hb hp hd, he, complete_some f (show s.advance.pend = some p from hp)]⟩
  | illegal why =>
    exact ⟨Result.raise errIllegalCommand, fun s hb hp => by
      rw [step_completion hb hp]
      simp only [hd]
      rw [completeIllegal, complete_some _ (show s.advance.pend = some p from hp)]⟩

theorem step_host {s : State} {x : Access} {rest : List Event} (h : s.schedule = .host x :: rest) :
    step s = hostStep x s.advance := by
  simp [step, turn_host h]

theorem step_reset {s : State} {rest : List Event} (h : s.schedule = .reset :: rest) :
    step s = .next (applyReset s.advance) := by
  simp [step, turn_reset h]

/-- A schedule either gives the block its turn, or begins with a host access or a reset. -/
theorem schedule_cases (s : State) :
    s.blockNext ∨ (∃ x rest, s.schedule = .host x :: rest) ∨ (∃ rest, s.schedule = .reset :: rest) := by
  cases h : s.schedule with
  | nil => exact .inl (.inl h)
  | cons e rest =>
    cases e with
    | host x => exact .inr (.inl ⟨x, rest, rfl⟩)
    | block => exact .inl (.inr ⟨rest, h⟩)
    | reset => exact .inr (.inr ⟨rest, rfl⟩)

/-- If a step answers a next state, it was one of four: an idle turn, a completion that committed a legal result, a
host access, or a reset. -/
theorem step_next_cases {s t : State} (h : step s = .next t) :
    (s.blockNext ∧ s.pend = none ∧ t = s.advance) ∨
    (∃ p res, s.blockNext ∧ s.pend = some p ∧ res.Legal ∧ t = s.advance.commit res) ∨
    (∃ x rest, s.schedule = .host x :: rest ∧ hostStep x s.advance = .next t) ∨
    (∃ rest, s.schedule = .reset :: rest ∧ t = applyReset s.advance) := by
  rcases schedule_cases s with hb | ⟨x, rest, hx⟩ | ⟨rest, hr⟩
  · cases hp : s.pend with
    | none =>
      rw [step_idle hb hp] at h
      cases h
      exact .inl ⟨hb, rfl, rfl⟩
    | some p =>
      rw [step_completion hb hp] at h
      cases hd : decode p.cmd with
      | command i =>
        simp only [hd] at h
        obtain ⟨q, res, hq, hl, rfl⟩ := exec_next h
        exact .inr (.inl ⟨p, res, hb, rfl, hl, rfl⟩)
      | illegal why =>
        simp only [hd, completeIllegal] at h
        obtain ⟨q, hq, rfl⟩ := complete_next h
        exact .inr (.inl ⟨p, _, hb, rfl, legal_raise (by decide), rfl⟩)
  · rw [step_host hx] at h
    exact .inr (.inr (.inl ⟨x, rest, hx, h⟩))
  · rw [step_reset hr] at h
    cases h
    exact .inr (.inr (.inr ⟨rest, hr, rfl⟩))

end Sys2Proof.Machine
end

