-- ==== Sys2Proof/Laws/Host.lean ====
section
/-! SUPPORT. What one statement of the host, and one turn of the block beside it, can do. -/

namespace Sys2Proof.Machine

variable (h : HostState) (x off : Nat) (v : Word) (s : State)

@[simp] theorem hostAdvance_position : h.advance.position = h.position + 1 := rfl
@[simp] theorem hostAdvance_vars : h.advance.vars = h.vars := rfl
@[simp] theorem hostAdvance_lastReads : h.advance.lastReads = h.lastReads := rfl
@[simp] theorem hostAdvance_lookup : h.advance.lookup x = h.lookup x := rfl
@[simp] theorem receive_position : (h.receive off x s).position = h.position := rfl
@[simp] theorem receive_lastReads : (h.receive off x s).lastReads = (off, wordRead h off s) :: h.lastReads := rfl
@[simp] theorem receive_vars : (h.receive off x s).vars = (x, wordRead h off s) :: h.vars := rfl

/-- The latest word of a key is the one put last. -/
@[simp] theorem latest_cons_self (entries : List (Nat × Word)) : latest ((x, v) :: entries) x = some v := by
  simp [latest]

theorem latest_cons_ne (entries : List (Nat × Word)) {k : Nat} (hk : x ≠ k) :
    latest ((x, v) :: entries) k = latest entries k := by
  simp [latest, hk]

/-- The host's moving on changes no operand's value. -/
@[simp] theorem hostAdvance_valueIn (o : HostOperand) : o.valueIn h.advance = o.valueIn h := by cases o <;> rfl

@[simp] theorem hostAdvance_operandIn (o : Operand) : o.valueIn h.advance = o.valueIn h := by
  simp [Operand.valueIn]

theorem withOperand_value {o : HostOperand} {w : Word} (ho : o.valueIn h = some w) (k : Word → SystemOutcome) :
    withOperand h o k = k w := by
  cases o with
  | word w' => cases ho; rfl
  | var y => simp only [HostOperand.valueIn] at ho; simp [withOperand, withVar, ho]
  | lastRead off => simp only [HostOperand.valueIn] at ho; simp [withOperand, ho]

/-- The two words of an operand that has a value. -/
theorem operand_words {o : Operand} {w : Value} (ho : o.valueIn h = some w) :
    o.low.valueIn h = some (lo w) ∧ o.high.valueIn h = some (hi w) := by
  unfold Operand.valueIn at ho
  cases hh : o.high.valueIn h with
  | none => simp [hh] at ho
  | some vh =>
    cases hl : o.low.valueIn h with
    | none => simp [hh, hl] at ho
    | some vl =>
      simp only [hh, hl, Option.some.injEq] at ho
      simp [← ho]

@[simp] theorem literal_valueIn (w : Value) : (Operand.literal w).valueIn h = some w := by
  simp [Operand.valueIn, Operand.low, Operand.high, HostOperand.valueIn]

/-- An access through the window, made now. -/
theorem accessNow_read {off : Nat} (h4 : off % 4 = 0) (h64 : off < 64) :
    accessNow (accessRD off) s =
      .next { s with schedule := [], busReads := busRead s (regAt off) :: s.busReads } := by
  rw [accessNow, step_host rfl, accessRD, hostStep_read h4 h64]
  all_goals rfl

theorem accessNow_write {off : Nat} (h4 : off % 4 = 0) (h64 : off < 64) :
    accessNow (accessW off v) s = .next (busWrite { s with schedule := [] } (regAt off) v) := by
  rw [accessNow, step_host rfl, accessW, hostStep_write h4 h64]
  rfl

/-- `W` to the window with an operand that has a value: the write is made and the host goes on. -/
theorem hostStmt_w {off : Nat} (h4 : off % 4 = 0) (h64 : off < 64) {o : HostOperand} {w : Word} {y : System}
    (ho : o.valueIn y.host = some w) :
    hostStmt (.w off o) y = .next ⟨y.host.advance, busWrite { y.block with schedule := [] } (regAt off) w⟩ := by
  simp only [hostStmt, withOperand_value y.host ho, accessNow_write w y.block h4 h64, afterAccess]

/-- `RD` of the window: the host receives the register's word and goes on. -/
theorem hostStmt_rd {off : Nat} (h4 : off % 4 = 0) (h64 : off < 64) (x : Nat) (y : System) :
    ∃ s, hostStmt (.rd off x) y = .next ⟨(y.host.receive off x s).advance, s⟩ ∧
      s = { y.block with schedule := [], busReads := busRead y.block (regAt off) :: y.block.busReads } ∧
      wordRead y.host off s = busRead y.block (regAt off) := by
  refine ⟨_, by simp only [hostStmt, accessNow_read y.block h4 h64, afterAccess], rfl, ?_⟩
  simp [wordRead, Config.windowBytes, h64, returned]

/-- The host's turn at a statement of its program. -/
theorem systemStep_host {prog : List HostStmt} {y : System} {stmt : HostStmt}
    (hs : prog[y.host.position]? = some stmt) : systemStep prog false y = hostStmt stmt y := by
  simp [systemStep, hostTurn, hs]

@[simp] theorem systemRun_nil (prog : List HostStmt) (y : System) : systemRun prog [] y = .next y := rfl

theorem systemRun_cons {prog : List HostStmt} {blocks : Bool} {rest : List Bool} {y z : System}
    (hz : systemStep prog blocks y = .next z) : systemRun prog (blocks :: rest) y = systemRun prog rest z := by
  simp only [systemRun, hz]

/-- One run after another. -/
theorem systemRun_append {prog : List HostStmt} {turns : List Bool} (more : List Bool) {y z : System}
    (hz : systemRun prog turns y = .next z) : systemRun prog (turns ++ more) y = systemRun prog more z := by
  induction turns generalizing y with
  | nil => cases hz; rfl
  | cons blocks rest ih =>
    cases hs : systemStep prog blocks y with
    | next w =>
      rw [systemRun_cons hs] at hz
      rw [List.cons_append, systemRun_cons hs]
      exact ih hz
    | ended => simp [systemRun, hs] at hz
    | unassigned x => simp [systemRun, hs] at hz
    | unread off => simp [systemRun, hs] at hz
    | fault f => simp [systemRun, hs] at hz
    | refused r => simp [systemRun, hs] at hz

end Sys2Proof.Machine
end

