-- ==== Sys2Proof/Laws/Kernel.lean ====
section
/-! SUPPORT. What each kernel function computes, as one equation over `u` and `sgn`: the statements cite these and do
not unfold the word-pair algorithms. -/

namespace Sys2Proof.Machine

theorem carryWord_toNat (c : Bool) : (carryWord c).toNat = c.toNat := by
  cases c <;> rfl

/-- 40_add_sub.md R100's carry formula: 1 exactly when the low sum reaches 2^32. -/
theorem carry_formula (x y : Word) :
    ((bit31 x && bit31 y) || ((bit31 x || bit31 y) && !bit31 (x + y))) = decide (2 ^ 32 ≤ x.toNat + y.toNat) := by
  have hx := x.isLt
  have hy := y.isLt
  simp only [bit31_eq_decide, BitVec.toNat_add]
  by_cases h1 : 2 ^ 31 ≤ x.toNat <;> by_cases h2 : 2 ^ 31 ≤ y.toNat <;>
    by_cases h3 : 2 ^ 31 ≤ (x.toNat + y.toNat) % 2 ^ 32 <;> by_cases h4 : 2 ^ 32 ≤ x.toNat + y.toNat <;>
    simp only [h1, h2, h3, h4, decide_true, decide_false, Bool.and_true, Bool.and_false, Bool.or_true, Bool.or_false,
      Bool.not_true, Bool.not_false, reduceCtorEq] <;> omega

/-- 40_add_sub.md R102's borrow formula: 1 exactly when the low word is the smaller. -/
theorem borrow_formula (x y : Word) :
    ((!bit31 x && bit31 y) || ((!bit31 x || bit31 y) && bit31 (x - y))) = decide (x.toNat < y.toNat) := by
  have hx := x.isLt
  have hy := y.isLt
  simp only [bit31_eq_decide, BitVec.toNat_sub]
  by_cases h1 : 2 ^ 31 ≤ x.toNat <;> by_cases h2 : 2 ^ 31 ≤ y.toNat <;>
    by_cases h3 : 2 ^ 31 ≤ (2 ^ 32 - y.toNat + x.toNat) % 2 ^ 32 <;> by_cases h4 : x.toNat < y.toNat <;>
    simp only [h1, h2, h3, h4, decide_true, decide_false, Bool.and_true, Bool.and_false, Bool.or_true, Bool.or_false,
      Bool.not_true, Bool.not_false, reduceCtorEq] <;> omega

/-- The two-word adder is addition modulo 2^64 (40_add_sub.md R100). -/
theorem add64_eq (a b : Value) : add64 a b = a + b := by
  apply BitVec.eq_of_toNat_eq
  have ha := a.isLt
  have hb := b.isLt
  simp only [add64, toNat_pair, carry_formula, BitVec.toNat_add, carryWord_toNat, toNat_lo, toNat_hi]
  by_cases h : 2 ^ 32 ≤ a.toNat % 2 ^ 32 + b.toNat % 2 ^ 32 <;>
    simp only [h, decide_true, decide_false, Bool.toNat_true, Bool.toNat_false] <;> omega

/-- The two-word subtractor is subtraction modulo 2^64 (40_add_sub.md R102). -/
theorem sub64_eq (a b : Value) : sub64 a b = a - b := by
  apply BitVec.eq_of_toNat_eq
  have ha := a.isLt
  have hb := b.isLt
  simp only [sub64, toNat_pair, borrow_formula, BitVec.toNat_sub, carryWord_toNat, toNat_lo, toNat_hi]
  by_cases h : a.toNat % 2 ^ 32 < b.toNat % 2 ^ 32 <;>
    simp only [h, decide_true, decide_false, Bool.toNat_true, Bool.toNat_false] <;> omega

theorem pair_not (a : Value) : pair (~~~ hi a) (~~~ lo a) = ~~~ a := by
  apply BitVec.eq_of_toNat_eq
  have ha := a.isLt
  simp only [toNat_pair, BitVec.toNat_not, toNat_lo, toNat_hi]
  omega

/-- The negator is negation modulo 2^64 (42_sign.md R130). -/
theorem neg64_eq (a : Value) : neg64 a = -a := by
  rw [neg64, pair_not, add64_eq, BitVec.neg_eq_not_add]

theorem u_neg64 (a : Value) : u (neg64 a) = (2 ^ 64 - u a) % 2 ^ 64 := by
  rw [neg64_eq, u, BitVec.toNat_neg, u]

theorem shl64_eq (a : Value) (n : Nat) (h : n < 64) : shl64 a n = a <<< n := by
  apply BitVec.eq_of_getLsbD_eq
  intro i hi64
  rw [shl64]
  split_ifs with h0 h32
  · subst h0; simp
  · simp only [pair, BitVec.getLsbD_append, lo, BitVec.getLsbD_shiftLeft, BitVec.getLsbD_extractLsb', BitVec.getLsbD_zero]
    by_cases hi32 : i < 32
    · have : i < n := by omega
      simp [hi32, this]
    · by_cases hin : i < n
      · have : i - 32 < n - 32 := by omega
        simp [hi32, hin, this]
      · have e1 : i - 32 - (n - 32) = i - n := by omega
        have e2 : ¬ i - 32 < n - 32 := by omega
        have e3 : i - 32 < 32 := by omega
        have e4 : i - n < 32 := by omega
        simp [hi32, hin, e1, e2, e3, e4, hi64]
  · simp only [pair, BitVec.getLsbD_append, lo, hi, BitVec.getLsbD_shiftLeft, BitVec.getLsbD_extractLsb',
      BitVec.getLsbD_or, BitVec.getLsbD_ushiftRight]
    by_cases hi32 : i < 32
    · by_cases hin : i < n
      · simp [hi32, hin]
      · have e4 : i - n < 32 := by omega
        simp [hi32, hin, e4, hi64]
    · have hin : ¬ i < n := by omega
      have e3 : i - 32 < 32 := by omega
      by_cases hlow : i - 32 < n
      · have e1 : 32 - n + (i - 32) < 32 := by omega
        have e2 : 32 - n + (i - 32) = i - n := by omega
        simp [hi32, hin, hlow, e3, hi64, e2]
        omega
      · have e1 : 32 + (i - 32 - n) = i - n := by omega
        have e2 : ¬ 32 - n + (i - 32) < 32 := by omega
        have e4 : i - 32 - n < 32 := by omega
        simp [hi32, hin, hlow, e1, e3, e4, hi64]
        omega

theorem shr64_eq (a : Value) (n : Nat) (h : n < 64) : shr64 a n = a >>> n := by
  apply BitVec.eq_of_getLsbD_eq
  intro i hi64
  rw [shr64]
  split_ifs with h0 h32
  · subst h0; simp
  · simp only [pair, BitVec.getLsbD_append, hi, BitVec.getLsbD_ushiftRight, BitVec.getLsbD_extractLsb', BitVec.getLsbD_zero]
    by_cases hi32 : i < 32
    · have e1 : 32 + (n - 32 + i) = n + i := by omega
      by_cases e2 : n - 32 + i < 32
      · simp [hi32, e1, e2]
      · have : 64 ≤ n + i := by omega
        simp [hi32, e2, BitVec.getLsbD_of_ge _ _ this]
    · have : 64 ≤ n + i := by omega
      simp [hi32, BitVec.getLsbD_of_ge _ _ this]
  · simp only [pair, BitVec.getLsbD_append, lo, hi, BitVec.getLsbD_shiftLeft, BitVec.getLsbD_extractLsb',
      BitVec.getLsbD_or, BitVec.getLsbD_ushiftRight]
    by_cases hi32 : i < 32
    · by_cases e1 : n + i < 32
      · have e2 : i < 32 - n := by omega
        simp [hi32, e1, e2]
      · have e2 : ¬ i < 32 - n := by omega
        have e3 : 32 + (i - (32 - n)) = n + i := by omega
        have e4 : i - (32 - n) < 32 := by omega
        simp [hi32, e1, e2, e3, e4]
    · by_cases e1 : n + (i - 32) < 32
      · have e2 : 32 + (n + (i - 32)) = n + i := by omega
        simp [hi32, e1, e2]
      · have : 64 ≤ n + i := by omega
        simp [hi32, e1, BitVec.getLsbD_of_ge _ _ this]

/-- `shl64(a, n) = bits64(u(a) * 2^n)` (44_shift.md R150). -/
theorem u_shl64 (a : Value) (n : Nat) (h : n < 64) : u (shl64 a n) = u a * 2 ^ n % 2 ^ 64 := by
  rw [shl64_eq a n h, u, BitVec.toNat_shiftLeft, Nat.shiftLeft_eq, u]

/-- `shr64(a, n) = bits64(floor(u(a) / 2^n))` (44_shift.md R150). -/
theorem u_shr64 (a : Value) (n : Nat) (h : n < 64) : u (shr64 a n) = u a / 2 ^ n := by
  rw [shr64_eq a n h, u, BitVec.toNat_ushiftRight, Nat.shiftRight_eq_div_pow, u]

/-- `cmpU(a, b)` is the sign of `u(a) - u(b)` (45_compare.md R160). -/
theorem cmpU_eq (a b : Value) : cmpU a b = if u a < u b then -1 else if u a = u b then 0 else 1 := by
  have ha := toNat_eq_hi_lo a
  have hb := toNat_eq_hi_lo b
  have l1 := (lo a).isLt
  have l2 := (lo b).isLt
  simp only [cmpU, ne_eq, ← BitVec.toNat_inj, u]
  split_ifs <;> omega

theorem cmpU_neg_iff (a b : Value) : cmpU a b < 0 ↔ u a < u b := by
  rw [cmpU_eq]
  split_ifs <;> simp_all

theorem cmpU_nonneg_iff (a b : Value) : 0 ≤ cmpU a b ↔ u b ≤ u a := by
  rw [← not_lt, cmpU_neg_iff, not_lt]

theorem sgn_eq_hi_lo (a : Value) : sgn a = (hi a).toInt * 2 ^ 32 + (lo a).toNat := by
  have ha := toNat_eq_hi_lo a
  have l1 := (lo a).isLt
  have l2 := (hi a).isLt
  have l3 := a.isLt
  rw [sgn, BitVec.toInt_eq_toNat_cond, BitVec.toInt_eq_toNat_cond]
  split_ifs <;> push_cast <;> omega

/-- `cmpS(a, b)` is the sign of `s(a) - s(b)` (45_compare.md R160). -/
theorem cmpS_eq (a b : Value) : cmpS a b = if sgn a < sgn b then -1 else if sgn a = sgn b then 0 else 1 := by
  have ha := sgn_eq_hi_lo a
  have hb := sgn_eq_hi_lo b
  have l1 := (lo a).isLt
  have l2 := (lo b).isLt
  have eh : hi a = hi b ↔ (hi a).toInt = (hi b).toInt := BitVec.toInt_inj.symm
  have el : lo a = lo b ↔ (lo a).toNat = (lo b).toNat := BitVec.toNat_inj.symm
  simp only [cmpS, ne_eq, eh, el]
  split_ifs <;> omega

theorem clzBelow_le (w : Word) (k : Nat) : clzBelow w k ≤ k := by
  induction k with
  | zero => simp [clzBelow]
  | succ k ih => rw [clzBelow]; split_ifs <;> omega

/-- `clzBelow w k` counts the zeros of `w[k-1:0]` above its highest set bit. -/
theorem clzBelow_spec (w : Word) (k : Nat) :
    w.toNat % 2 ^ k < 2 ^ (k - clzBelow w k) ∧
      (w.toNat % 2 ^ k ≠ 0 → 2 ^ (k - clzBelow w k) ≤ 2 * (w.toNat % 2 ^ k)) := by
  induction k with
  | zero => simp [clzBelow, Nat.mod_one]
  | succ k ih =>
    have hbit : w.toNat % 2 ^ (k + 1) = w.toNat % 2 ^ k + 2 ^ k * (w.toNat / 2 ^ k % 2) := Nat.mod_pow_succ
    have hlt : w.toNat % 2 ^ k < 2 ^ k := Nat.mod_lt _ (by positivity)
    rw [clzBelow, BitVec.getLsbD, Nat.testBit_eq_decide_div_mod_eq]
    by_cases h : w.toNat / 2 ^ k % 2 = 1
    · rw [h, mul_one] at hbit
      simp only [h, decide_true, if_true, Nat.sub_zero, hbit]
      rw [pow_succ]
      omega
    · have h0 : w.toNat / 2 ^ k % 2 = 0 := by omega
      have e : k + 1 - (clzBelow w k + 1) = k - clzBelow w k := by omega
      simp only [h0, hbit, e, Nat.mul_zero, Nat.add_zero, zero_ne_one, decide_false, Bool.false_eq_true, if_false]
      exact ih

theorem clz32_le (w : Word) : clz32 w ≤ 32 := clzBelow_le w 32

theorem clz32_spec (w : Word) :
    w.toNat < 2 ^ (32 - clz32 w) ∧ (w.toNat ≠ 0 → 2 ^ (32 - clz32 w) ≤ 2 * w.toNat) := by
  have h := clzBelow_spec w 32
  rwa [Nat.mod_eq_of_lt w.isLt] at h

theorem lzc64_le (a : Value) : lzc64 a ≤ 64 := by
  have h1 := clz32_le (hi a)
  have h2 := clz32_le (lo a)
  rw [lzc64]
  split_ifs <;> omega

/-- `lzc64(a)` places the highest set bit: `2^(63 - lzc) ≤ u(a) < 2^(64 - lzc)` for `a` not zero (46_count.md R170). -/
theorem lzc64_spec (a : Value) : u a < 2 ^ (64 - lzc64 a) ∧ (u a ≠ 0 → 2 ^ (64 - lzc64 a) ≤ 2 * u a) := by
  have ha := toNat_eq_hi_lo a
  have hl := (lo a).isLt
  have c1 := clz32_le (hi a)
  have c2 := clz32_le (lo a)
  rw [lzc64, u]
  split_ifs with h
  · have h0 : (hi a).toNat ≠ 0 := by
      intro h0
      exact h (BitVec.eq_of_toNat_eq h0)
    have e : 64 - clz32 (hi a) = (32 - clz32 (hi a)) + 32 := by omega
    obtain ⟨s1, s2⟩ := clz32_spec (hi a)
    have s2 := s2 h0
    rw [e, pow_add]
    omega
  · have h0 : (hi a).toNat = 0 := by
      have := not_not.mp h
      rw [this]; rfl
    have e : 64 - (32 + clz32 (lo a)) = 32 - clz32 (lo a) := by omega
    have s := clz32_spec (lo a)
    have e2 : a.toNat = (lo a).toNat := by omega
    rw [e, e2]
    exact s

theorem lzc64_pos_of_lt (a : Value) : 1 ≤ lzc64 a ↔ u a < 2 ^ 63 := by
  obtain ⟨s1, s2⟩ := lzc64_spec a
  constructor
  · intro h
    exact s1.trans_le (Nat.pow_le_pow_right (by norm_num) (by omega))
  · intro h
    by_contra h0
    have e : lzc64 a = 0 := by omega
    rw [e] at s2
    have hz : u a ≠ 0 := by
      intro hz
      have hv : a = 0#64 := BitVec.eq_of_toNat_eq hz
      rw [hv] at e
      exact absurd e (by decide)
    have := s2 hz
    omega

/-- The magnitude of a signed operand is its absolute value as an unsigned number (41_muldiv.md R120: 2^63 for `MIN_S`). -/
theorem u_magnitude (a : Value) : u (magnitude a) = (sgn a).natAbs := by
  have ha := a.isLt
  rw [magnitude, sgn_eq, signBit_eq_decide]
  split_ifs with h <;> simp only [decide_eq_true_eq] at h
  · rw [u_neg64, u]; omega
  · simp [u]

end Sys2Proof.Machine
end

