-- ==== Sys2Proof/Laws/MulDiv.lean ====
section
/-! SUPPORT. The multiplier's loop (41_muldiv.md R110), the restoring divider's loop (R113), and the signed paths
(R112, R116), each as one equation. -/

namespace Sys2Proof.Machine

theorem split_low_bit (t : Value) : t = (t >>> 1) * 2#64 + (if t.getLsbD 0 then 1#64 else 0#64) := by
  apply BitVec.eq_of_toNat_eq
  have ht := t.isLt
  rw [BitVec.getLsbD, Nat.testBit_zero, BitVec.toNat_add, BitVec.toNat_mul, BitVec.toNat_ushiftRight,
    Nat.shiftRight_eq_div_pow]
  by_cases h : t.toNat % 2 = 1 <;> simp only [h, decide_true, decide_false, if_true, if_false, Bool.false_eq_true] <;>
    simp <;> omega

/-- The loop adds `base * t` to the accumulator, if it may go round once per bit of `t`. -/
theorem mulLoop_eq (fuel : Nat) (acc base t : Value) (h : u t < 2 ^ fuel) : mulLoop fuel acc base t = acc + base * t := by
  induction fuel generalizing acc base t with
  | zero =>
    have : t = 0#64 := BitVec.eq_of_toNat_eq (by simpa [u] using h)
    subst this
    simp [mulLoop]
  | succ fuel ih =>
    by_cases h0 : t = ZERO
    · subst h0; simp [mulLoop]
    · have hlt : u (shr64 t 1) < 2 ^ fuel := by
        rw [u_shr64 t 1 (by norm_num)]
        rw [pow_succ] at h
        omega
      have hbase : shl64 base 1 = base * 2#64 := by
        rw [shl64_eq base 1 (by norm_num)]
        apply BitVec.eq_of_toNat_eq
        simp [BitVec.toNat_shiftLeft, Nat.shiftLeft_eq, BitVec.toNat_mul]
      rw [mulLoop, if_neg h0, ih _ _ _ hlt, hbase, shr64_eq t 1 (by norm_num), add64_eq]
      conv_rhs => rw [split_low_bit t, mul_add]
      by_cases hb : t.getLsbD 0 = true
      · rw [if_pos hb, if_pos hb, BitVec.mul_one]; ring
      · rw [if_neg hb, if_neg hb, BitVec.mul_zero, BitVec.add_zero]; ring

/-- `mulU(a, b) = bits64(u(a) * u(b))` (41_muldiv.md R110, 92_eei_decisions.md D25). -/
theorem mulU_eq (a b : Value) : mulU a b = a * b := by
  rw [mulU]
  split_ifs
  · rw [mulLoop_eq 64 _ _ _ b.isLt]; simp
  · rw [mulLoop_eq 64 _ _ _ a.isLt, mul_comm b a]; simp

theorem magnitude_eq (a : Value) : magnitude a = if signBit a then -a else a := by
  rw [magnitude, neg64_eq]

/-- MULS writes what MULU writes (41_muldiv.md R112, R121). -/
theorem mulS_eq (a b : Value) : mulS a b = a * b := by
  rw [mulS]
  split_ifs with h0 hs
  · rcases h0 with h | h <;> subst h <;> simp
  · rw [neg64_eq, mulU_eq, magnitude_eq, magnitude_eq]
    cases ha : signBit a <;> cases hb : signBit b <;> simp_all
  · rw [mulU_eq, magnitude_eq, magnitude_eq]
    cases ha : signBit a <;> cases hb : signBit b <;> simp_all

theorem u_shl64_one_or_one (q : Value) (h : 2 * u q < 2 ^ 64) : u (shl64 q 1 ||| ONE) = 2 * u q + 1 := by
  have e : u (shl64 q 1) = u q <<< 1 := by
    rw [u_shl64 q 1 (by norm_num), Nat.shiftLeft_eq, Nat.mod_eq_of_lt (by omega)]
  have e' : (shl64 q 1).toNat = u q <<< 1 := e
  rw [u, BitVec.toNat_or, e', show ONE.toNat = 1 from rfl, ← Nat.shiftLeft_add_eq_or_of_lt (by norm_num), Nat.shiftLeft_eq]
  omega

theorem u_sub64 (a b : Value) (h : u b ≤ u a) : u (sub64 a b) = u a - u b := by
  have ha := a.isLt
  rw [sub64_eq, u, BitVec.toNat_sub, u, u]
  rw [u, u] at h
  omega

/-- The restoring loop divides `r` by `n`, when the shifted divisor is `n` times the weight of the next quotient bit. -/
theorem divLoop_spec (n : Nat) (hn : 0 < n) (k : Nat) (d q r : Value) (hd : k ≠ 0 → u d = n * 2 ^ (k - 1))
    (hr : u r < n * 2 ^ k) (hq : u q * 2 ^ k + u r / n < 2 ^ 64) :
    u (divLoop k d q r).1 = u q * 2 ^ k + u r / n ∧ u (divLoop k d q r).2 = u r % n := by
  induction k generalizing d q r with
  | zero =>
    have hr' : u r < n := by simpa using hr
    simp [divLoop, Nat.div_eq_of_lt hr', Nat.mod_eq_of_lt hr']
  | succ k ih =>
    have hd := hd (by omega)
    simp only [Nat.add_sub_cancel] at hd
    have hpos : 0 < 2 ^ k := by positivity
    have hq2 : u q * 2 ^ (k + 1) = 2 * u q * 2 ^ k := by ring
    have hd' : k ≠ 0 → u (shr64 d 1) = n * 2 ^ (k - 1) := by
      intro hk
      obtain ⟨j, rfl⟩ := Nat.exists_eq_succ_of_ne_zero hk
      rw [u_shr64 d 1 (by norm_num), hd]
      simp only [Nat.succ_eq_add_one, Nat.add_sub_cancel, pow_succ]
      rw [← mul_assoc]
      omega
    have hq64 : 2 * u q < 2 ^ 64 := by
      have h1 : 2 * u q ≤ 2 * u q * 2 ^ k := Nat.le_mul_of_pos_right _ hpos
      have h2 := lt_of_le_of_lt (Nat.le_add_right _ _) hq
      omega
    rw [divLoop]
    simp only [cmpU_nonneg_iff]
    split_ifs with hle
    · have hsub : u r - u d < n * 2 ^ k := by
        rw [pow_succ] at hr
        have : n * (2 ^ k * 2) = 2 * (n * 2 ^ k) := by ring
        omega
      have hdiv : u r / n = 2 ^ k + (u r - u d) / n := by
        have : u r = n * 2 ^ k + (u r - u d) := by omega
        conv_lhs => rw [this]
        rw [Nat.mul_add_div hn]
      have hmod : u r % n = (u r - u d) % n := by
        have : u r = n * 2 ^ k + (u r - u d) := by omega
        conv_lhs => rw [this]
        rw [Nat.mul_add_mod]
      have key := ih (shr64 d 1) (shl64 q 1 ||| ONE) (sub64 r d) hd' (by rw [u_sub64 r d hle]; exact hsub)
        (by rw [u_sub64 r d hle, u_shl64_one_or_one q hq64, add_mul]; omega)
      rw [u_sub64 r d hle, u_shl64_one_or_one q hq64] at key
      rw [key.1, key.2, hmod, add_mul]
      exact ⟨by omega, rfl⟩
    · have hlt : u r < n * 2 ^ k := by omega
      have hs : u (shl64 q 1) = 2 * u q := by
        rw [u_shl64 q 1 (by norm_num), Nat.mod_eq_of_lt (by omega)]; omega
      have key := ih (shr64 d 1) (shl64 q 1) r hd' hlt (by rw [hs]; omega)
      rw [hs] at key
      rw [key.1, key.2]
      exact ⟨by omega, rfl⟩

/-- The alignment of R113: for `0 < u(b) < u(a)` the divisor is shifted by at most 63 places, losing no bit, and twice
the shifted divisor exceeds the dividend. -/
theorem align_spec (a b : Value) (hb : b ≠ ZERO) (hab : u b < u a) :
    lzc64 b - lzc64 a < 64 ∧ u b * 2 ^ (lzc64 b - lzc64 a) < 2 ^ 64 ∧ u a < u b * 2 ^ (lzc64 b - lzc64 a + 1) := by
  have hb0 : u b ≠ 0 := by
    intro h
    exact hb (BitVec.eq_of_toNat_eq h)
  obtain ⟨a1, a2⟩ := lzc64_spec a
  obtain ⟨b1, b2⟩ := lzc64_spec b
  have a2 := a2 (by omega)
  have b2 := b2 hb0
  have la := lzc64_le a
  have lb := lzc64_le b
  have hle : lzc64 a ≤ lzc64 b := by
    by_contra hlt
    have : 2 ^ (64 - lzc64 a) ≤ 2 ^ (64 - lzc64 b - 1) := Nat.pow_le_pow_right (by norm_num) (by omega)
    have e : 2 ^ (64 - lzc64 b) = 2 * 2 ^ (64 - lzc64 b - 1) := by
      rw [← pow_succ']; congr 1; omega
    omega
  have hb64 : lzc64 b ≠ 64 := by
    intro h
    rw [h] at b1
    simp at b1
    omega
  have e1 : 2 ^ (64 - lzc64 b) * 2 ^ (lzc64 b - lzc64 a) = 2 ^ (64 - lzc64 a) := by
    rw [← pow_add]; congr 1; omega
  have e2 : 2 ^ (64 - lzc64 a) ≤ 2 ^ 64 := Nat.pow_le_pow_right (by norm_num) (by omega)
  have hpos : 0 < 2 ^ (lzc64 b - lzc64 a) := by positivity
  refine ⟨by omega, ?_, ?_⟩
  · have := Nat.mul_lt_mul_of_pos_right b1 hpos
    omega
  · have h := Nat.mul_le_mul_right (2 ^ (lzc64 b - lzc64 a)) b2
    rw [e1] at h
    have e3 : u b * 2 ^ (lzc64 b - lzc64 a + 1) = 2 * u b * 2 ^ (lzc64 b - lzc64 a) := by ring
    omega

/-- The divider meets its postcondition for every dividend and every nonzero divisor (41_muldiv.md R113). -/
theorem divremU_spec (a b : Value) (hb : b ≠ ZERO) :
    u (divremU a b).1 = u a / u b ∧ u (divremU a b).2 = u a % u b := by
  have hb0 : 0 < u b := Nat.pos_of_ne_zero fun h => hb (BitVec.eq_of_toNat_eq h)
  rw [divremU]
  simp only [cmpU_neg_iff]
  split_ifs with hlt heq
  · simp [Nat.div_eq_of_lt hlt, Nat.mod_eq_of_lt hlt]; rfl
  · subst heq
    simp [Nat.div_self hb0, Nat.mod_self]
    exact ⟨rfl, rfl⟩
  · have hab : u b < u a := by
      have : u a ≠ u b := fun h => heq (BitVec.eq_of_toNat_eq h)
      omega
    obtain ⟨h1, h2, h3⟩ := align_spec a b hb hab
    have key := divLoop_spec (u b) hb0 (lzc64 b - lzc64 a + 1) (shl64 b (lzc64 b - lzc64 a)) ZERO a
      (by intro _; rw [u_shl64 b _ h1, Nat.mod_eq_of_lt h2]; simp) h3
      (by
        have h : u a / u b ≤ u a := Nat.div_le_self _ _
        have := a.isLt
        have z : u ZERO = 0 := rfl
        rw [z, u] at *
        omega)
    have z : u ZERO = 0 := rfl
    rw [z, zero_mul, zero_add] at key
    exact key

theorem divremU_fst (a b : Value) (hb : b ≠ ZERO) : (divremU a b).1 = BitVec.ofNat 64 (u a / u b) := by
  rw [← (divremU_spec a b hb).1, u, BitVec.ofNat_toNat, BitVec.setWidth_eq]

theorem divremU_snd (a b : Value) (hb : b ≠ ZERO) : (divremU a b).2 = BitVec.ofNat 64 (u a % u b) := by
  rw [← (divremU_spec a b hb).2, u, BitVec.ofNat_toNat, BitVec.setWidth_eq]

theorem magnitude_ne_zero (b : Value) (hb : b ≠ ZERO) : magnitude b ≠ ZERO := by
  rw [magnitude_eq]
  split_ifs
  · simpa using hb
  · exact hb

theorem neg64_ofNat (n : Nat) : neg64 (BitVec.ofNat 64 n) = bits64 (-(n : Int)) := by
  rw [neg64_eq, bits64, BitVec.ofInt_neg, BitVec.ofInt_natCast]

theorem eq_natAbs_of_nonneg {x : Int} (h : ¬ x < 0) : x = (x.natAbs : Int) := by omega
theorem eq_neg_natAbs_of_neg {x : Int} (h : x < 0) : x = -(x.natAbs : Int) := by omega

theorem tdiv_eq_natAbs (x y : Int) :
    x.tdiv y = if decide (x < 0) ^^ decide (y < 0) then -((x.natAbs / y.natAbs : Nat) : Int)
      else ((x.natAbs / y.natAbs : Nat) : Int) := by
  by_cases hx : x < 0 <;> by_cases hy : y < 0
  · conv_lhs => rw [eq_neg_natAbs_of_neg hx, eq_neg_natAbs_of_neg hy, Int.neg_tdiv, Int.tdiv_neg, neg_neg, ← Int.ofNat_tdiv]
    simp [hx, hy]
  · conv_lhs => rw [eq_neg_natAbs_of_neg hx, eq_natAbs_of_nonneg hy, Int.neg_tdiv, ← Int.ofNat_tdiv]
    simp [hx, hy]
  · conv_lhs => rw [eq_natAbs_of_nonneg hx, eq_neg_natAbs_of_neg hy, Int.tdiv_neg, ← Int.ofNat_tdiv]
    simp [hx, hy]
  · conv_lhs => rw [eq_natAbs_of_nonneg hx, eq_natAbs_of_nonneg hy, ← Int.ofNat_tdiv]
    simp [hx, hy]

theorem tmod_eq_natAbs (x y : Int) :
    x.tmod y = if x < 0 then -((x.natAbs % y.natAbs : Nat) : Int) else ((x.natAbs % y.natAbs : Nat) : Int) := by
  have hy : x.tmod y = x.tmod (y.natAbs : Int) := by
    by_cases hy : y < 0
    · conv_lhs => rw [eq_neg_natAbs_of_neg hy, Int.tmod_neg]
    · conv_lhs => rw [eq_natAbs_of_nonneg hy]
  rw [hy]
  split_ifs with hx
  · conv_lhs => rw [eq_neg_natAbs_of_neg hx, Int.neg_tmod, ← Int.ofNat_tmod]
  · conv_lhs => rw [eq_natAbs_of_nonneg hx, ← Int.ofNat_tmod]

theorem signBit_eq_sgn (a : Value) : signBit a = decide (sgn a < 0) := by
  have := sgn_neg_iff a
  cases h : signBit a <;> simp_all

/-- Signed division truncates toward zero and wraps modulo 2^64 (41_muldiv.md R116, R117, R120). -/
theorem divremS_fst (a b : Value) (hb : b ≠ ZERO) : (divremS a b).1 = bits64 ((sgn a).tdiv (sgn b)) := by
  rw [divremS, divremU_fst _ _ (magnitude_ne_zero b hb), u_magnitude, u_magnitude, tdiv_eq_natAbs, ← signBit_eq_sgn,
    ← signBit_eq_sgn, neg64_ofNat, apply_ite bits64, bits64_natCast]

/-- The signed remainder has the dividend's sign (41_muldiv.md R116, R118). -/
theorem divremS_snd (a b : Value) (hb : b ≠ ZERO) : (divremS a b).2 = bits64 ((sgn a).tmod (sgn b)) := by
  rw [divremS, divremU_snd _ _ (magnitude_ne_zero b hb), u_magnitude, u_magnitude, tmod_eq_natAbs, neg64_ofNat,
    apply_ite bits64, bits64_natCast]
  simp only [sgn_neg_iff]

end Sys2Proof.Machine
end

