-- ==== Sys2Proof/Laws/PerInstr.lean ====
section
/-! SUPPORT. 30_encoding.md R61 for each command: `OPC[7:4]` is the group of its unit, and in groups 0x2, 0x6 and 0x8
`OPC[0]` is 1 for the signed commands. -/

namespace Sys2Proof.Laws.OpcFields

/-- The group of each command's unit, by R61's table of units. -/
def groupOf (i : Instr) : BitVec 4 :=
  match i with
  | .add | .sub => 0x1
  | .mulu | .muls | .divu | .divs | .remu | .rems => 0x2
  | .neg | .abs => 0x3
  | .and | .or | .xor | .not => 0x4
  | .sll | .srl | .sra => 0x5
  | .cmpu | .cmps | .minu | .mins | .maxu | .maxs => 0x6
  | .lzc => 0x7
  | .cvtfu | .cvtfs | .cvtuf | .cvtsf => 0x8

/-- Whether a command of groups 0x2, 0x6 and 0x8 reads its operands as signed; none in the other groups. -/
def signedReading (i : Instr) : Option Bool :=
  match i with
  | .mulu | .divu | .remu | .cmpu | .minu | .maxu | .cvtfu | .cvtuf => some false
  | .muls | .divs | .rems | .cmps | .mins | .maxs | .cvtfs | .cvtsf => some true
  | .add | .sub | .neg | .abs | .and | .or | .xor | .not | .sll | .srl | .sra | .lzc => none

/-- The encoding's two subfields are as R61 says. -/
def Statement (i : Instr) : Prop :=
  opcGroup (encode i) = groupOf i ∧ (signedReading i = none ∨ signedReading i = some (opcSigned (encode i)))

theorem add : Statement .add := by unfold Statement; decide
theorem sub : Statement .sub := by unfold Statement; decide
theorem mulu : Statement .mulu := by unfold Statement; decide
theorem muls : Statement .muls := by unfold Statement; decide
theorem divu : Statement .divu := by unfold Statement; decide
theorem divs : Statement .divs := by unfold Statement; decide
theorem remu : Statement .remu := by unfold Statement; decide
theorem rems : Statement .rems := by unfold Statement; decide
theorem neg : Statement .neg := by unfold Statement; decide
theorem abs : Statement .abs := by unfold Statement; decide
theorem and : Statement .and := by unfold Statement; decide
theorem or : Statement .or := by unfold Statement; decide
theorem xor : Statement .xor := by unfold Statement; decide
theorem not : Statement .not := by unfold Statement; decide
theorem sll : Statement .sll := by unfold Statement; decide
theorem srl : Statement .srl := by unfold Statement; decide
theorem sra : Statement .sra := by unfold Statement; decide
theorem cmpu : Statement .cmpu := by unfold Statement; decide
theorem cmps : Statement .cmps := by unfold Statement; decide
theorem minu : Statement .minu := by unfold Statement; decide
theorem mins : Statement .mins := by unfold Statement; decide
theorem maxu : Statement .maxu := by unfold Statement; decide
theorem maxs : Statement .maxs := by unfold Statement; decide
theorem lzc : Statement .lzc := by unfold Statement; decide
theorem cvtfu : Statement .cvtfu := by unfold Statement; decide
theorem cvtfs : Statement .cvtfs := by unfold Statement; decide
theorem cvtuf : Statement .cvtuf := by unfold Statement; decide
theorem cvtsf : Statement .cvtsf := by unfold Statement; decide

end Sys2Proof.Laws.OpcFields
end

