-- ==== Sys2Proof/Laws/Run.lean ====
section
/-! SUPPORT. Runs of several steps: one step at a time, and one run after another. -/

namespace Sys2Proof.Machine

@[simp] theorem runFor_zero (s : State) : runFor 0 s = .next s := rfl

theorem runFor_succ_eq (n : Nat) (s : State) :
    runFor (n + 1) s =
      match step s with
      | .next s' => runFor n s'
      | .fault r => .fault r
      | .refused r => .refused r := by
  have h := Host.Core.run.eq_2 core s n
  have hstep : core.step s = step s := rfl
  rw [hstep] at h
  unfold runFor
  rw [h]
  cases step s <;> rfl

theorem runFor_succ {n : Nat} {s t : State} (h : step s = .next t) : runFor (n + 1) s = runFor n t := by
  rw [runFor_succ_eq, h]

theorem runFor_one (s : State) : runFor 1 s = step s := by
  rw [runFor_succ_eq 0]
  cases step s <;> rfl

/-- A run that answers a next state began with a step that did. -/
theorem runFor_succ_next {n : Nat} {s t : State} (h : runFor (n + 1) s = .next t) :
    ∃ s', step s = .next s' ∧ runFor n s' = .next t := by
  rw [runFor_succ_eq] at h
  cases hs : step s with
  | next s' => exact ⟨s', rfl, by simpa [hs] using h⟩
  | fault r => simp [hs] at h
  | refused r => simp [hs] at h

theorem runFor_add {n : Nat} (m : Nat) {s t : State} (h : runFor n s = .next t) : runFor (n + m) s = runFor m t := by
  induction n generalizing s with
  | zero => cases h; rw [Nat.zero_add]
  | succ n ih =>
    obtain ⟨s', hs, h'⟩ := runFor_succ_next h
    rw [show n + 1 + m = n + m + 1 by omega, runFor_succ hs]
    exact ih h'

end Sys2Proof.Machine
end

