-- ==== Sys2Proof/Laws/Shift.lean ====
section
/-! SUPPORT. The arithmetic right shift of 44_shift.md R153. -/

namespace Sys2Proof.Machine

theorem asr32_eq (w : Word) (k : Nat) : asr32 w k = w.sshiftRight k := by
  rw [asr32, ← BitVec.ofInt_toInt (x := w.sshiftRight k), BitVec.toInt_sshiftRight, Int.shiftRight_eq_div_pow]
  norm_num

/-- The word-pair form of R153 is the arithmetic shift of the whole value. -/
theorem sra64_eq (a : Value) (n : Nat) (h : n < 64) : sra64 a n = a.sshiftRight n := by
  have hmsb : a.msb = a.getLsbD 63 := by simp [BitVec.msb_eq_getLsbD_last]
  have hmsbHi : (hi a).msb = a.getLsbD 63 := by simp [hi, BitVec.msb_eq_getLsbD_last]
  apply BitVec.eq_of_getLsbD_eq
  intro i hi64
  have hi64' : ¬ 64 ≤ i := by omega
  by_cases h0 : n = 0
  · subst h0; simp [sra64]
  by_cases h32 : 32 ≤ n
  · rw [sra64, if_neg h0, if_pos h32, BitVec.getLsbD_sshiftRight, hmsb, pair, BitVec.getLsbD_append, asr32_eq,
      BitVec.getLsbD_sshiftRight, hmsbHi]
    by_cases hi32 : i < 32
    · have e0 : ¬ 32 ≤ i := by omega
      by_cases e1 : n - 32 + i < 32
      · have e2 : n + i < 64 := by omega
        have e3 : 32 + (n - 32 + i) = n + i := by omega
        simp [hi32, e0, e1, e2, e3, hi64', hi]
      · have e2 : ¬ n + i < 64 := by omega
        simp [hi32, e0, e1, e2, hi64']
    · have e1 : i - 32 < 32 := by omega
      have e2 : ¬ n + i < 64 := by omega
      have ones : (0xFFFFFFFF#32).getLsbD (i - 32) = true := by
        rw [show (0xFFFFFFFF#32) = BitVec.allOnes 32 from rfl, BitVec.getLsbD_allOnes]
        simpa using e1
      rw [signBit]
      cases a.getLsbD 63 <;> simp [hi32, e2, hi64', ones]
  · rw [sra64, if_neg h0, if_neg h32, BitVec.getLsbD_sshiftRight, hmsb, pair, BitVec.getLsbD_append, asr32_eq,
      BitVec.getLsbD_sshiftRight, hmsbHi]
    by_cases hi32 : i < 32
    · have e2 : n + i < 64 := by omega
      by_cases e1 : n + i < 32
      · have e3 : i < 32 - n := by omega
        simp [hi32, e1, e2, e3, hi64', lo]
      · have e3 : ¬ i < 32 - n := by omega
        have e4 : 32 + (i - (32 - n)) = n + i := by omega
        simp [hi32, e1, e2, e3, e4, hi64', lo, hi]
    · have e0 : ¬ 32 ≤ i - 32 := by omega
      by_cases e1 : n + (i - 32) < 32
      · have e2 : n + i < 64 := by omega
        have e3 : 32 + (n + (i - 32)) = n + i := by omega
        simp [hi32, e0, e1, e2, e3, hi64', hi]
      · have e2 : ¬ n + i < 64 := by omega
        simp [hi32, e0, e1, e2, hi64']

/-- `R = bits64(floor(s(a) / 2^n))` (44_shift.md R153). -/
theorem sra64_bits (a : Value) (n : Nat) (h : n < 64) : sra64 a n = bits64 (sgn a / 2 ^ n) := by
  rw [sra64_eq a n h, bits64, ← BitVec.ofInt_toInt (x := a.sshiftRight n), BitVec.toInt_sshiftRight,
    Int.shiftRight_eq_div_pow, sgn]
  norm_num

end Sys2Proof.Machine
end

