-- ==== Sys2Proof/Tests/Slice0.lean ====
section
/-! SUPPORT. The model's own tests. Expected results come from spec/: the words from 30_encoding.md R60 and R63, the
values from 95_test_vectors.md (named by its part) or worked from the rule by hand. -/

namespace Sys2Proof.Tests

open Sys2Proof Sys2Proof.Machine

/-! ## Well-formedness: one ill-formed word for each check (30_encoding.md R64) -/

theorem test_smoke_wellFormed_reserved_bits : commandWordLegal 0x00000110#32 = false := by decide
theorem test_smoke_wellFormed_group_zero : commandWordLegal 0x00000000#32 = false := by decide
theorem test_smoke_wellFormed_group_nine : commandWordLegal 0x00000090#32 = false := by decide
theorem test_smoke_wellFormed_unused_function : commandWordLegal 0x00000026#32 = false := by decide
theorem test_smoke_wellFormed_top_bit : commandWordLegal 0x80000010#32 = false := by decide
theorem test_wellFormed_accepts_add : commandWordLegal 0x00000010#32 = true := by decide
theorem test_wellFormed_accepts_cvtsf : commandWordLegal 0x00000083#32 = true := by decide

/-! ## Decoding: every command's word, written out from R60 (`RSVD` 24 bits, group 4 bits, function 4 bits) -/

theorem test_decode_add : decode 0b00000000000000000000000000010000#32 = .command .add := by decide
theorem test_decode_sub : decode 0b00000000000000000000000000010001#32 = .command .sub := by decide
theorem test_decode_mulu : decode 0b00000000000000000000000000100000#32 = .command .mulu := by decide
theorem test_decode_muls : decode 0b00000000000000000000000000100001#32 = .command .muls := by decide
theorem test_decode_divu : decode 0b00000000000000000000000000100010#32 = .command .divu := by decide
theorem test_decode_divs : decode 0b00000000000000000000000000100011#32 = .command .divs := by decide
theorem test_decode_remu : decode 0b00000000000000000000000000100100#32 = .command .remu := by decide
theorem test_decode_rems : decode 0b00000000000000000000000000100101#32 = .command .rems := by decide
theorem test_decode_neg : decode 0b00000000000000000000000000110000#32 = .command .neg := by decide
theorem test_decode_abs : decode 0b00000000000000000000000000110001#32 = .command .abs := by decide
theorem test_decode_and : decode 0b00000000000000000000000001000000#32 = .command .and := by decide
theorem test_decode_or : decode 0b00000000000000000000000001000001#32 = .command .or := by decide
theorem test_decode_xor : decode 0b00000000000000000000000001000010#32 = .command .xor := by decide
theorem test_decode_not : decode 0b00000000000000000000000001000011#32 = .command .not := by decide
theorem test_decode_sll : decode 0b00000000000000000000000001010000#32 = .command .sll := by decide
theorem test_decode_srl : decode 0b00000000000000000000000001010001#32 = .command .srl := by decide
theorem test_decode_sra : decode 0b00000000000000000000000001010010#32 = .command .sra := by decide
theorem test_decode_cmpu : decode 0b00000000000000000000000001100000#32 = .command .cmpu := by decide
theorem test_decode_cmps : decode 0b00000000000000000000000001100001#32 = .command .cmps := by decide
theorem test_decode_minu : decode 0b00000000000000000000000001100010#32 = .command .minu := by decide
theorem test_decode_mins : decode 0b00000000000000000000000001100011#32 = .command .mins := by decide
theorem test_decode_maxu : decode 0b00000000000000000000000001100100#32 = .command .maxu := by decide
theorem test_decode_maxs : decode 0b00000000000000000000000001100101#32 = .command .maxs := by decide
theorem test_decode_lzc : decode 0b00000000000000000000000001110000#32 = .command .lzc := by decide
theorem test_decode_cvtfu : decode 0b00000000000000000000000010000000#32 = .command .cvtfu := by decide
theorem test_decode_cvtfs : decode 0b00000000000000000000000010000001#32 = .command .cvtfs := by decide
theorem test_decode_cvtuf : decode 0b00000000000000000000000010000010#32 = .command .cvtuf := by decide
theorem test_decode_cvtsf : decode 0b00000000000000000000000010000011#32 = .command .cvtsf := by decide
theorem test_decode_refuses_reserved : decode 0x00000110#32 = .illegal (.reservedBits 1#24) := by decide
theorem test_decode_refuses_unused : decode 0x00000012#32 = .illegal (.unassigned 0x12#8) := by decide
theorem test_decode_refuses_zero : decode 0x00000000#32 = .illegal (.unassigned 0#8) := by decide
theorem test_decodeTableWord_reads_bits : decodeTableWord 32 0x52 = some .sra := by decide
theorem test_decodeTableWord_short_row : decodeTableWord 8 0x52 = some .sra := by decide
theorem test_decodeTableWord_refuses : decodeTableWord 32 0x152 = none := by decide

/-! ## One command each: the completion step of a small state -/

/-- The word `c` in flight with latched `a` and `b`; `A` and `B` hold other values by now, `R`, `S` and `EQ` are marked. -/
def flight (c : Word) (a b : Value) : State :=
  { State.reset with
    regA := 0xAAAAAAAAAAAAAAAA#64, regB := 0xBBBBBBBBBBBBBBBB#64, regR := 0x1111#64, regS := 0x2222#64,
    eq := true, pend := some ⟨c, a, b⟩ }

/-- `R`, `S` and the STATUS word of a next state. -/
def ran (o : Host.Outcome State Fault Refusal) : Option (Value × Value × Word) :=
  match o with
  | .next s => some (s.regR, s.regS, statusWord s)
  | .fault _ => none
  | .refused _ => none

/-- `A`, `B` and the words read so far of a next state. -/
def kept (o : Host.Outcome State Fault Refusal) : Option (Value × Value × List Word) :=
  match o with
  | .next s => some (s.regA, s.regB, s.busReads)
  | .fault _ => none
  | .refused _ => none

-- 95_test_vectors.md part 2: ADD, SUB.
theorem test_add_carry_between_words :
    ran (step (flight 0x10#32 0x00000000FFFFFFFF#64 0x0000000000000001#64)) =
      some (0x0000000100000000#64, 0x0000000000002222#64, 0x10#32) := by decide
theorem test_add_wraps :
    ran (step (flight 0x10#32 0xFFFFFFFFFFFFFFFF#64 0x0000000000000001#64)) =
      some (0x0000000000000000#64, 0x0000000000002222#64, 0x10#32) := by decide
theorem test_sub_borrow_between_words :
    ran (step (flight 0x11#32 0x0000000100000000#64 0x0000000000000001#64)) =
      some (0x00000000FFFFFFFF#64, 0x0000000000002222#64, 0x10#32) := by decide
theorem test_sub_wraps :
    ran (step (flight 0x11#32 0x0000000000000000#64 0x0000000000000001#64)) =
      some (0xFFFFFFFFFFFFFFFF#64, 0x0000000000002222#64, 0x10#32) := by decide
-- MULU, MULS; example E15.
theorem test_mulu_low_half :
    ran (step (flight 0x20#32 0x123456789ABCDEF0#64 0x0FEDCBA987654321#64)) =
      some (0x2236D88FE5618CF0#64, 0x0000000000002222#64, 0x10#32) := by decide +kernel
theorem test_mulu_wraps :
    ran (step (flight 0x20#32 0x00000000FFFFFFFF#64 0x00000000FFFFFFFF#64)) =
      some (0xFFFFFFFE00000001#64, 0x0000000000002222#64, 0x10#32) := by decide +kernel
theorem test_muls_negative :
    ran (step (flight 0x21#32 0xFFFFFFFFFFFFFFFE#64 0x0000000000000003#64)) =
      some (0xFFFFFFFFFFFFFFFA#64, 0x0000000000002222#64, 0x10#32) := by decide +kernel
theorem test_muls_minS_by_minus_one :
    ran (step (flight 0x21#32 0x8000000000000000#64 0xFFFFFFFFFFFFFFFF#64)) =
      some (0x8000000000000000#64, 0x0000000000002222#64, 0x10#32) := by decide +kernel
-- DIVU, REMU.
theorem test_divu_quotient :
    ran (step (flight 0x22#32 0x8000000000000000#64 0x0000000000000003#64)) =
      some (0x2AAAAAAAAAAAAAAA#64, 0x0000000000000002#64, 0x10#32) := by decide +kernel
theorem test_divu_top_bit_divisor :
    ran (step (flight 0x22#32 0xFFFFFFFFFFFFFFFF#64 0x8000000000000000#64)) =
      some (0x0000000000000001#64, 0x7FFFFFFFFFFFFFFF#64, 0x10#32) := by decide +kernel
theorem test_remu_remainder :
    ran (step (flight 0x24#32 0x8000000000000000#64 0x0000000000000003#64)) =
      some (0x0000000000000002#64, 0x2AAAAAAAAAAAAAAA#64, 0x10#32) := by decide +kernel
theorem test_remu_small_dividend :
    ran (step (flight 0x24#32 0x0000000000000005#64 0x0000000000000007#64)) =
      some (0x0000000000000005#64, 0x0000000000000000#64, 0x10#32) := by decide +kernel
-- DIVS, REMS; example E16.
theorem test_divs_truncates :
    ran (step (flight 0x23#32 0xFFFFFFFFFFFFFFF9#64 0x0000000000000002#64)) =
      some (0xFFFFFFFFFFFFFFFD#64, 0xFFFFFFFFFFFFFFFF#64, 0x10#32) := by decide +kernel
theorem test_divs_minS_by_three :
    ran (step (flight 0x23#32 0x8000000000000000#64 0x0000000000000003#64)) =
      some (0xD555555555555556#64, 0xFFFFFFFFFFFFFFFE#64, 0x10#32) := by decide +kernel
theorem test_rems_sign_of_dividend :
    ran (step (flight 0x25#32 0xFFFFFFFFFFFFFFF9#64 0x0000000000000002#64)) =
      some (0xFFFFFFFFFFFFFFFF#64, 0xFFFFFFFFFFFFFFFD#64, 0x10#32) := by decide +kernel
theorem test_rems_positive_dividend :
    ran (step (flight 0x25#32 0x0000000000000007#64 0xFFFFFFFFFFFFFFFE#64)) =
      some (0x0000000000000001#64, 0xFFFFFFFFFFFFFFFD#64, 0x10#32) := by decide +kernel
-- NEG, ABS; examples E19, E20.
theorem test_neg_carry :
    ran (step (flight 0x30#32 0x0000000100000000#64 0x0000000000000000#64)) =
      some (0xFFFFFFFF00000000#64, 0x0000000000002222#64, 0x10#32) := by decide
theorem test_neg_minS :
    ran (step (flight 0x30#32 0x8000000000000000#64 0x0000000000000000#64)) =
      some (0x8000000000000000#64, 0x0000000000002222#64, 0x10#32) := by decide
theorem test_abs_negative :
    ran (step (flight 0x31#32 0xFFFFFFFFFFFFFFFB#64 0x0000000000000000#64)) =
      some (0x0000000000000005#64, 0x0000000000002222#64, 0x10#32) := by decide
theorem test_abs_minS :
    ran (step (flight 0x31#32 0x8000000000000000#64 0x0000000000000000#64)) =
      some (0x8000000000000000#64, 0x0000000000002222#64, 0x10#32) := by decide
-- AND, OR, XOR, NOT.
theorem test_and_words :
    ran (step (flight 0x40#32 0x123456789ABCDEF0#64 0x0FEDCBA987654321#64)) =
      some (0x0224422882244220#64, 0x0000000000002222#64, 0x10#32) := by decide
theorem test_or_words :
    ran (step (flight 0x41#32 0x123456789ABCDEF0#64 0x0FEDCBA987654321#64)) =
      some (0x1FFDDFF99FFDDFF1#64, 0x0000000000002222#64, 0x10#32) := by decide
theorem test_xor_words :
    ran (step (flight 0x42#32 0x123456789ABCDEF0#64 0x0FEDCBA987654321#64)) =
      some (0x1DD99DD11DD99DD1#64, 0x0000000000002222#64, 0x10#32) := by decide
theorem test_not_words :
    ran (step (flight 0x43#32 0x123456789ABCDEF0#64 0x0FEDCBA987654321#64)) =
      some (0xEDCBA9876543210F#64, 0x0000000000002222#64, 0x10#32) := by decide
-- SLL, SRL, SRA; the count is b[5:0].
theorem test_sll_across_words :
    ran (step (flight 0x50#32 0x123456789ABCDEF0#64 0x0000000000000004#64)) =
      some (0x23456789ABCDEF00#64, 0x0000000000002222#64, 0x10#32) := by decide
theorem test_sll_count_low_six_bits :
    ran (step (flight 0x50#32 0x0000000000000001#64 0xFFFFFFFFFFFFFFC1#64)) =
      some (0x0000000000000002#64, 0x0000000000002222#64, 0x10#32) := by decide
theorem test_srl_across_words :
    ran (step (flight 0x51#32 0x123456789ABCDEF0#64 0x0000000000000024#64)) =
      some (0x0000000001234567#64, 0x0000000000002222#64, 0x10#32) := by decide
theorem test_srl_count_64_is_0 :
    ran (step (flight 0x51#32 0x123456789ABCDEF0#64 0x0000000000000040#64)) =
      some (0x123456789ABCDEF0#64, 0x0000000000002222#64, 0x10#32) := by decide
theorem test_sra_fills_with_sign :
    ran (step (flight 0x52#32 0x8000000000000000#64 0x000000000000003F#64)) =
      some (0xFFFFFFFFFFFFFFFF#64, 0x0000000000002222#64, 0x10#32) := by decide
theorem test_sra_by_32 :
    ran (step (flight 0x52#32 0x8000000000000000#64 0x0000000000000020#64)) =
      some (0xFFFFFFFF80000000#64, 0x0000000000002222#64, 0x10#32) := by decide
-- CMPU, CMPS: R and the whole STATUS word.
theorem test_cmpu_below :
    ran (step (flight 0x60#32 0x0000000000000000#64 0x0000000000000001#64)) =
      some (0xFFFFFFFFFFFFFFFF#64, 0x0000000000002222#64, 0x08#32) := by decide
theorem test_cmpu_top_bit :
    ran (step (flight 0x60#32 0x8000000000000000#64 0x7FFFFFFFFFFFFFFF#64)) =
      some (0x0000000000000001#64, 0x0000000000002222#64, 0x20#32) := by decide
theorem test_cmps_top_bit :
    ran (step (flight 0x61#32 0x8000000000000000#64 0x7FFFFFFFFFFFFFFF#64)) =
      some (0xFFFFFFFFFFFFFFFF#64, 0x0000000000002222#64, 0x08#32) := by decide
theorem test_cmps_low_word_unsigned :
    ran (step (flight 0x61#32 0x0000000080000000#64 0x000000007FFFFFFF#64)) =
      some (0x0000000000000001#64, 0x0000000000002222#64, 0x20#32) := by decide
-- MINU, MINS, MAXU, MAXS: no flag is written.
theorem test_minu_unsigned :
    ran (step (flight 0x62#32 0xFFFFFFFFFFFFFFFF#64 0x0000000000000005#64)) =
      some (0x0000000000000005#64, 0x0000000000002222#64, 0x10#32) := by decide
theorem test_mins_signed :
    ran (step (flight 0x63#32 0xFFFFFFFFFFFFFFFF#64 0x0000000000000005#64)) =
      some (0xFFFFFFFFFFFFFFFF#64, 0x0000000000002222#64, 0x10#32) := by decide
theorem test_maxu_unsigned :
    ran (step (flight 0x64#32 0xFFFFFFFFFFFFFFFF#64 0x0000000000000005#64)) =
      some (0xFFFFFFFFFFFFFFFF#64, 0x0000000000002222#64, 0x10#32) := by decide
theorem test_maxs_signed :
    ran (step (flight 0x65#32 0xFFFFFFFFFFFFFFFF#64 0x0000000000000005#64)) =
      some (0x0000000000000005#64, 0x0000000000002222#64, 0x10#32) := by decide
-- LZC; example E13.
theorem test_lzc_one :
    ran (step (flight 0x70#32 0x0000000000000001#64 0x0000000000000000#64)) =
      some (0x000000000000003F#64, 0x0000000000002222#64, 0x10#32) := by decide
theorem test_lzc_zero :
    ran (step (flight 0x70#32 0x0000000000000000#64 0x0000000000000000#64)) =
      some (0x0000000000000040#64, 0x0000000000002222#64, 0x10#32) := by decide
-- CVTFU, CVTFS.
theorem test_cvtfu_minus_one_and_a_half :
    ran (step (flight 0x80#32 0xBFF8000000000000#64 0x0000000000000000#64)) =
      some (0xFFFFFFFFFFFFFFFF#64, 0x0000000000002222#64, 0x10#32) := by decide
theorem test_cvtfu_infinity :
    ran (step (flight 0x80#32 0x7FF0000000000000#64 0x0000000000000000#64)) =
      some (0x0000000000000000#64, 0x0000000000002222#64, 0x10#32) := by decide
theorem test_cvtfs_below_minS :
    ran (step (flight 0x81#32 0xC3E0000000000001#64 0x0000000000000000#64)) =
      some (0x7FFFFFFFFFFFF800#64, 0x0000000000002222#64, 0x10#32) := by decide
theorem test_cvtfs_nan :
    ran (step (flight 0x81#32 0x7FF8000000000000#64 0x0000000000000000#64)) =
      some (0x0000000000000000#64, 0x0000000000002222#64, 0x10#32) := by decide
-- CVTUF, CVTSF; example E18.
theorem test_cvtuf_tie_to_even :
    ran (step (flight 0x82#32 0x0020000000000003#64 0x0000000000000000#64)) =
      some (0x4340000000000002#64, 0x0000000000002222#64, 0x10#32) := by decide
theorem test_cvtuf_rounds_up_to_power :
    ran (step (flight 0x82#32 0xFFFFFFFFFFFFFFFF#64 0x0000000000000000#64)) =
      some (0x43F0000000000000#64, 0x0000000000002222#64, 0x10#32) := by decide
theorem test_cvtsf_negative_tie :
    ran (step (flight 0x83#32 0x8000000000000400#64 0x0000000000000000#64)) =
      some (0xC3DFFFFFFFFFFFFF#64, 0x0000000000002222#64, 0x10#32) := by decide
theorem test_cvtsf_minS :
    ran (step (flight 0x83#32 0x8000000000000000#64 0x0000000000000000#64)) =
      some (0xC3E0000000000000#64, 0x0000000000002222#64, 0x10#32) := by decide

/-! ## Errors (60_exceptions.md R200 to R209; 95_test_vectors.md, errors) -/

theorem test_zero_divisor : ran (step (flight 0x22#32 0#64 0#64)) = some (0x1111#64, 0x2222#64, 0x12#32) := by decide
theorem test_zero_divisor_signed : ran (step (flight 0x25#32 7#64 0#64)) = some (0x1111#64, 0x2222#64, 0x12#32) := by
  decide
theorem test_illegal_unassigned : ran (step (flight 0xFF#32 7#64 9#64)) = some (0x1111#64, 0x2222#64, 0x14#32) := by
  decide
theorem test_illegal_before_zero_divisor :
    ran (step (flight 0x122#32 7#64 0#64)) = some (0x1111#64, 0x2222#64, 0x14#32) := by decide
theorem test_completion_keeps_operands :
    kept (step (flight 0x10#32 1#64 2#64)) = some (0xAAAAAAAAAAAAAAAA#64, 0xBBBBBBBBBBBBBBBB#64, []) := by decide

/-! ## Reset and the first command after it -/

theorem test_first_command_runs : ran (step (State.reset.withFetchWord 32 0x60)) = some (0#64, 0#64, 0x10#32) := by
  decide
theorem test_first_command_division : ran (step (State.reset.withFetchWord 32 0x22)) = some (0#64, 0#64, 0x02#32) := by
  decide
theorem test_reset_is_idle : ran (step State.reset) = some (0#64, 0#64, 0x00#32) := by decide
theorem test_reset_discards_command :
    ran (step { flight 0x10#32 1#64 2#64 with schedule := [.reset] }) = some (0#64, 0#64, 0x00#32) := by decide

/-! ## The window (20_memory.md): one access each -/

/-- `s` with one access to come. -/
def next1 (x : Access) (s : State) : State := { s with schedule := [.host x] }

theorem test_read_status_busy :
    kept (step (next1 (accessRD 0x14) (flight 0x10#32 1#64 2#64))) =
      some (0xAAAAAAAAAAAAAAAA#64, 0xBBBBBBBBBBBBBBBB#64, [0x11#32]) := by
  rw [step_host rfl, accessRD, hostStep_read (by decide) (by decide)]; decide
theorem test_read_r_hi :
    kept (step (next1 (accessRD 0x1C) { State.reset with regR := 0x0123456789ABCDEF#64 })) =
      some (0#64, 0#64, [0x01234567#32]) := by
  rw [step_host rfl, accessRD, hostStep_read (by decide) (by decide)]; decide
theorem test_read_reserved : kept (step (next1 (accessRD 0x3C) State.reset)) = some (0#64, 0#64, [0#32]) := by
  rw [step_host rfl, accessRD, hostStep_read (by decide) (by decide)]; rfl
theorem test_write_a_hi :
    kept (step (next1 (accessW 0x04 0x12345678#32) (flight 0x10#32 1#64 2#64))) =
      some (0x12345678AAAAAAAA#64, 0xBBBBBBBBBBBBBBBB#64, []) := by
  rw [step_host rfl, accessW, hostStep_write (by decide) (by decide)]; decide
theorem test_write_b_lo :
    kept (step (next1 (accessW 0x08 0x12345678#32) (flight 0x10#32 1#64 2#64))) =
      some (0xAAAAAAAAAAAAAAAA#64, 0xBBBBBBBB12345678#64, []) := by
  rw [step_host rfl, accessW, hostStep_write (by decide) (by decide)]; decide
theorem test_write_r_ignored :
    ran (step (next1 (accessW 0x18 0xDEADBEEF#32) State.reset)) = some (0#64, 0#64, 0#32) := by
  rw [step_host rfl, accessW, hostStep_write (by decide) (by decide)]; rfl
theorem test_cmd_write_accepted_clears_drop :
    ran (step (next1 (accessW 0x10 0x10#32) { State.reset with drop := true })) = some (0#64, 0#64, 0x01#32) := by
  rw [step_host rfl, accessW, hostStep_write (by decide) (by decide)]; rfl
theorem test_cmd_write_dropped :
    ran (step (next1 (accessW 0x10 0x11#32) (flight 0x10#32 1#64 2#64))) = some (0x1111#64, 0x2222#64, 0x51#32) := by
  rw [step_host rfl, accessW, hostStep_write (by decide) (by decide)]; rfl
theorem test_halfword_read_faults :
    step (next1 (.read (Config.base + 0x14) 2) State.reset) = .fault (.busAccessFault 0x14 2) := by
  rw [step_host rfl]; simp [hostStep, route_undefined, hostRead]
theorem test_misaligned_read_faults :
    step (next1 (.read (Config.base + 0x02) 4) State.reset) = .fault (.busAccessFault 0x02 4) := by
  rw [step_host rfl]; simp [hostStep, route_undefined, hostRead]
theorem test_first_address_above_is_not_the_blocks :
    step (next1 (.write (Config.base + 0x40) 4 1#32) State.reset) = .next State.reset := by
  rw [step_host rfl, hostStep, route_outside (.inr (Nat.le_refl _))]; rfl

/-! ## Host procedures (30_encoding.md R72; examples E8, E9, E10, E12 and program P5) and iteration counts (R230) -/

/-- A host at statement `n` with these variables and output. -/
def hostAt (n : Nat) (vars : List (Nat × Word)) (out : List Word) : HostState := ⟨n, vars, out, [], 0⟩

/-- The host after a turn. -/
def hostOf (o : SystemOutcome) : Option HostState :=
  match o with
  | .next y => some y.host
  | .ended => none
  | .unassigned _ => none
  | .unread _ => none
  | .fault _ => none
  | .refused _ => none

theorem test_poll_stays_while_busy :
    hostOf (hostStmt (.poll 7) ⟨hostAt 5 [] [], flight 0x10#32 1#64 2#64⟩) =
      some ⟨5, [(7, 0x11#32)], [], [(0x14, 0x11#32)], 0⟩ := by
  rw [hostStmt, accessNow_read _ (by decide) (by decide)]; decide
theorem test_read_statement_assigns :
    hostOf (hostStmt (.rd 0x18 7) ⟨hostAt 5 [] [], flight 0x10#32 1#64 2#64⟩) =
      some ⟨6, [(7, 0x1111#32)], [], [(0x18, 0x1111#32)], 0⟩ := by
  rw [hostStmt, accessNow_read _ (by decide) (by decide)]; decide
theorem test_bnz_taken :
    hostOf (hostStmt (.bnz 3 1) ⟨hostAt 9 [(3, 0x20#32)] [], State.reset⟩) = some (hostAt 1 [(3, 0x20#32)] []) := by
  decide
theorem test_bz_not_taken :
    hostOf (hostStmt (.bz 3 1) ⟨hostAt 9 [(3, 0x20#32)] [], State.reset⟩) = some (hostAt 10 [(3, 0x20#32)] []) := by
  decide
theorem test_emit :
    hostOf (hostStmt (.emit 3) ⟨hostAt 9 [(3, 8#32)] [0#32], State.reset⟩) =
      some (hostAt 10 [(3, 8#32)] [8#32, 0#32]) := by decide
theorem test_unassigned_variable_stops :
    hostStmt (.w 0x00 (.var 3)) ⟨hostAt 9 [] [], State.reset⟩ = .unassigned 3 := by decide

/-- 95_test_vectors.md program P5, all 24 statements, with `a0`, `a1` and POLL's variable numbered 0, 1 and 2. -/
theorem test_minSN_expands_to_P5 :
    ListFold.minSN.statements [.literal 5#64, .literal 0xFFFFFFFFFFFFFFFD#64, .literal 7#64] 2 0 1 = some
      [.w 0x00 (.word 0xFFFFFFFF#32), .w 0x04 (.word 0x7FFFFFFF#32), .w 0x08 (.word 5#32), .w 0x0C (.word 0#32),
       .w 0x10 (.word 0x63#32), .poll 2, .rd 0x18 0, .rd 0x1C 1,
       .w 0x00 (.var 0), .w 0x04 (.var 1), .w 0x08 (.word 0xFFFFFFFD#32), .w 0x0C (.word 0xFFFFFFFF#32),
       .w 0x10 (.word 0x63#32), .poll 2, .rd 0x18 0, .rd 0x1C 1,
       .w 0x00 (.var 0), .w 0x04 (.var 1), .w 0x08 (.word 7#32), .w 0x0C (.word 0#32),
       .w 0x10 (.word 0x63#32), .poll 2, .rd 0x18 0, .rd 0x1C 1] := by decide
/-- Example E11: the count is written as it stands. -/
theorem test_shift_statement_writes_the_count :
    commandStatement .sll (.literal 3#64) (.literal 64#64) 2 =
      [.w 0x00 (.word 3#32), .w 0x04 (.word 0#32), .w 0x08 (.word 64#32), .w 0x0C (.word 0#32),
       .w 0x10 (.word 0x50#32), .poll 2] := by decide
theorem test_operand_s :
    commandStatement .neg .lastS (.literal 0#64) 2 =
      [.w 0x00 (.lastRead 0x20), .w 0x04 (.lastRead 0x24), .w 0x10 (.word 0x30#32), .poll 2] := by decide
theorem test_eq_reads_status_once_more :
    (Predicate.statements .eq (.pair 0 1) .lastR 2).getLast? = some (.rd 0x14 2) := by decide
theorem test_lts_uses_polls_variable :
    (Predicate.statements .lts (.pair 0 1) .lastR 2).getLast? = some (.poll 2) := by decide
theorem test_compare_value : compareValue 0xFFFFFFFF#32 0xFFFFFFFF#32 = -1 := by decide
theorem test_decimal_literal_bounds :
    decimalLiteral (-2 ^ 63) = some (.literal MIN_S) ∧ decimalLiteral (2 ^ 64 - 1) = some (.literal MAX_U) ∧
      decimalLiteral (2 ^ 64) = none := by decide
/-- 95_test_vectors.md, CVTFU and CVTFS: 123456789.75, -1e19, the smallest subnormal and -0.0; and half of the smallest
subnormal, which no pattern stands for. -/
theorem test_f64_literals :
    f64Literal false 493827159 (-2) = some 0x419D6F3457000000#64 ∧
      f64Literal true 10000000000000000000 0 = some 0xC3E158E460913D00#64 ∧
      f64Literal false 1 (-1074) = some 1#64 ∧ f64Literal true 0 0 = some MIN_S ∧
      f64Literal false 1 (-1075) = none := by decide +kernel

theorem test_fmt16_max : fmt16U MAX_U = ⟨false, List.replicate 16 15⟩ := by decide
theorem test_fmt10_minS :
    fmt10S MIN_S = ⟨true, [9, 2, 2, 3, 3, 7, 2, 0, 3, 6, 8, 5, 4, 7, 7, 5, 8, 0, 8]⟩ := by
  decide +kernel
theorem test_fmt10_zero : fmt10S ZERO = ⟨false, [0]⟩ := by decide
theorem test_fmt16_shifted : fmt16U (shr64 0x0000000100000000#64 1) = ⟨false, [8, 0, 0, 0, 0, 0, 0, 0]⟩ := by decide
theorem test_minSN : minSN [5#64, 0xFFFFFFFFFFFFFFFD#64, 7#64] = some 0xFFFFFFFFFFFFFFFD#64 := by decide
theorem test_minUN : minUN [5#64, 0xFFFFFFFFFFFFFFFD#64, 7#64] = some 5#64 := by decide
theorem test_mul_iterations : mulIterationsU 0x123456789ABCDEF0#64 0x0FEDCBA987654321#64 = 60 := by decide +kernel
theorem test_div_iterations_zero_divisor : divIterationsU 7#64 ZERO = 0 := by decide
theorem test_div_iterations : divIterationsU 0xFFFFFFFFFFFFFFFF#64 0x0000000100000000#64 = 32 := by decide


/-! ## Witnesses: for every statement with hypotheses, states and operands that meet all of them

The names are the statements'. Where a statement has several clauses, each has its own. -/

theorem witness_DecodeAndEncodeAgree : Instr.wellFormed .cvtsf = true ∧ encode .cvtsf = 0x00000083#32 := by decide

/-- Both ends of every range of 30_encoding.md R64's list, and a word for each of the other clauses. -/
theorem witness_IllegalWordsAreThoseListed :
    [0x12#32, 0x1F#32, 0x26#32, 0x2F#32, 0x32#32, 0x3F#32, 0x44#32, 0x4F#32, 0x53#32, 0x5F#32, 0x66#32, 0x6F#32,
     0x71#32, 0x7F#32, 0x84#32, 0x8F#32, 0x00#32, 0x0F#32, 0x90#32, 0xFF#32, 0x110#32, 0x80000083#32].all
      (fun c => match decode c with | .illegal _ => true | .command _ => false) = true := by decide

theorem witness_StepRunsTheCommandInFlight_empty_schedule :
    Instr.wellFormed .add = true ∧ (flight 0x10#32 1#64 2#64).blockNext ∧
      (flight 0x10#32 1#64 2#64).pend = some ⟨0x10#32, 1#64, 2#64⟩ ∧ decode 0x10#32 = .command .add :=
  ⟨by decide, .inl rfl, rfl, by decide⟩
theorem witness_StepRunsTheCommandInFlight_scheduled :
    ({ flight 0x10#32 1#64 2#64 with schedule := [.block, .reset] } : State).blockNext := .inr ⟨_, rfl⟩
theorem witness_StepRunsTheCommandInFlight_placed : decodeTableWord 32 0x83 = some .cvtsf := by decide

/-- For every statement about `exec` whose hypothesis is a command in flight: AddWritesWrappedSum,
SubWritesWrappedDifference, MultipliesWriteTheLowProduct, OnlyDivisionReportsAZeroDivisor, NegAndAbsWriteSignResults,
BitwiseCommandsActBitByBit, LogicalShiftsMoveByTheCountModSixtyFour, ArithmeticShiftFillsWithTheSign,
ComparesWriteResultAndFlags, MinAndMaxSelectAnOperand, LzcCountsLeadingZeros, ConversionsToIntegerTruncate,
ConversionsFromIntegerRoundToNearest, ResultRoutingIsAsListed, PredicatesReadTheCompareFlags. -/
theorem witness_command_in_flight (c : Word) (a b : Value) : (flight c a b).pend = some ⟨c, a, b⟩ := rfl

theorem witness_division_nonzero_divisor :
    (flight 0x22#32 7#64 1#64).pend = some ⟨0x22#32, 7#64, 1#64⟩ ∧ (1#64 : Value) ≠ ZERO := ⟨rfl, by decide⟩
theorem witness_division_zero_divisor :
    (flight 0x22#32 7#64 0#64).pend = some ⟨0x22#32, 7#64, 0#64⟩ ∧ (0#64 : Value) = ZERO := ⟨rfl, by decide⟩
theorem witness_MostNegativeValueWraps : (0x8000000000000001#64 : Value) ≠ MIN_S := by decide
/-- Also for ArithmeticShiftFillsWithTheSign. -/
theorem witness_BitwiseCommandsActBitByBit_bits : 0 < 64 ∧ 63 < 64 := by decide
theorem witness_LzcCountsLeadingZeros_none_and_all : lzc64 MIN_S = 0 ∧ lzc64 ZERO = 64 := by decide
theorem witness_ConversionsToIntegerTruncate_nan : f64Value 0x7FF8000000000000#64 = none := by
  simp [f64Value, show f64Class 0x7FF8000000000000#64 = .nan by decide]
theorem witness_ConversionsToIntegerTruncate_positive : ∃ x, f64Value 0x3FF8000000000000#64 = some x ∧ 0 ≤ x :=
  ⟨_, by rw [f64Value, show f64Class 0x3FF8000000000000#64 = .finite false 0x18000000000000 (-52) by decide],
    by simp⟩
theorem witness_ConversionsToIntegerTruncate_negative : ∃ x, f64Value 0xBFF8000000000000#64 = some x ∧ ¬ 0 ≤ x :=
  ⟨_, by rw [f64Value, show f64Class 0xBFF8000000000000#64 = .finite true 0x18000000000000 (-52) by decide],
    by simp⟩
theorem witness_ConversionsFromIntegerRoundToNearest_zero : (flight 0x82#32 ZERO 5#64).pend = some ⟨0x82#32, ZERO, 5#64⟩ :=
  rfl

theorem witness_ResultRoutingIsAsListed_error :
    ∃ t, exec .divu (flight 0x22#32 7#64 0#64) = .next t ∧ t.err ≠ 0#2 := ⟨_, rfl, by decide⟩
theorem witness_ResultRoutingIsAsListed_no_error :
    ∃ t, exec .cmpu (flight 0x60#32 7#64 0#64) = .next t ∧ t.err = 0#2 := ⟨_, rfl, by decide⟩
theorem witness_ResultDependsOnlyOnLatchedOperands :
    (flight 0x20#32 3#64 5#64).pend = ({ State.reset with pend := some ⟨0x20#32, 3#64, 5#64⟩ } : State).pend ∧
      flight 0x20#32 3#64 5#64 ≠ ({ State.reset with pend := some ⟨0x20#32, 3#64, 5#64⟩ } : State) := by decide
theorem witness_UnreadOperandBitsAreIgnored_one : Instr.arity .neg = .one ∧ (1#64 : Value) ≠ 2#64 := by decide
theorem witness_UnreadOperandBitsAreIgnored_shift :
    Instr.arity .sra = .shift ∧ u 0#64 % 64 = u 64#64 % 64 ∧ u 63#64 % 64 = u MAX_U % 64 := by decide
theorem witness_IllegalCommandReportsErrTwo :
    (flight 0x110#32 7#64 0#64).blockNext ∧ (flight 0x110#32 7#64 0#64).pend = some ⟨0x110#32, 7#64, 0#64⟩ ∧
      ∀ i, (0x110#32 : Word) ≠ encode i := ⟨.inl rfl, rfl, by intro i; cases i <;> decide⟩
theorem witness_ErrorCodeFollowsThePriorities_division :
    (flight 0x25#32 7#64 0#64).blockNext ∧ (flight 0x25#32 7#64 0#64).pend = some ⟨0x25#32, 7#64, 0#64⟩ ∧
      encode .rems = 0x25#32 := ⟨.inl rfl, rfl, rfl⟩
theorem witness_ErrorCodeFollowsThePriorities_division_runs :
    encode .divu = 0x22#32 ∧ (1#64 : Value) ≠ ZERO := by decide
theorem witness_ErrorCodeFollowsThePriorities_other_command :
    encode .mulu = 0x20#32 ∧ Instr.mulu ≠ .divu ∧ Instr.mulu ≠ .divs ∧ Instr.mulu ≠ .remu ∧ Instr.mulu ≠ .rems := by
  decide

/-- Every aligned offset of the window, each one clause of `windowWord`. -/
theorem witness_WindowReadsReturnTheRegisters :
    ∀ off ∈ [0x00, 0x04, 0x08, 0x0C, 0x10, 0x14, 0x18, 0x1C, 0x20, 0x24, 0x28, 0x3C],
      off % 4 = 0 ∧ off < 0x40 ∧
        (next1 (.read (Config.base + off) 4) State.reset).schedule = [.host (.read (Config.base + off) 4)] := by
  intro off h
  simp only [List.mem_cons, List.not_mem_nil, or_false] at h
  rcases h with rfl | rfl | rfl | rfl | rfl | rfl | rfl | rfl | rfl | rfl | rfl | rfl <;>
    exact ⟨by decide, by decide, rfl⟩
theorem witness_WindowWritesReplaceOneHalf :
    ∀ off ∈ [0x00, 0x04, 0x08, 0x0C, 0x14, 0x3C],
      off % 4 = 0 ∧ off < 0x40 ∧ off ≠ 0x10 ∧
        (next1 (accessW off 1#32) State.reset).schedule = [.host (.write (Config.base + off) 4 1#32)] := by
  intro off h
  simp only [List.mem_cons, List.not_mem_nil, or_false] at h
  rcases h with rfl | rfl | rfl | rfl | rfl | rfl <;> exact ⟨by decide, by decide, by decide, rfl⟩
theorem witness_CmdWriteAcceptsOrDrops_idle :
    (next1 (accessW 0x10 0x10#32) State.reset).schedule = [.host (.write (Config.base + 0x10) 4 0x10#32)] ∧
      (next1 (accessW 0x10 0x10#32) State.reset).pend = none := ⟨rfl, rfl⟩
theorem witness_CmdWriteAcceptsOrDrops_busy :
    (next1 (accessW 0x10 0x10#32) (flight 0x11#32 1#64 2#64)).schedule =
        [.host (.write (Config.base + 0x10) 4 0x10#32)] ∧
      (next1 (accessW 0x10 0x10#32) (flight 0x11#32 1#64 2#64)).pend ≠ none := ⟨rfl, by decide⟩
theorem witness_UndefinedAccessFaults_size :
    0x3F < 0x40 ∧ (1 ≠ 4 ∨ 0x3F % 4 ≠ 0) ∧
      (next1 (.read (Config.base + 0x3F) 1) State.reset).schedule = [.host (.read (Config.base + 0x3F) 1)] :=
  ⟨by decide, by decide, rfl⟩
theorem witness_UndefinedAccessFaults_misaligned :
    0x01 < 0x40 ∧ (4 ≠ 4 ∨ 0x01 % 4 ≠ 0) ∧
      (next1 (accessW 0x01 7#32) State.reset).schedule = [.host (.write (Config.base + 0x01) 4 7#32)] :=
  ⟨by decide, by decide, rfl⟩
theorem witness_UndefinedAccessFaults_doubleword : 0x00 < 0x40 ∧ (8 ≠ 4 ∨ 0x00 % 4 ≠ 0) := by decide
/-- Just above the window. Whether anything lies below it depends on `BASE`, which is not known (log 4). -/
theorem witness_AccessOutsideTheWindowChangesNothing :
    0 < 1 ∧ (Config.base + 0x40 + 1 ≤ Config.base ∨ Config.base + 0x40 ≤ Config.base + 0x40) ∧
      (next1 (.read (Config.base + 0x40) 1) State.reset).schedule = [.host (.read (Config.base + 0x40) 1)] :=
  ⟨by decide, .inr (Nat.le_refl _), rfl⟩

theorem witness_LegalStateIsKeptByEveryStep :
    (flight 0x61#32 1#64 2#64).Inv ∧ ∃ t, step (flight 0x61#32 1#64 2#64) = .next t ∧ t.lt = true :=
  ⟨by decide, _, rfl, by decide⟩
theorem witness_ResultsChangeOnlyAtCompletionOrReset_completion :
    ∃ t, step (flight 0x10#32 1#64 2#64) = .next t ∧ t.regR ≠ (flight 0x10#32 1#64 2#64).regR := ⟨_, rfl, by decide⟩
theorem witness_ResultsChangeOnlyAtCompletionOrReset_reset :
    ∃ t, step { flight 0x10#32 1#64 2#64 with schedule := [.reset] } = .next t ∧ t.regS ≠ 0x2222#64 :=
  ⟨_, rfl, by decide⟩
theorem witness_DropFollowsCmdWrites_cmd :
    (∃ t, step (next1 (accessW 0x10 0x10#32) State.reset) = .next t) ∧ (accessW 0x10 0x10#32).isCmdWrite :=
  ⟨⟨_, by rw [step_host rfl, accessW, hostStep_write (by decide) (by decide)]⟩, 0x10#32, rfl⟩
theorem witness_DropFollowsCmdWrites_reset :
    ∃ t, step { State.reset with schedule := [.reset], drop := true } = .next t := ⟨_, rfl⟩
theorem witness_DropFollowsCmdWrites_neither :
    (∃ t, step (flight 0x10#32 1#64 2#64) = .next t) ∧ (flight 0x10#32 1#64 2#64).schedule = [] := ⟨⟨_, rfl⟩, rfl⟩
theorem witness_OperandsChangeOnlyByHostWrites_a :
    ∃ t, step (next1 (accessW 0x04 1#32) State.reset) = .next t ∧ t.regA ≠ State.reset.regA :=
  ⟨_, by rw [step_host rfl, accessW, hostStep_write (by decide) (by decide)], by decide⟩
theorem witness_OperandsChangeOnlyByHostWrites_b :
    ∃ t, step (next1 (accessW 0x08 1#32) State.reset) = .next t ∧ t.regB ≠ State.reset.regB :=
  ⟨_, by rw [step_host rfl, accessW, hostStep_write (by decide) (by decide)], by decide⟩
theorem witness_OperandsChangeOnlyByHostWrites_reset :
    ∃ t, step { flight 0x10#32 1#64 2#64 with schedule := [.reset] } = .next t ∧ t.regA ≠ 0xAAAAAAAAAAAAAAAA#64 ∧
      t.regB ≠ 0xBBBBBBBBBBBBBBBB#64 := ⟨_, rfl, by decide, by decide⟩
theorem witness_CmdWriteAcceptsOrDrops_started :
    ∃ t, step (next1 (accessW 0x10 0x10#32) State.reset) = .next t ∧ t.pend = some ⟨0x10#32, 0#64, 0#64⟩ ∧
      (next1 (accessW 0x10 0x10#32) State.reset).pend ≠ some ⟨0x10#32, 0#64, 0#64⟩ :=
  ⟨_, by rw [step_host rfl, accessW, hostStep_write (by decide) (by decide)], rfl, by decide⟩
theorem witness_ResetSetsEveryItem :
    ({ flight 0x10#32 1#64 2#64 with schedule := [.reset, .block] } : State).schedule = .reset :: [.block] := rfl

/-- An access through the window that is no CMD write is passive. -/
theorem passive_read {off : Nat} (h4 : off % 4 = 0) (h64 : off < 64) : (Event.host (accessRD off)).passive := by
  refine ⟨fun o h => ?_, fun ⟨v, h⟩ => by cases h⟩
  simp [accessRD, Access.route, route_window h4 h64] at h
theorem passive_write {off : Nat} (h4 : off % 4 = 0) (h64 : off < 64) (h : off ≠ 0x10) (v : Word) :
    (Event.host (accessW off v)).passive := by
  refine ⟨fun o hr => ?_, fun ⟨v', hv⟩ => ?_⟩
  · simp [accessW, Access.route, route_window h4 h64] at hr
  · simp only [accessW, Access.write.injEq] at hv
    omega

/-- A host that reads STATUS, gives the block its turn, and writes `B_HI`. -/
def passiveSchedule : List Event := [.host (accessRD 0x14), .block, .host (accessW 0x0C 5#32)]

theorem passiveSchedule_passive : ∀ e ∈ passiveSchedule, e.passive := by
  intro e h
  simp only [passiveSchedule, List.mem_cons, List.not_mem_nil, or_false] at h
  rcases h with rfl | rfl | rfl
  · exact passive_read (by decide) (by decide)
  · trivial
  · exact passive_write (by decide) (by decide) (by decide) _

/-- The four halves; with nothing between the write and the read, the second hypothesis holds of each. -/
theorem witness_ReadBackReturnsTheLatestWrite :
    ∀ off ∈ [0x00, 0x04, 0x08, 0x0C], off = 0x00 ∨ off = 0x04 ∨ off = 0x08 ∨ off = 0x0C := by decide
/-- A read of STATUS, a turn of the block and a write to another half lie between. -/
theorem witness_ReadBackReturnsTheLatestWrite_between :
    ∃ s : State, s.schedule = .host (accessW 0x08 7#32) :: (passiveSchedule ++ .host (accessRD 0x08) :: []) ∧
      ∀ e ∈ passiveSchedule, e.harmless ∧ e ≠ .reset ∧ ∀ v', e ≠ .host (accessW 0x08 v') := by
  refine ⟨{ State.reset with schedule := .host (accessW 0x08 7#32) :: (passiveSchedule ++ .host (accessRD 0x08) :: []) },
    rfl, fun e h => ?_⟩
  have hp := passiveSchedule_passive e h
  simp only [passiveSchedule, List.mem_cons, List.not_mem_nil, or_false] at h
  rcases h with rfl | rfl | rfl
  · exact ⟨hp.1, by simp, fun v' hv => by cases hv⟩
  · exact ⟨trivial, by simp, fun v' hv => by cases hv⟩
  · refine ⟨hp.1, by simp, fun v' hv => ?_⟩
    simp only [accessW, Event.host.injEq, Access.write.injEq] at hv
    omega

theorem witness_OperandWriteCommutesWithCompletion :
    (flight 0x20#32 3#64 5#64).pend = some ⟨0x20#32, 3#64, 5#64⟩ ∧
      ∀ off ∈ [0x00, 0x04, 0x08, 0x0C], off = 0x00 ∨ off = 0x04 ∨ off = 0x08 ∨ off = 0x0C := by decide
theorem witness_EveryInterleavingCompletesAlike :
    ({ flight 0x20#32 3#64 5#64 with schedule := passiveSchedule } : State).pend = some ⟨0x20#32, 3#64, 5#64⟩ ∧
      ∀ e ∈ ({ flight 0x20#32 3#64 5#64 with schedule := passiveSchedule } : State).schedule, e.passive :=
  ⟨rfl, passiveSchedule_passive⟩
theorem witness_HalvesReadWhileIdleBelongTogether :
    ∃ s : State, s.pend = none ∧ (∀ e ∈ passiveSchedule, e.passive) ∧
      s.schedule = .host (accessRD 0x18) :: (passiveSchedule ++ [.host (accessRD 0x1C)]) :=
  ⟨{ State.reset with schedule := .host (accessRD 0x18) :: (passiveSchedule ++ [.host (accessRD 0x1C)]) },
    rfl, passiveSchedule_passive, rfl⟩
theorem witness_IdleBlockKeepsItsState : State.reset.blockNext ∧ State.reset.pend = none := ⟨.inl rfl, rfl⟩
theorem witness_HarmlessSchedulesRunForever :
    ∀ e ∈ [.host (accessRD 0x3C), .block, .reset, .host (.read (Config.base + 0x40) 1)], Event.harmless e := by
  intro e h
  simp only [List.mem_cons, List.not_mem_nil, or_false] at h
  rcases h with rfl | rfl | rfl | rfl
  · exact (passive_read (by decide) (by decide)).1
  · trivial
  · trivial
  · intro o h
    rw [Access.route, route_outside (.inr (Nat.le_refl _))] at h
    cases h

theorem witness_DivisionIdentityHolds : (1#64 : Value) ≠ ZERO ∧ MAX_U ≠ ZERO := by decide
theorem witness_ShiftsAreMultiplicationAndDivision :
    0 < 64 ∧ 63 < 64 ∧ signBit MAX_S = false := by decide
theorem witness_ListFoldsFindTheExtreme : [MAX_S] ≠ [] ∧ [5#64, 7#64] ≠ ([] : List Value) := by decide
theorem witness_DecimalFormattingIsExact : (fmt10U ZERO).digits.head? = some 0 := by decide
theorem witness_CommandStatementRunsItsCommand :
    State.reset.pend = none ∧ Instr.arity .lzc = .one ∧ Instr.arity .add = .two ∧ Instr.arity .sll = .shift := by decide
theorem witness_IterationCountsAreBounded :
    (3#64 : Value) ≠ ZERO ∧ u 2#64 < u 3#64 ∧ divIterationsU 2#64 3#64 = 0 ∧ divIterationsU 3#64 3#64 = 0 ∧
      divIterationsU MAX_U ONE = 64 := by decide
theorem witness_HostRunsACommandStatement :
    ∃ y : System, y.host.position = [HostStmt.emit 0].length ∧ y.block.pend = none ∧
      (Operand.pair 3 4).valueIn y.host = some 0x0000000500000007#64 ∧
      Operand.lastR.valueIn y.host = some 0x0000000900000008#64 ∧ Instr.arity .divs = .two ∧ Instr.arity .sra = .shift :=
  ⟨⟨⟨1, [(3, 7#32), (4, 5#32)], [], [(0x1C, 9#32), (0x18, 8#32)], 0⟩, State.reset⟩, by decide⟩
theorem witness_HostRunsACommandStatement_one_operand :
    System.start.host.position = ([] : List HostStmt).length ∧ System.start.block.pend = none ∧
      (Operand.literal 5#64).valueIn System.start.host = some 5#64 ∧ Instr.arity .lzc = .one := by decide
theorem witness_ListFormsComputeTheirFold :
    ∃ (y : System) (stmts : List HostStmt), (0 : Nat) ≠ 1 ∧
      (∀ v ∈ [(Operand.literal 5#64, 5#64), (Operand.pair 3 4, 0x0000000500000007#64), (Operand.lastS, 1#64)],
        v.1.valueIn y.host = some v.2 ∧ v.1.keptThrough [2, 0, 1]) ∧
      ListFold.maxUN.statements ([(Operand.literal 5#64, 5#64), (Operand.pair 3 4, 0x0000000500000007#64),
        (Operand.lastS, 1#64)].map Prod.fst) 2 0 1 = some stmts ∧
      y.host.position = ([] : List HostStmt).length ∧ y.block.pend = none := by
  refine ⟨⟨⟨0, [(3, 7#32), (4, 5#32)], [], [(0x20, 1#32), (0x24, 0#32)], 0⟩, State.reset⟩, _, by decide, ?_, rfl, rfl, rfl⟩
  intro v h
  simp only [List.mem_cons, List.not_mem_nil, or_false] at h
  rcases h with rfl | rfl | rfl
  · exact ⟨by decide, trivial⟩
  · exact ⟨by decide, by decide, by decide⟩
  · exact ⟨by decide, trivial⟩
theorem witness_BinaryLiteralsHaveTheirValue_literal :
    f64Literal true 3 (-1) = some 0xBFF8000000000000#64 := by decide +kernel
theorem witness_BinaryLiteralsHaveTheirValue_pattern :
    f64Class MIN_S = .finite true 0 (-1074) ∧ f64Class 1#64 = .finite false 1 (-1074) ∧
      f64Class 0x7FEFFFFFFFFFFFFF#64 = .finite false (2 ^ 53 - 1) 971 := by decide +kernel

end Sys2Proof.Tests
end

section
/-! PROOFS. The statements about the state (10_state.md): reset, the invariants, and what a step may change of the
operands, the results and `DROP`. -/

namespace Sys2Proof.Machine

/-! ## The result fields as one tuple -/

/-- What a completion writes apart from `PEND` (10_state.md R23 to R27): `R`, `S`, `ERR` and the compare flags. -/
def State.results (s : State) : Value × Value × BitVec 2 × Bool × Bool × Bool :=
  (s.regR, s.regS, s.err, s.lt, s.eq, s.gt)

theorem results_eq_iff {s t : State} : t.results = s.results ↔
    t.regR = s.regR ∧ t.regS = s.regS ∧ t.err = s.err ∧ t.lt = s.lt ∧ t.eq = s.eq ∧ t.gt = s.gt := by
  simp only [State.results, Prod.mk.injEq]

@[simp] theorem advance_results (s : State) : s.advance.results = s.results := rfl

theorem hostStep_results {x : Access} {s t : State} (h : hostStep x s = .next t) : t.results = s.results := by
  obtain ⟨hR, hS, herr, hlt, heq, hgt, -⟩ := hostStep_keeps_results h
  exact results_eq_iff.mpr ⟨hR, hS, herr, hlt, heq, hgt⟩

theorem hostStep_schedule {x : Access} {s t : State} (h : hostStep x s = .next t) : t.schedule = s.schedule := by
  obtain ⟨-, -, -, -, -, -, hsched⟩ := hostStep_keeps_results h
  exact hsched

/-- A completion's results depend on the old results and on nothing else of the state (10_state.md R33). -/
theorem commit_results_congr {s t : State} (h : t.results = s.results) (res : Result) :
    (t.commit res).results = (s.commit res).results := by
  obtain ⟨hR, hS, herr, hlt, heq, hgt⟩ := results_eq_iff.mp h
  simp only [State.commit, State.results, hR, hS, hlt, heq, hgt]
  split <;> simp only [hR, hS, hlt, heq, hgt]

/-! ## Legal states -/

/-- Of the three invariants only those on `ERR` and the flags say something: `BUSY` is a view of `PEND` (R25). -/
theorem inv_iff {s : State} : s.Inv ↔ s.err ≠ 3#2 ∧ flagsLegal s.lt s.eq s.gt = true :=
  ⟨fun h => h.2, fun h => ⟨Iff.rfl, h⟩⟩

theorem inv_congr {s t : State} (h : t.results = s.results) : t.Inv ↔ s.Inv := by
  obtain ⟨-, -, herr, hlt, heq, hgt⟩ := results_eq_iff.mp h
  rw [inv_iff, inv_iff, herr, hlt, heq, hgt]

theorem commit_flagsLegal {s : State} {res : Result} (hres : res.Legal) (hs : flagsLegal s.lt s.eq s.gt = true) :
    flagsLegal (s.commit res).lt (s.commit res).eq (s.commit res).gt = true := by
  have h := commit_flags s res
  cases hf : res.flags with
  | none =>
    simp only [hf, Prod.mk.injEq] at h
    obtain ⟨hlt, heq, hgt⟩ := h
    rwa [hlt, heq, hgt]
  | some f =>
    have hf' := hres.2 f hf
    simp only [hf] at h
    split_ifs at h <;> obtain ⟨hlt, heq, hgt⟩ := by simpa only [Prod.mk.injEq] using h
    · rwa [hlt, heq, hgt]
    · rwa [hlt, heq, hgt]

theorem commit_inv {s : State} {res : Result} (hres : res.Legal) (hs : s.Inv) : (s.commit res).Inv :=
  inv_iff.mpr ⟨hres.1, commit_flagsLegal hres (inv_iff.mp hs).2⟩

theorem applyReset_inv (s : State) : (applyReset s).Inv :=
  inv_iff.mpr ⟨by simp, by simp [flagsLegal]⟩

/-- Settles O35: each of the four kinds of step keeps the error code and the flags legal. -/
theorem legalStateIsKeptByEveryStep : Obligations.LegalStateIsKeptByEveryStep := by
  intro s t hs h
  rcases step_next_cases h with ⟨-, -, rfl⟩ | ⟨p, res, -, -, hres, rfl⟩ | ⟨x, rest, -, hx⟩ | ⟨rest, -, rfl⟩
  · exact (inv_congr (advance_results s)).mpr hs
  · exact commit_inv hres ((inv_congr (advance_results s)).mpr hs)
  · exact (inv_congr (hostStep_results hx)).mpr hs
  · exact applyReset_inv _

/-- Settles O36. -/
theorem resetStateIsLegal : Obligations.ResetStateIsLegal :=
  inv_iff.mpr ⟨by decide, by decide⟩

/-- Settles O37: an idle turn and a host access leave the result fields as they were, which leaves the completion and
the reset. -/
theorem resultsChangeOnlyAtCompletionOrReset : Obligations.ResultsChangeOnlyAtCompletionOrReset := by
  intro s t h hchange
  have hne : t.results ≠ s.results := by
    simpa only [Ne, results_eq_iff, not_and_or] using hchange
  rcases step_next_cases h with ⟨-, -, rfl⟩ | ⟨p, res, hb, hp, -, rfl⟩ | ⟨x, rest, -, hx⟩ | ⟨rest, hr, -⟩
  · exact absurd (advance_results s) hne
  · exact .inl ⟨hb, by simp [hp], commit_pend _ _⟩
  · exact absurd (hostStep_results hx) hne
  · exact .inr ⟨rest, hr⟩

/-! ## `DROP` -/

/-- A CMD write leaves `DROP` at the `BUSY` it found (10_state.md R28, 20_memory.md R46). -/
theorem writeCmd_drop (s : State) (v : Word) : (writeCmd s v).drop = s.busy := by
  cases hp : s.pend with
  | none => simp [writeCmd_idle s v hp, State.busy, hp]
  | some p => simp [writeCmd_busy s v hp, State.busy, hp]

/-- An access that the block answers is a defined one. -/
theorem harmless_of_hostStep_next {x : Access} {s t : State} (h : hostStep x s = .next t) : x.harmless := by
  intro off hr
  cases x <;> simp only [Access.route] at hr <;> simp [hostStep, hr, hostRead, hostWrite] at h

theorem hostStep_cmdWrite_drop {x : Access} {s t : State} (hx : x.isCmdWrite) (h : hostStep x s = .next t) :
    t.drop = s.busy := by
  obtain ⟨v, rfl⟩ := hx
  rw [hostStep_write (by decide) (by decide)] at h
  cases h
  exact writeCmd_drop s v

theorem hostStep_drop {x : Access} {s t : State} (hx : ¬ x.isCmdWrite) (h : hostStep x s = .next t) :
    t.drop = s.drop := by
  obtain ⟨t', h', -, hdrop, -⟩ := hostStep_passive (x := x) ⟨harmless_of_hostStep_next h, hx⟩ s
  rw [h'] at h
  cases h
  exact hdrop

/-- Settles O38: a clause for each of CMD write, reset, and any other step. -/
theorem dropFollowsCmdWrites : Obligations.DropFollowsCmdWrites := by
  intro s t h
  refine ⟨fun x rest hsched hx => ?_, fun rest hsched => ?_, fun hcmd hreset => ?_⟩
  · rw [step_host hsched] at h
    exact (hostStep_cmdWrite_drop hx h).trans (advance_busy s)
  · rw [step_reset hsched] at h
    cases h
    exact applyReset_drop _
  · rcases step_next_cases h with ⟨-, -, rfl⟩ | ⟨p, res, -, -, -, rfl⟩ | ⟨x, rest, hsched, hx⟩ | ⟨rest, hsched, -⟩
    · exact advance_drop s
    · exact commit_drop _ _
    · exact (hostStep_drop (hcmd x rest hsched) hx).trans (advance_drop s)
    · exact absurd hsched (hreset rest)

/-! ## The operand registers and their halves -/

theorem regAt_eq_aLo_iff {off : Nat} : regAt off = .aLo ↔ off = 0x00 := by
  simp only [regAt]; split_ifs <;> simp_all
theorem regAt_eq_aHi_iff {off : Nat} : regAt off = .aHi ↔ off = 0x04 := by
  simp only [regAt]; split_ifs <;> simp_all
theorem regAt_eq_bLo_iff {off : Nat} : regAt off = .bLo ↔ off = 0x08 := by
  simp only [regAt]; split_ifs <;> simp_all
theorem regAt_eq_bHi_iff {off : Nat} : regAt off = .bHi ↔ off = 0x0C := by
  simp only [regAt]; split_ifs <;> simp_all

/-- What a bus write makes of `A` (20_memory.md R45). -/
theorem busWrite_regA (s : State) (r : WindowReg) (v : Word) : (busWrite s r v).regA =
    if r = .aLo then setLo s.regA v else if r = .aHi then setHi s.regA v else s.regA := by
  cases r
  case cmd => simp only [busWrite, writeCmd]; split <;> rfl
  all_goals rfl

/-- What a bus write makes of `B` (R45). -/
theorem busWrite_regB (s : State) (r : WindowReg) (v : Word) : (busWrite s r v).regB =
    if r = .bLo then setLo s.regB v else if r = .bHi then setHi s.regB v else s.regB := by
  cases r
  case cmd => simp only [busWrite, writeCmd]; split <;> rfl
  all_goals rfl

/-- A host access that answers leaves both operands as they were, or does one bus write. -/
theorem hostStep_operands_cases {x : Access} {s t : State} (h : hostStep x s = .next t) :
    (t.regA = s.regA ∧ t.regB = s.regB) ∨
    ∃ off v, x = .write (Config.base + off) 4 v ∧ t = busWrite s (regAt off) v := by
  rcases hostStep_cases x s with ⟨-, e⟩ | ⟨_, _, -, -, -, -, e⟩ | ⟨off, v, rfl, -, -, e⟩ | ⟨_, _, -, e⟩ <;>
    rw [e] at h <;> cases h
  · exact .inl ⟨rfl, rfl⟩
  · exact .inl ⟨rfl, rfl⟩
  · exact .inr ⟨off, v, rfl, rfl⟩

/-- A step that answers leaves both operands as they were, or does one bus write, or resets. -/
theorem step_operands_cases {s t : State} (h : step s = .next t) :
    (t.regA = s.regA ∧ t.regB = s.regB) ∨
    (∃ off v rest, s.schedule = .host (.write (Config.base + off) 4 v) :: rest ∧
      t = busWrite s.advance (regAt off) v) ∨
    ∃ rest, s.schedule = .reset :: rest := by
  rcases step_next_cases h with ⟨-, -, rfl⟩ | ⟨p, res, -, -, -, rfl⟩ | ⟨x, rest, hsched, hx⟩ | ⟨rest, hsched, -⟩
  · exact .inl ⟨rfl, rfl⟩
  · exact .inl ⟨commit_regA _ _, commit_regB _ _⟩
  · rcases hostStep_operands_cases hx with hkept | ⟨off, v, rfl, rfl⟩
    · exact .inl hkept
    · exact .inr (.inl ⟨off, v, rest, hsched, rfl⟩)
  · exact .inr (.inr ⟨rest, hsched⟩)

/-- Settles O39: a bus write changes `A` only at the offsets of its halves, and `B` only at those of its own. -/
theorem operandsChangeOnlyByHostWrites : Obligations.OperandsChangeOnlyByHostWrites := by
  intro s t h
  rcases step_operands_cases h with ⟨hA, hB⟩ | ⟨off, v, rest, hsched, rfl⟩ | hreset
  · exact ⟨fun hne => absurd hA hne, fun hne => absurd hB hne⟩
  · constructor <;> intro hne
    · rw [busWrite_regA] at hne
      split_ifs at hne with hlo hhi
      · exact .inl ⟨off, v, rest, .inl (regAt_eq_aLo_iff.mp hlo), hsched⟩
      · exact .inl ⟨off, v, rest, .inr (regAt_eq_aHi_iff.mp hhi), hsched⟩
      · exact absurd rfl hne
    · rw [busWrite_regB] at hne
      split_ifs at hne with hlo hhi
      · exact .inl ⟨off, v, rest, .inl (regAt_eq_bLo_iff.mp hlo), hsched⟩
      · exact .inl ⟨off, v, rest, .inr (regAt_eq_bHi_iff.mp hhi), hsched⟩
      · exact absurd rfl hne
  · exact ⟨fun _ => .inr hreset, fun _ => .inr hreset⟩

/-- The four halves of the operand registers (20_memory.md R41). -/
def WindowReg.IsOperandHalf (r : WindowReg) : Prop := r = .aLo ∨ r = .aHi ∨ r = .bLo ∨ r = .bHi

theorem isOperandHalf_regAt_iff {off : Nat} :
    (regAt off).IsOperandHalf ↔ off = 0x00 ∨ off = 0x04 ∨ off = 0x08 ∨ off = 0x0C := by
  simp only [WindowReg.IsOperandHalf, regAt_eq_aLo_iff, regAt_eq_aHi_iff, regAt_eq_bLo_iff, regAt_eq_bHi_iff]

/-- An operand half stands at one offset of the window. -/
theorem offset_unique {off off' : Nat} (hr : (regAt off).IsOperandHalf) (h : regAt off' = regAt off) : off' = off := by
  rcases isOperandHalf_regAt_iff.mp hr with rfl | rfl | rfl | rfl
  · exact regAt_eq_aLo_iff.mp h
  · exact regAt_eq_aHi_iff.mp h
  · exact regAt_eq_bLo_iff.mp h
  · exact regAt_eq_bHi_iff.mp h

theorem busRead_operandHalf_congr {s t : State} {r : WindowReg} (hr : r.IsOperandHalf) (hA : t.regA = s.regA)
    (hB : t.regB = s.regB) : busRead t r = busRead s r := by
  rcases hr with rfl | rfl | rfl | rfl <;> simp only [busRead, hA, hB]

theorem busRead_busWrite_same {r : WindowReg} (hr : r.IsOperandHalf) (s : State) (v : Word) :
    busRead (busWrite s r v) r = v := by
  rcases hr with rfl | rfl | rfl | rfl <;> simp [busRead]

theorem busRead_busWrite_ne {r r' : WindowReg} (hr : r.IsOperandHalf) (hne : r' ≠ r) (s : State) (v : Word) :
    busRead (busWrite s r' v) r = busRead s r := by
  rcases hr with rfl | rfl | rfl | rfl <;> simp only [busRead, busWrite_regA, busWrite_regB, if_neg hne] <;>
    split_ifs <;> simp

/-! ## What one step does to an operand half -/

/-- The block's turn always answers; it ends with nothing in flight and leaves the operands and `DROP` alone (R33). -/
theorem step_blockNext {s : State} (hb : s.blockNext) :
    ∃ t, step s = .next t ∧ t.schedule = s.schedule.tail ∧ t.pend = none ∧ t.regA = s.regA ∧ t.regB = s.regB ∧
      t.drop = s.drop := by
  cases hp : s.pend with
  | none => exact ⟨_, step_idle hb hp, rfl, hp, rfl, rfl, rfl⟩
  | some p =>
    obtain ⟨res, hres⟩ := step_commits p
    exact ⟨_, hres s hb hp, by simp⟩

theorem hostStep_keeps_half {off : Nat} {x : Access} {s t : State} (hr : (regAt off).IsOperandHalf)
    (hx : ∀ v, x ≠ accessW off v) (h : hostStep x s = .next t) : busRead t (regAt off) = busRead s (regAt off) := by
  rcases hostStep_operands_cases h with ⟨hA, hB⟩ | ⟨off', v, rfl, rfl⟩
  · exact busRead_operandHalf_congr hr hA hB
  · refine busRead_busWrite_ne hr (fun hreg => hx v ?_) s v
    rw [offset_unique hr hreg, accessW]

/-- An event that stops nothing, resets nothing and does not write the half at `off`. -/
def Event.SparesHalf (off : Nat) (e : Event) : Prop := e.harmless ∧ e ≠ .reset ∧ ∀ v, e ≠ .host (accessW off v)

theorem step_keeps_half {off : Nat} {e : Event} {rest : List Event} {s : State} (hr : (regAt off).IsOperandHalf)
    (he : e.SparesHalf off) (hs : s.schedule = e :: rest) :
    ∃ t, step s = .next t ∧ t.schedule = rest ∧ busRead t (regAt off) = busRead s (regAt off) := by
  obtain ⟨hharm, hreset, hwrite⟩ := he
  cases e with
  | host x =>
    obtain ⟨t, ht⟩ := hostStep_harmless hharm s.advance
    have hhalf := hostStep_keeps_half hr (fun v hv => hwrite v (congrArg Event.host hv)) ht
    refine ⟨t, by rw [step_host hs, ht], by simp [hostStep_schedule ht, hs], ?_⟩
    exact hhalf.trans (busRead_operandHalf_congr hr rfl rfl)
  | block =>
    obtain ⟨t, ht, hsched, -, hA, hB, -⟩ := step_blockNext (.inr ⟨rest, hs⟩)
    exact ⟨t, ht, by simp [hsched, hs], busRead_operandHalf_congr hr hA hB⟩
  | reset => exact absurd rfl hreset

/-! ## Runs through a piece of the schedule -/

/-- If every event of kind `P` keeps `Keeps`, so does the run through a piece of the schedule made of such events. -/
theorem runFor_events {P : Event → Prop} {Keeps : State → Prop}
    (hstep : ∀ {e rest s}, P e → s.schedule = e :: rest → Keeps s →
      ∃ t, step s = .next t ∧ t.schedule = rest ∧ Keeps t)
    {mid tail : List Event} {s : State} (hmid : ∀ e ∈ mid, P e) (hs : s.schedule = mid ++ tail) (hk : Keeps s) :
    ∃ t, runFor mid.length s = .next t ∧ t.schedule = tail ∧ Keeps t := by
  induction mid generalizing s with
  | nil => exact ⟨s, runFor_zero s, hs, hk⟩
  | cons e mid ih =>
    obtain ⟨s', hs', hsched, hk'⟩ := hstep (hmid e List.mem_cons_self) hs hk
    obtain ⟨t, ht, htail⟩ := ih (fun e' he' => hmid e' (List.mem_cons_of_mem e he')) hsched hk'
    exact ⟨t, (runFor_succ hs').trans ht, htail⟩

/-- Settles O31: the write puts `v` into the half, every event between keeps it there, and the read returns it. -/
theorem readBackReturnsTheLatestWrite : Obligations.ReadBackReturnsTheLatestWrite := by
  intro s off v mid rest hoff hmid hs
  have hr : (regAt off).IsOperandHalf := isOperandHalf_regAt_iff.mpr hoff
  have h4 : off % 4 = 0 := by omega
  have h64 : off < 64 := by omega
  have hwrite : step s = .next (busWrite s.advance (regAt off) v) :=
    (step_host hs).trans (hostStep_write h4 h64 v s.advance)
  obtain ⟨t, ht, hsched, hhalf⟩ := runFor_events (P := Event.SparesHalf off)
    (Keeps := fun t => busRead t (regAt off) = v) (tail := .host (accessRD off) :: rest)
    (fun he hsch hk => by
      obtain ⟨t, ht, htail, hhalf⟩ := step_keeps_half hr he hsch
      exact ⟨t, ht, htail, hhalf.trans hk⟩)
    hmid (by simp [hs]) (busRead_busWrite_same hr s.advance v)
  have hread := (step_host hsched).trans (hostStep_read h4 h64 t.advance)
  have hrun := (runFor_succ hwrite).trans ((runFor_add 1 ht).trans ((runFor_one t).trans hread))
  refine ⟨_, hrun, by simp [hsched], ?_⟩
  rw [List.head?_cons, busRead_operandHalf_congr hr (advance_regA t) (advance_regB t), hhalf]

/-! ## Interleavings of one completion -/

/-- From `s` to `t`, of all that a completion writes, at most the completion of `p` with `res` has happened. -/
structure AtMostCompleted (p : Pending) (res : Result) (s t : State) : Prop where
  drop : t.drop = s.drop
  progress : (t.pend = some p ∧ t.results = s.results) ∨ (t.pend = none ∧ t.results = (s.commit res).results)

section Interleaving
variable {p : Pending} {res : Result} {s t : State}
  (hres : ∀ s : State, s.blockNext → s.pend = some p → step s = .next (s.advance.commit res))
include hres

/-- The block's turn completes the command, if it has not completed already. -/
theorem AtMostCompleted.step_blockNext (h : AtMostCompleted p res s t) (hb : t.blockNext) :
    ∃ t', step t = .next t' ∧ t'.schedule = t.schedule.tail ∧ t'.drop = s.drop ∧ t'.pend = none ∧
      t'.results = (s.commit res).results := by
  rcases h.progress with ⟨hp, hr⟩ | ⟨hp, hr⟩
  · exact ⟨_, hres t hb hp, by simp, by simp [h.drop], commit_pend _ _,
      commit_results_congr ((advance_results t).trans hr) res⟩
  · exact ⟨_, step_idle hb hp, rfl, h.drop, hp, hr⟩

theorem AtMostCompleted.step_passive {e : Event} {rest : List Event} (he : e.passive)
    (hs : t.schedule = e :: rest) (h : AtMostCompleted p res s t) :
    ∃ t', step t = .next t' ∧ t'.schedule = rest ∧ AtMostCompleted p res s t' := by
  cases e with
  | host x =>
    obtain ⟨t', ht, hpend, hdrop, -⟩ := hostStep_passive he t.advance
    refine ⟨t', by rw [step_host hs, ht], by simp [hostStep_schedule ht, hs], hdrop.trans h.drop, ?_⟩
    rw [hpend, hostStep_results ht]
    exact h.progress
  | block =>
    obtain ⟨t', ht, hsched, hdrop, hpend, hr⟩ := h.step_blockNext hres (.inr ⟨rest, hs⟩)
    exact ⟨t', ht, by simp [hsched, hs], hdrop, .inr ⟨hpend, hr⟩⟩
  | reset => exact he.elim

end Interleaving

/-- Settles O42: through the schedule at most the completion happens, and the turn after it completes what is left. -/
theorem everyInterleavingCompletesAlike : Obligations.EveryInterleavingCompletesAlike := by
  intro s p hp hpassive
  obtain ⟨res, hres⟩ := step_commits p
  obtain ⟨t, ht, hsched, hmost⟩ := runFor_events (tail := []) (AtMostCompleted.step_passive hres) hpassive
    (List.append_nil _).symm ⟨rfl, .inl ⟨hp, rfl⟩⟩
  obtain ⟨t', ht', hsched', hdrop, hpend, hr⟩ := hmost.step_blockNext hres (.inl hsched)
  have hcommit : t'.results = ((State.advance { s with schedule := [] }).commit res).results :=
    hr.trans (commit_results_congr (by rfl) res)
  obtain ⟨hR, hS, herr, hlt, heq, hgt⟩ := results_eq_iff.mp hcommit
  exact ⟨t', _, by rw [runFor_add 1 ht, runFor_one, ht'], hres { s with schedule := [] } (.inl rfl) hp,
    hpend, by simp [hsched', hsched], hR, hS, herr, hlt, heq, hgt, hdrop⟩

/-! ## Reset, and the command a step runs -/

/-- Settles O1. -/
theorem resetLeavesSpecValues : Obligations.ResetLeavesSpecValues :=
  ⟨rfl, rfl, rfl, rfl, rfl, rfl, rfl, rfl, rfl, rfl, rfl⟩

/-- Settles O40. -/
theorem resetSetsEveryItem : Obligations.ResetSetsEveryItem := by
  intro s rest hs
  rw [step_reset hs]
  simp [applyReset, State.reset, hs]

theorem decode_of_decodeTableWord {nbits w : Nat} {i : Instr} (h : decodeTableWord nbits w = some i) :
    decode (tableWord nbits w) = .command i := by
  simp only [decodeTableWord] at h
  split_ifs at h
  cases hd : decode (tableWord nbits w) with
  | command j => simpa [hd] using h
  | illegal why => simp [hd] at h

/-- Settles O7: both clauses are the completion of a decoded word, the second in the state `withFetchWord` prepares. -/
theorem stepRunsTheCommandInFlight : Obligations.StepRunsTheCommandInFlight := by
  refine ⟨fun s p i _ hb hp hd => step_command hb hp hd, fun s nbits w i h => ?_⟩
  have hb : (s.withFetchWord nbits w).blockNext := .inr ⟨s.schedule, rfl⟩
  rw [step_command hb (placeCommand_pend s _) (decode_of_decodeTableWord h), State.withFetchWord, placeCommand_advance]

end Sys2Proof.Machine
end

section
/-! PROOFS. The statements about the register window (20_memory.md): what its reads return, what its writes change, how
a command starts, and which accesses stop nothing or do not reach it. -/

namespace Sys2Proof.Machine

/-! ## The window's words as numbers -/

theorem lo_eq_ofNat (v : Value) : lo v = BitVec.ofNat 32 (u v % 2 ^ 32) := by
  rw [u, ← toNat_lo, BitVec.ofNat_toNat, BitVec.setWidth_eq]

theorem hi_eq_ofNat (v : Value) : hi v = BitVec.ofNat 32 (u v / 2 ^ 32) := by
  rw [u, ← toNat_hi, BitVec.ofNat_toNat, BitVec.setWidth_eq]

theorem pair_eq_bits64 (h l : Word) : pair h l = bits64 (h.toNat * 2 ^ 32 + l.toNat : Nat) := by
  rw [← toNat_pair]
  exact (bits64_u (pair h l)).symm

theorem setLo_eq_bits64 (v : Value) (w : Word) : setLo v w = bits64 (u v / 2 ^ 32 * 2 ^ 32 + w.toNat : Nat) := by
  rw [setLo, pair_eq_bits64, toNat_hi, u]

theorem setHi_eq_bits64 (v : Value) (w : Word) : setHi v w = bits64 (w.toNat * 2 ^ 32 + u v % 2 ^ 32 : Nat) := by
  rw [setHi, pair_eq_bits64, toNat_lo, u]

/-! ## Reads and writes of the window -/

theorem advance_of_schedule {s : State} {e : Event} {rest : List Event} (h : s.schedule = e :: rest) :
    s.advance = { s with schedule := rest } := by
  rw [State.advance, h, List.tail_cons]

/-- The model's read goes through the register map; R44's table goes by the offset. -/
theorem busRead_regAt {off : Nat} (h4 : off % 4 = 0) (h64 : off < 64) (s : State) :
    busRead s (regAt off) = windowWord s off := by
  rcases offset_cases h4 h64 with rfl | rfl | rfl | rfl | rfl | rfl | rfl | rfl | rfl | rfl | hreserved
  · exact lo_eq_ofNat s.regA
  · exact hi_eq_ofNat s.regA
  · exact lo_eq_ofNat s.regB
  · exact hi_eq_ofNat s.regB
  · rfl
  · exact statusWord_eq s
  · exact lo_eq_ofNat s.regR
  · exact hi_eq_ofNat s.regR
  · exact lo_eq_ofNat s.regS
  · exact hi_eq_ofNat s.regS
  · rcases hreserved with rfl | rfl | rfl | rfl | rfl | rfl <;> rfl

theorem step_read {s : State} {off : Nat} {rest : List Event} (h4 : off % 4 = 0) (h64 : off < 64)
    (hs : s.schedule = .host (accessRD off) :: rest) :
    step s = .next { s with schedule := rest, busReads := busRead s (regAt off) :: s.busReads } := by
  rw [step_host hs, accessRD, hostStep_read h4 h64, advance_of_schedule hs]
  rfl

/-- Settles O29: the register map of the model gives the words of R44's table. -/
theorem windowReadsReturnTheRegisters : Obligations.WindowReadsReturnTheRegisters := by
  intro s off rest h4 h64 hs
  rw [step_read h4 h64 hs, busRead_regAt h4 h64]

theorem regAt_eq_cmd_iff {off : Nat} : regAt off = .cmd ↔ off = 0x10 := by
  simp only [regAt]; split_ifs <;> simp_all

/-- A write elsewhere than CMD changes at most the operands (20_memory.md R45). -/
theorem busWrite_of_ne_cmd {r : WindowReg} (hr : r ≠ .cmd) (s : State) (v : Word) :
    busWrite s r v = { s with regA := (busWrite s r v).regA, regB := (busWrite s r v).regB } := by
  cases r
  case cmd => exact absurd rfl hr
  all_goals rfl

/-- Settles O30: away from CMD a write changes at most `A` and `B`, and each of them at the offsets of its halves. -/
theorem windowWritesReplaceOneHalf : Obligations.WindowWritesReplaceOneHalf := by
  intro s off v rest h4 h64 hcmd hs
  rw [step_host hs, hostStep_write h4 h64, busWrite_of_ne_cmd (mt regAt_eq_cmd_iff.mp hcmd), advance_of_schedule hs]
  simp only [busWrite_regA, busWrite_regB, regAt_eq_aLo_iff, regAt_eq_aHi_iff, regAt_eq_bLo_iff, regAt_eq_bHi_iff,
    setLo_eq_bits64, setHi_eq_bits64]

/-! ## How a command starts -/

theorem step_cmdWrite {s : State} {v : Word} {rest : List Event}
    (hs : s.schedule = .host (.write (Config.base + 0x10) 4 v) :: rest) :
    step s = .next (writeCmd { s with schedule := rest } v) := by
  rw [step_host hs, hostStep_write (by decide) (by decide), advance_of_schedule hs]
  rfl

/-- A CMD write after which another triple is in flight found nothing in flight. -/
theorem writeCmd_starts {s : State} {v : Word} {p : Pending} (h : (writeCmd s v).pend = some p)
    (hnew : s.pend ≠ some p) : s.pend = none ∧ p = ⟨v, s.regA, s.regB⟩ := by
  cases hs : s.pend with
  | none =>
    rw [writeCmd_idle s v hs] at h
    exact ⟨rfl, (Option.some.inj h).symm⟩
  | some q =>
    rw [writeCmd_busy s v hs] at h
    exact absurd h hnew

theorem hostStep_pend {x : Access} {s t : State} (hx : ¬ x.isCmdWrite) (h : hostStep x s = .next t) :
    t.pend = s.pend := by
  obtain ⟨t', h', hpend, -⟩ := hostStep_passive (x := x) ⟨harmless_of_hostStep_next h, hx⟩ s
  rw [h'] at h
  cases h
  exact hpend

/-- A step after which another triple is in flight is a CMD write: no other kind of step puts one there (R46). -/
theorem step_starts {s t : State} {p : Pending} (h : step s = .next t) (hp : t.pend = some p)
    (hnew : s.pend ≠ some p) :
    ∃ v rest, s.schedule = .host (.write (Config.base + 0x10) 4 v) :: rest ∧ t = writeCmd s.advance v := by
  rcases step_next_cases h with ⟨-, -, rfl⟩ | ⟨_, _, -, -, -, rfl⟩ | ⟨x, rest, hs, hx⟩ | ⟨rest, -, rfl⟩
  · exact absurd hp hnew
  · simp at hp
  · by_cases hcmd : x.isCmdWrite
    · obtain ⟨v, rfl⟩ := hcmd
      rw [hostStep_write (by decide) (by decide)] at hx
      cases hx
      exact ⟨v, rest, hs, rfl⟩
    · exact absurd ((hostStep_pend hcmd hx).symm.trans hp) hnew
  · simp at hp

/-- Settles O32: a CMD write accepts or drops by what it finds in flight, and any other step leaves what is in flight or
ends it. -/
theorem cmdWriteAcceptsOrDrops : Obligations.CmdWriteAcceptsOrDrops := by
  refine ⟨fun s v rest hs => ⟨fun hidle => ?_, fun hbusy => ?_⟩, fun s t p h hp hnew => ?_⟩
  · exact (step_cmdWrite hs).trans (congrArg Host.Outcome.next (writeCmd_idle _ v hidle))
  · obtain ⟨q, hq⟩ := Option.ne_none_iff_exists'.mp hbusy
    exact (step_cmdWrite hs).trans (congrArg Host.Outcome.next (writeCmd_busy _ v hq))
  · obtain ⟨v, rest, hs, rfl⟩ := step_starts h hp hnew
    obtain ⟨hidle, rfl⟩ := writeCmd_starts hp hnew
    exact ⟨hidle, rfl, rfl, rest, hs⟩

/-! ## Reads while idle -/

/-- From `s` to `t` nothing came into flight, the results stood still, and the host at most read further words. -/
structure StayedIdle (s t : State) : Prop where
  pend : t.pend = none
  results : t.results = s.results
  reads : ∃ words, t.busReads = words ++ s.busReads

theorem StayedIdle.step_passive {s t : State} {e : Event} {rest : List Event} (he : e.passive)
    (ht : t.schedule = e :: rest) (h : StayedIdle s t) :
    ∃ t', step t = .next t' ∧ t'.schedule = rest ∧ StayedIdle s t' := by
  cases e with
  | host x =>
    obtain ⟨t', ht', hpend, -, words, hwords⟩ := hostStep_passive he t.advance
    obtain ⟨before, hbefore⟩ := h.reads
    refine ⟨t', by rw [step_host ht, ht'], by simp [hostStep_schedule ht', ht],
      hpend.trans h.pend, (hostStep_results ht').trans h.results, words ++ before, ?_⟩
    rw [hwords, advance_busReads, hbefore, List.append_assoc]
  | block => exact ⟨_, step_idle (.inr ⟨rest, ht⟩) h.pend, by simp [ht], h.pend, h.results, h.reads⟩
  | reset => exact he.elim

/-- Settles O43: the first read leaves the block idle, every event between keeps it so, and the second read finds the
same `R`. -/
theorem halvesReadWhileIdleBelongTogether : Obligations.HalvesReadWhileIdleBelongTogether := by
  intro s mid hidle hmid hs
  have hlo := step_read (by decide) (by decide) hs
  obtain ⟨t, ht, hsched, -, hresults, words, hwords⟩ :=
    runFor_events (s := { s with schedule := mid ++ [.host (accessRD 0x1C)], busReads := lo s.regR :: s.busReads })
      StayedIdle.step_passive hmid rfl ⟨hidle, rfl, [], rfl⟩
  have hhi := step_read (by decide) (by decide) hsched
  obtain ⟨hR, -⟩ := results_eq_iff.mp hresults
  have hrun := (runFor_succ hlo).trans ((runFor_add 1 ht).trans ((runFor_one t).trans hhi))
  exact ⟨_, words, hrun, congrArg₂ List.cons (congrArg hi hR) hwords, hR⟩

/-! ## Accesses that stop nothing, and accesses outside the window -/

/-- A step stops only on an undefined access (20_memory.md R42), and each step takes one event of the schedule. -/
theorem step_of_harmless {s : State} (h : ∀ e ∈ s.schedule, e.harmless) :
    ∃ t, step s = .next t ∧ t.schedule = s.schedule.tail := by
  rcases schedule_cases s with hb | ⟨x, rest, hs⟩ | ⟨rest, hs⟩
  · obtain ⟨t, ht, hsched, -⟩ := step_blockNext hb
    exact ⟨t, ht, hsched⟩
  · have hx : x.harmless := h (.host x) (by simp [hs])
    obtain ⟨t, ht⟩ := hostStep_harmless hx s.advance
    exact ⟨t, (step_host hs).trans ht, hostStep_schedule ht⟩
  · exact ⟨_, step_reset hs, rfl⟩

/-- Settles O46, by induction on the number of steps: what is left of a harmless schedule is harmless. -/
theorem harmlessSchedulesRunForever : Obligations.HarmlessSchedulesRunForever := by
  intro n
  induction n with
  | zero => exact fun s _ => ⟨s, runFor_zero s⟩
  | succ n ih =>
    intro s h
    obtain ⟨s', hs', hsched⟩ := step_of_harmless h
    obtain ⟨t, ht⟩ := ih s' fun e he => h e (List.mem_of_mem_tail (hsched ▸ he))
    exact ⟨t, (runFor_succ hs').trans ht⟩

theorem hostStep_outside {x : Access} (hx : x.route = .outside) (s : State) : hostStep x s = .next s := by
  cases x with
  | read addr size => rw [hostStep, show route addr size = .outside from hx, hostRead]
  | write addr size v => rw [hostStep, show route addr size = .outside from hx, hostWrite]

theorem step_outside {s : State} {x : Access} {rest : List Event} (hs : s.schedule = .host x :: rest)
    (hx : x.route = .outside) : step s = .next { s with schedule := rest } := by
  rw [step_host hs, hostStep_outside hx, advance_of_schedule hs]

/-- Settles O34: an access with no byte in the window is routed outside it, so its step only takes the event. -/
theorem accessOutsideTheWindowChangesNothing : Obligations.AccessOutsideTheWindowChangesNothing := by
  intro s addr size v rest hsize hout
  have hroute : route addr size = .outside := route_outside (by rwa [Nat.max_eq_left hsize])
  exact ⟨fun hs => step_outside hs hroute, fun hs => step_outside hs hroute⟩

end Sys2Proof.Machine
end

section
/-! PROOFS. The statements about the command word (30_encoding.md sections 1 to 4): the decoder against the encoder, the
opcode map and the list of illegal words. -/

namespace Sys2Proof

/-! ## The decoder's two answers -/

theorem decode_eq_command_iff {c : Word} {i : Instr} :
    decode c = .command i ↔ rsvdField c = 0 ∧ lookupOpc (opcField c) = some i := by
  refine ⟨fun h => ?_, fun ⟨hr, hl⟩ => decode_assigned hr hl⟩
  by_cases hr : rsvdField c = 0
  · cases hl : lookupOpc (opcField c) with
    | none => rw [decode_unassigned hr hl] at h; cases h
    | some j => rw [decode_assigned hr hl] at h; cases h; exact ⟨hr, rfl⟩
  · rw [decode_reserved hr] at h; cases h

theorem decode_illegal_iff {c : Word} :
    (∃ why, decode c = .illegal why) ↔ ¬ ∃ i, decode c = .command i := by
  cases decode c <;> simp

/-- A row found by its `OPC` is a row of the map R63 with that `OPC`. -/
theorem mem_opcodeTable_of_lookupOpc {opc : BitVec 8} {i : Instr} (h : lookupOpc opc = some i) :
    ⟨opc, i⟩ ∈ opcodeTable := by
  obtain ⟨row, hfind, rfl⟩ := Option.map_eq_some_iff.mp h
  have hopc : row.opc = opc := by simpa using List.find?_some hfind
  rw [← hopc]
  exact List.mem_of_find?_eq_some hfind

/-- The decoder's map and the encoder give each command the same `OPC` (R63). -/
theorem opcodeTable_agrees_with_encode : ∀ row ∈ opcodeTable, row.opc = opcField (encode row.instr) := by decide

theorem rsvdField_encode (i : Instr) : rsvdField (encode i) = 0 := by cases i <;> decide

theorem lookupOpc_encode (i : Instr) : lookupOpc (opcField (encode i)) = some i := by cases i <;> decide

theorem decode_encode (i : Instr) : decode (encode i) = .command i :=
  decode_assigned (rsvdField_encode i) (lookupOpc_encode i)

/-- The decoder is the encoder's inverse: a word that decodes to `i` has the two fields of `i`'s own word. -/
theorem decode_eq_command_iff_encode {c : Word} {i : Instr} : decode c = .command i ↔ c = encode i := by
  constructor
  · intro h
    obtain ⟨hrsvd, hl⟩ := decode_eq_command_iff.mp h
    have hopc : opcField c = opcField (encode i) :=
      opcodeTable_agrees_with_encode _ (mem_opcodeTable_of_lookupOpc hl)
    rw [word_eq_fields c, word_eq_fields (encode i), hrsvd, hopc, rsvdField_encode]
  · rintro rfl
    exact decode_encode i

/-- Settles O4. -/
theorem decodeAndEncodeAgree : Obligations.DecodeAndEncodeAgree :=
  fun _ _ _ => decode_eq_command_iff_encode

/-- Settles O2: the eight legal words are the encodings of their commands. -/
theorem sampleWordsDecodeAsMapped : Obligations.SampleWordsDecodeAsMapped :=
  ⟨decode_encode .sub, decode_encode .divs, decode_encode .abs, decode_encode .xor, decode_encode .sra,
    decode_encode .cmps, decode_encode .lzc, decode_encode .cvtsf, by decide, by decide⟩

/-- A table that lists each command once with its encoding is the graph of `encode`. -/
theorem mem_iff_eq_encode {rows : List (Word × Instr)} (hsound : ∀ row ∈ rows, row.1 = encode row.2)
    (hall : ∀ i, (encode i, i) ∈ rows) (c : Word) (i : Instr) : (c, i) ∈ rows ↔ c = encode i :=
  ⟨hsound (c, i), fun h => h ▸ hall i⟩

/-- Settles O3: R63's table lists each command with its encoding, and the decoder inverts the encoder. -/
theorem opcodeMapIsAsTabulated : Obligations.OpcodeMapIsAsTabulated := by
  intro c i
  rw [mem_iff_eq_encode (by decide) (fun j => by cases j <;> decide)]
  exact decode_eq_command_iff_encode

/-! ## R64's list of illegal words -/

/-- An `OPC` that R64 lists, by its group or by its function. -/
def opcListedIllegal (opc : Nat) : Prop :=
  opc / 2 ^ 4 = 0 ∨ 9 ≤ opc / 2 ^ 4 ∨
  (0x12 ≤ opc ∧ opc ≤ 0x1F) ∨ (0x26 ≤ opc ∧ opc ≤ 0x2F) ∨ (0x32 ≤ opc ∧ opc ≤ 0x3F) ∨
  (0x44 ≤ opc ∧ opc ≤ 0x4F) ∨ (0x53 ≤ opc ∧ opc ≤ 0x5F) ∨ (0x66 ≤ opc ∧ opc ≤ 0x6F) ∨
  (0x71 ≤ opc ∧ opc ≤ 0x7F) ∨ (0x84 ≤ opc ∧ opc ≤ 0x8F)

theorem lookupOpc_isSome_iff {opc : BitVec 8} : (∃ i, lookupOpc opc = some i) ↔ ¬ opcListedIllegal opc.toNat := by
  have hall : ∀ opc : BitVec 8, (lookupOpc opc).isSome = true ↔ ¬ opcListedIllegal opc.toNat := by
    unfold opcListedIllegal
    decide
  rw [← Option.isSome_iff_exists]
  exact hall opc

theorem toNat_rsvdField (c : Word) : (rsvdField c).toNat = c.toNat / 2 ^ 8 := by
  have := c.isLt
  rw [rsvdField, BitVec.extractLsb'_toNat, Nat.shiftRight_eq_div_pow]
  omega

theorem toNat_opcField (c : Word) : (opcField c).toNat = c.toNat % 2 ^ 8 := by
  rw [opcField, BitVec.extractLsb'_toNat, Nat.shiftRight_zero]

theorem rsvdField_eq_zero_iff {c : Word} : rsvdField c = 0 ↔ c.toNat / 2 ^ 8 = 0 := by
  rw [← BitVec.toNat_inj, toNat_rsvdField]
  rfl

/-- A word is a command exactly when R64 lists neither its reserved bits nor its `OPC`. -/
theorem exists_command_iff {c : Word} :
    (∃ i, decode c = .command i) ↔ c.toNat / 2 ^ 8 = 0 ∧ ¬ opcListedIllegal (c.toNat % 2 ^ 8) := by
  simp only [decode_eq_command_iff, exists_and_left, lookupOpc_isSome_iff, rsvdField_eq_zero_iff, toNat_opcField]

/-- The group is the upper half of `OPC` (R61). -/
theorem group_eq (n : Nat) : n / 2 ^ 4 % 2 ^ 4 = n % 2 ^ 8 / 2 ^ 4 := by omega

/-- Settles O5: the words that are no command are those of R64's list. -/
theorem illegalWordsAreThoseListed : Obligations.IllegalWordsAreThoseListed := by
  intro c
  rw [decode_illegal_iff, exists_command_iff, group_eq, not_and_or, not_not]
  rfl

theorem rsvdClear_iff {c : Word} : rsvdClear c = true ↔ c.toNat / 2 ^ 8 = 0 := by
  rw [← rsvdField_eq_zero_iff]
  exact beq_iff_eq

theorem groupAssigned_iff {c : Word} :
    groupAssigned c = true ↔ 1 ≤ c.toNat % 2 ^ 8 / 2 ^ 4 ∧ c.toNat % 2 ^ 8 / 2 ^ 4 ≤ 8 := by
  rw [groupAssigned, decide_eq_true_iff, BitVec.extractLsb'_toNat, Nat.shiftRight_eq_div_pow, group_eq]

/-- The two checks on `OPC` together turn away what R64 lists of it. -/
theorem opcChecks_iff {c : Word} :
    (groupAssigned c && !functionUnused c) = true ↔ ¬ opcListedIllegal (c.toNat % 2 ^ 8) := by
  rw [Bool.and_eq_true, groupAssigned_iff, Bool.not_eq_true', functionUnused, decide_eq_false_iff_not,
    BitVec.extractLsb'_toNat, Nat.shiftRight_zero, opcListedIllegal]
  constructor
  · rintro ⟨⟨hl, hu⟩, hf⟩ (h0 | h9 | h)
    · omega
    · omega
    · exact hf h
  · intro h
    obtain ⟨h0, hrest⟩ := not_or.mp h
    obtain ⟨h9, hf⟩ := not_or.mp hrest
    exact ⟨⟨Nat.pos_of_ne_zero h0, by omega⟩, hf⟩

/-- Settles O6: the checks and the decoder turn away the same words, those of R64's list. -/
theorem wellFormedWordsAreThoseDecoded : Obligations.WellFormedWordsAreThoseDecoded := by
  intro c
  rw [exists_command_iff, commandWordLegal, Bool.and_assoc, Bool.and_eq_true, rsvdClear_iff, opcChecks_iff]

end Sys2Proof
end

section
/-! PROOFS. The statements about what a completion writes and reads (30_encoding.md sections 2 and 5): the routing of
the results, and the latched operands as their only source. -/

namespace Sys2Proof.Machine

/-! ## One result for each triple in flight -/

/-- The triple in flight fixes the result that a command commits, whatever else the state holds (30_encoding.md R67). -/
theorem exec_commits (i : Instr) (p : Pending) :
    ∃ res, ResultShape i p.b res ∧ ∀ s : State, s.pend = some p → exec i s = .next (s.commit res) := by
  obtain ⟨f, he, hf⟩ := exec_shape i
  exact ⟨f p.a p.b, hf _ _, fun s hs => (he s).trans (complete_some f hs)⟩

theorem commit_results_of_err {res : Result} (h : res.err ≠ errNone) (s : State) :
    (s.commit res).regR = s.regR ∧ (s.commit res).regS = s.regS ∧ (s.commit res).lt = s.lt ∧
      (s.commit res).eq = s.eq ∧ (s.commit res).gt = s.gt := by
  simp only [State.commit, if_neg h, and_self]

theorem commit_regR_some {res : Result} {v : Value} (he : res.err = errNone) (h : res.r = some v) (s : State) :
    (s.commit res).regR = v := by
  rw [commit_regR, if_pos he, h, Option.getD_some]

theorem commit_regS_none {res : Result} (h : res.s = none) (s : State) : (s.commit res).regS = s.regS := by
  rw [commit_regS, h, Option.getD_none, ite_self]

theorem commit_regS_some {res : Result} {v : Value} (he : res.err = errNone) (h : res.s = some v) (s : State) :
    (s.commit res).regS = v := by
  rw [commit_regS, if_pos he, h, Option.getD_some]

theorem commit_flags_none {res : Result} (h : res.flags = none) (s : State) :
    (s.commit res).lt = s.lt ∧ (s.commit res).eq = s.eq ∧ (s.commit res).gt = s.gt := by
  simpa only [h, Prod.mk.injEq] using commit_flags s res

theorem commit_flags_some {res : Result} {f : CompareFlags} (he : res.err = errNone) (h : res.flags = some f)
    (s : State) : (s.commit res).lt = f.lt ∧ (s.commit res).eq = f.eq ∧ (s.commit res).gt = f.gt := by
  simpa only [h, he, if_true, Prod.mk.injEq] using commit_flags s res

/-! ## What the shapes of a result say of its parts (30_encoding.md R68) -/

section Shape
variable {i : Instr} {b : Value} {res : Result} (h : ResultShape i b res)
include h

theorem ResultShape.value_of_errNone (he : res.err = errNone) : ∃ v, res.r = some v := by
  rcases h with ⟨-, -, v, rfl⟩ | ⟨-, -, v, k, rfl⟩ | ⟨-, -, -, v, w, rfl⟩ | ⟨-, -, -, rfl⟩
  · exact ⟨v, rfl⟩
  · exact ⟨v, rfl⟩
  · exact ⟨v, rfl⟩
  · exact absurd he (by decide)

theorem ResultShape.of_not_divides (hi : ¬ Divides i) : res.err = errNone ∧ res.s = none := by
  rcases h with ⟨-, -, v, rfl⟩ | ⟨-, -, v, k, rfl⟩ | ⟨hd, -⟩ | ⟨hd, -⟩
  · exact ⟨rfl, rfl⟩
  · exact ⟨rfl, rfl⟩
  · exact absurd hd hi
  · exact absurd hd hi

theorem ResultShape.of_not_compares (hi : ¬ Compares i) : res.flags = none := by
  rcases h with ⟨-, -, v, rfl⟩ | ⟨-, hc, -⟩ | ⟨-, -, -, v, w, rfl⟩ | ⟨-, -, -, rfl⟩
  · rfl
  · exact absurd hc hi
  · rfl
  · rfl

end Shape

theorem not_divides_iff {i : Instr} : ¬ Divides i ↔ i ≠ .divu ∧ i ≠ .divs ∧ i ≠ .remu ∧ i ≠ .rems := by
  simp only [Divides, not_or, Ne]

theorem not_compares_iff {i : Instr} : ¬ Compares i ↔ i ≠ .cmpu ∧ i ≠ .cmps := by
  simp only [Compares, not_or, Ne]

/-- Settles O24: each clause is one part of the result that the command's shape lacks or has. -/
theorem resultRoutingIsAsListed : Obligations.ResultRoutingIsAsListed := by
  intro i s p hp
  obtain ⟨res, hshape, hexec⟩ := exec_commits i p
  refine ⟨s.commit res, hexec s hp, commit_pend s res, commit_regA s res, commit_regB s res, commit_drop s res,
    commit_schedule s res, commit_busReads s res, fun he => commit_results_of_err he s, fun hi => ?_, fun hi => ?_,
    fun he => ?_⟩
  · obtain ⟨he, hs⟩ := hshape.of_not_divides (not_divides_iff.mpr hi)
    exact ⟨he, commit_regS_none hs s⟩
  · exact commit_flags_none (hshape.of_not_compares (not_compares_iff.mpr hi)) s
  · obtain ⟨v, hv⟩ := hshape.value_of_errNone he
    refine ⟨v, fun s' t' hp' ht' => ?_⟩
    rw [hexec s' hp'] at ht'
    cases ht'
    exact commit_regR_some he hv s'

/-- Settles O25: both states commit the same result; a part it lacks, or an error, leaves the old value in both. -/
theorem resultDependsOnlyOnLatchedOperands : Obligations.ResultDependsOnlyOnLatchedOperands := by
  intro i s s' p hp hp'
  obtain ⟨res, hshape, hexec⟩ := exec_commits i p
  refine ⟨s.commit res, s'.commit res, hexec s hp, hexec s' hp', rfl, fun he => ?_, ?_⟩
  · obtain ⟨v, hv⟩ := hshape.value_of_errNone he
    rw [commit_regR_some he hv, commit_regR_some he hv]
  · by_cases he : res.err = errNone
    · constructor
      · cases hs : res.s with
        | none => exact .inr ⟨commit_regS_none hs s, commit_regS_none hs s'⟩
        | some w => exact .inl ((commit_regS_some he hs s).trans (commit_regS_some he hs s').symm)
      · cases hf : res.flags with
        | none =>
          obtain ⟨hlt, heq, hgt⟩ := commit_flags_none hf s
          exact .inr ⟨hlt, heq, hgt, commit_flags_none hf s'⟩
        | some f =>
          obtain ⟨hlt, heq, hgt⟩ := commit_flags_some he hf s
          obtain ⟨hlt', heq', hgt'⟩ := commit_flags_some he hf s'
          exact .inl ⟨hlt.trans hlt'.symm, heq.trans heq'.symm, hgt.trans hgt'.symm⟩
    · obtain ⟨-, hS, hlt, heq, hgt⟩ := commit_results_of_err he s
      obtain ⟨-, hS', hflags'⟩ := commit_results_of_err he s'
      exact ⟨.inr ⟨hS, hS'⟩, .inr ⟨hlt, heq, hgt, hflags'⟩⟩

/-! ## Operand bits that a command does not read (30_encoding.md R62) -/

/-- The meaning of a one-operand command takes `a` alone. -/
theorem exec_of_one {i : Instr} (h : i.arity = .one) :
    ∃ g : Value → Result, ∀ s, exec i s = complete (fun a _ => g a) s := by
  cases i
  case neg => exact ⟨fun a => .value (neg64 a), exec_neg⟩
  case abs => exact ⟨fun a => .value (abs64 a), exec_abs⟩
  case not => exact ⟨fun a => .value (pair (~~~ hi a) (~~~ lo a)), exec_not⟩
  case lzc => exact ⟨fun a => .value (BitVec.ofNat 64 (lzc64 a)), exec_lzc⟩
  case cvtfu => exact ⟨fun a => .value (f2i a), exec_cvtfu⟩
  case cvtfs => exact ⟨fun a => .value (f2i a), exec_cvtfs⟩
  case cvtuf => exact ⟨fun a => .value (rne64 (u a)), exec_cvtuf⟩
  case cvtsf => exact ⟨fun a => .value (cvtSigned a), exec_cvtsf⟩
  all_goals cases h

/-- The meaning of a shift takes `a` and the count. -/
theorem exec_of_shift {i : Instr} (h : i.arity = .shift) :
    ∃ g : Value → Nat → Result, ∀ s, exec i s = complete (fun a b => g a (shiftCount b)) s := by
  cases i
  case sll => exact ⟨fun a n => .value (shl64 a n), exec_sll⟩
  case srl => exact ⟨fun a n => .value (shr64 a n), exec_srl⟩
  case sra => exact ⟨fun a n => .value (sra64 a n), exec_sra⟩
  all_goals cases h

/-- What was in flight plays no part once its result is known. -/
theorem commit_set_pend (s : State) (q : Option Pending) (res : Result) :
    ({ s with pend := q } : State).commit res = s.commit res := by
  unfold State.commit
  split <;> rfl

theorem complete_set_pend (f : Value → Value → Result) (s : State) (p : Pending) :
    complete f { s with pend := some p } = .next (s.commit (f p.a p.b)) := by
  rw [complete_some f rfl, commit_set_pend]

/-- Settles O26: a one-operand command's rule does not take `b`, and a shift's takes the count of it. -/
theorem unreadOperandBitsAreIgnored : Obligations.UnreadOperandBitsAreIgnored := by
  intro i s c a b b' h
  rcases h with hone | ⟨hshift, hmod⟩
  · obtain ⟨g, hg⟩ := exec_of_one hone
    rw [hg, hg, complete_set_pend, complete_set_pend]
  · obtain ⟨g, hg⟩ := exec_of_shift hshift
    rw [hg, hg, complete_set_pend, complete_set_pend, shiftCount_eq, shiftCount_eq, hmod]

end Sys2Proof.Machine
end

section
/-! PROOFS. The statements about the pseudo-instructions as functions (30_encoding.md section 6): the predicates' flags,
the list folds, and decimal formatting. -/

namespace Sys2Proof.Machine

/-! ## The predicates (30_encoding.md R72, 45_compare.md R167) -/

/-- A three-way compare sets the flag of the relation that holds. -/
theorem flagsOf_threeWay {α : Type} [LinearOrder α] (x y : α) :
    flagsOf (if x < y then -1 else if x = y then 0 else 1) = ⟨decide (x < y), decide (x = y), decide (y < x)⟩ := by
  rcases lt_trichotomy x y with h | rfl | h
  · simp [flagsOf, h, h.ne, h.not_gt]
  · simp [flagsOf]
  · simp [flagsOf, h, h.ne', h.not_gt]

theorem flagsOf_cmpU (a b : Value) : flagsOf (cmpU a b) = ⟨decide (u a < u b), decide (a = b), decide (u b < u a)⟩ := by
  rw [cmpU_eq, flagsOf_threeWay]
  simp only [u, BitVec.toNat_inj]

theorem flagsOf_cmpS (a b : Value) :
    flagsOf (cmpS a b) = ⟨decide (sgn a < sgn b), decide (a = b), decide (sgn b < sgn a)⟩ := by
  rw [cmpS_eq, flagsOf_threeWay]
  simp only [sgn, BitVec.toInt_inj]

theorem exec_cmpu_flags {s : State} {p : Pending} (hp : s.pend = some p) :
    ∃ t, exec .cmpu s = .next t ∧ t.lt = decide (u p.a < u p.b) ∧ t.eq = decide (p.a = p.b) ∧
      t.gt = decide (u p.b < u p.a) :=
  ⟨_, (exec_cmpu s).trans (complete_some _ hp), by simp [compareResult, flagsOf_cmpU]⟩

theorem exec_cmps_flags {s : State} {p : Pending} (hp : s.pend = some p) :
    ∃ t, exec .cmps s = .next t ∧ t.lt = decide (sgn p.a < sgn p.b) ∧ t.eq = decide (p.a = p.b) ∧
      t.gt = decide (sgn p.b < sgn p.a) :=
  ⟨_, (exec_cmps s).trans (complete_some _ hp), by simp [compareResult, flagsOf_cmpS]⟩

/-- "Not above" read off LT and EQ, for a reading that tells values apart. -/
theorem decide_lt_or_eq {α : Type} [LinearOrder α] {key : Value → α} (hkey : Function.Injective key) (a b : Value) :
    (decide (key a < key b) || decide (a = b)) = decide (key a ≤ key b) := by
  simp only [le_iff_lt_or_eq, hkey.eq_iff, Bool.decide_or]

/-- "Not below" read off GT and EQ. -/
theorem decide_gt_or_eq {α : Type} [LinearOrder α] {key : Value → α} (hkey : Function.Injective key) (a b : Value) :
    (decide (key b < key a) || decide (a = b)) = decide (key b ≤ key a) := by
  rw [← decide_lt_or_eq hkey]
  simp only [eq_comm]

theorem u_injective : Function.Injective u := fun _ _ => BitVec.eq_of_toNat_eq
theorem sgn_injective : Function.Injective sgn := fun _ _ => BitVec.toInt_inj.mp

/-- Settles O51: each predicate reads the flags of the compare that it issues. -/
theorem predicatesReadTheCompareFlags : Obligations.PredicatesReadTheCompareFlags := by
  intro s p q hp
  obtain ⟨tu, hu, hltu, hequ, hgtu⟩ := exec_cmpu_flags hp
  obtain ⟨ts, hs, hlts, heqs, hgts⟩ := exec_cmps_flags hp
  cases q
  case eq => exact ⟨tu, hu, by simp only [Predicate.result, statusBit_eq, hequ]⟩
  case ne => exact ⟨tu, hu, by simp only [Predicate.result, statusBit_eq, hequ, decide_not]⟩
  case lts => exact ⟨ts, hs, by simp only [Predicate.result, statusBit_lt, hlts]⟩
  case ltu => exact ⟨tu, hu, by simp only [Predicate.result, statusBit_lt, hltu]⟩
  case gts => exact ⟨ts, hs, by simp only [Predicate.result, statusBit_gt, hgts]⟩
  case gtu => exact ⟨tu, hu, by simp only [Predicate.result, statusBit_gt, hgtu]⟩
  case les => exact ⟨ts, hs, by
    simp only [Predicate.result, statusBit_lt, statusBit_eq, hlts, heqs, decide_lt_or_eq sgn_injective]⟩
  case leu => exact ⟨tu, hu, by
    simp only [Predicate.result, statusBit_lt, statusBit_eq, hltu, hequ, decide_lt_or_eq u_injective]⟩
  case ges => exact ⟨ts, hs, by
    simp only [Predicate.result, statusBit_gt, statusBit_eq, hgts, heqs, decide_gt_or_eq sgn_injective]⟩
  case geu => exact ⟨tu, hu, by
    simp only [Predicate.result, statusBit_gt, statusBit_eq, hgtu, hequ, decide_gt_or_eq u_injective]⟩

/-! ## The list folds (R72) -/

/-- `f` gives the one of its operands with the smaller key. (A largest element is one whose negated reading is
smallest.) -/
def PicksSmaller (key : Value → Int) (f : Value → Value → Value) : Prop :=
  ∀ x y, (f x y = x ∧ key x ≤ key y) ∨ (f x y = y ∧ key y ≤ key x)

theorem foldl_smallest {key : Value → Int} {f : Value → Value → Value} (hf : PicksSmaller key f) (seed : Value)
    (vs : List Value) :
    (vs.foldl f seed = seed ∨ vs.foldl f seed ∈ vs) ∧ key (vs.foldl f seed) ≤ key seed ∧
      ∀ v ∈ vs, key (vs.foldl f seed) ≤ key v := by
  induction vs generalizing seed with
  | nil => exact ⟨.inl rfl, le_refl _, fun v hv => absurd hv List.not_mem_nil⟩
  | cons w rest ih =>
    obtain ⟨hmem, hle, hall⟩ := ih (f seed w)
    rw [List.forall_mem_cons, List.mem_cons, List.foldl_cons]
    rcases hf seed w with ⟨he, hk⟩ | ⟨he, hk⟩ <;> rw [he] at hmem hle hall ⊢
    · exact ⟨hmem.imp_right .inr, hle, hle.trans hk, hall⟩
    · exact ⟨.inr hmem, hle.trans hk, hle, hall⟩

/-- A fold whose seed is no smaller than any value gives a smallest element of a non-empty list. -/
theorem foldList_smallest {key : Value → Int} {f : Value → Value → Value} {seed : Value} (hf : PicksSmaller key f)
    (hkey : Function.Injective key) (hseed : ∀ v, key v ≤ key seed) {vs : List Value} (hne : vs ≠ []) :
    ∃ m ∈ vs, foldList f seed vs = some m ∧ ∀ v ∈ vs, key m ≤ key v := by
  obtain ⟨v, rest, rfl⟩ := List.exists_cons_of_ne_nil hne
  obtain ⟨hmem, -, hall⟩ := foldl_smallest hf seed (v :: rest)
  refine ⟨_, hmem.elim (fun hm => ?_) id, rfl, hall⟩
  have hv : v = (v :: rest).foldl f seed :=
    hkey (le_antisymm ((hseed v).trans_eq (congrArg key hm.symm)) (hall v List.mem_cons_self))
  exact hv ▸ List.mem_cons_self

theorem cmpS_nonpos_iff (a b : Value) : cmpS a b ≤ 0 ↔ sgn a ≤ sgn b := by
  rw [cmpS_eq]
  split_ifs <;> omega

theorem cmpS_nonneg_iff (a b : Value) : 0 ≤ cmpS a b ↔ sgn b ≤ sgn a := by
  rw [cmpS_eq]
  split_ifs <;> omega

theorem cmpU_nonpos_iff (a b : Value) : cmpU a b ≤ 0 ↔ u a ≤ u b := by
  rw [cmpU_eq]
  split_ifs <;> omega

theorem minBy_picksSmaller {key : Value → Int} {cmp : Value → Value → Int} (h : ∀ a b, cmp a b ≤ 0 ↔ key a ≤ key b) :
    PicksSmaller key fun acc v => minBy (cmp acc v) acc v := by
  intro a b
  by_cases hk : key a ≤ key b
  · exact .inl ⟨if_pos ((h a b).mpr hk), hk⟩
  · exact .inr ⟨if_neg (mt (h a b).mp hk), by omega⟩

theorem maxBy_picksSmaller {key : Value → Int} {cmp : Value → Value → Int} (h : ∀ a b, 0 ≤ cmp a b ↔ key b ≤ key a) :
    PicksSmaller (fun v => -key v) fun acc v => maxBy (cmp acc v) acc v := by
  intro a b
  by_cases hk : key b ≤ key a
  · exact .inl ⟨if_pos ((h a b).mpr hk), neg_le_neg hk⟩
  · exact .inr ⟨if_neg (mt (h a b).mp hk), neg_le_neg (le_of_not_ge hk)⟩

theorem sgn_le_maxS (v : Value) : sgn v ≤ sgn MAX_S := BitVec.toInt_le
theorem minS_le_sgn (v : Value) : sgn MIN_S ≤ sgn v := BitVec.le_toInt v
theorem minU_le_u (v : Value) : u MIN_U ≤ u v := Nat.zero_le _
theorem u_le_maxU (v : Value) : u v ≤ u MAX_U := Nat.le_of_lt_succ v.isLt

/-- Settles O52: each fold is one of a smallest element, by one of the four keys. -/
theorem listFoldsFindTheExtreme : Obligations.ListFoldsFindTheExtreme := by
  refine ⟨⟨rfl, rfl, rfl, rfl⟩, fun vs hne => ⟨?_, ?_, ?_, ?_⟩⟩
  · exact foldList_smallest (minBy_picksSmaller cmpS_nonpos_iff) sgn_injective sgn_le_maxS hne
  · obtain ⟨m, hm, hfold, hall⟩ := foldList_smallest (maxBy_picksSmaller cmpS_nonneg_iff)
      (neg_injective.comp sgn_injective) (fun v => neg_le_neg (minS_le_sgn v)) hne
    exact ⟨m, hm, hfold, fun v hv => neg_le_neg_iff.mp (hall v hv)⟩
  · obtain ⟨m, hm, hfold, hall⟩ := foldList_smallest (key := fun v => (u v : Int))
      (minBy_picksSmaller fun a b => (cmpU_nonpos_iff a b).trans Nat.cast_le.symm)
      (Nat.cast_injective.comp u_injective) (fun v => Nat.cast_le.mpr (u_le_maxU v)) hne
    exact ⟨m, hm, hfold, fun v hv => Nat.cast_le.mp (hall v hv)⟩
  · obtain ⟨m, hm, hfold, hall⟩ := foldList_smallest (key := fun v => -(u v : Int))
      (maxBy_picksSmaller fun a b => (cmpU_nonneg_iff a b).trans Nat.cast_le.symm)
      (neg_injective.comp (Nat.cast_injective.comp u_injective))
      (fun v => neg_le_neg (Nat.cast_le.mpr (minU_le_u v))) hne
    exact ⟨m, hm, hfold, fun v hv => Nat.cast_le.mp (neg_le_neg_iff.mp (hall v hv))⟩

/-! ## Decimal formatting (R72) -/

/-- The decimal digits of `n`, the most significant first; the single digit 0 for 0. -/
def decimalOf (n : Nat) : List Nat := if n = 0 then [0] else (Nat.digits 10 n).reverse

theorem decimalOf_of_lt_ten {n : Nat} (h : n < 10) : decimalOf n = [n] := by
  rcases Nat.eq_zero_or_pos n with rfl | hpos
  · rfl
  · rw [decimalOf, if_neg hpos.ne', Nat.digits_of_lt 10 n hpos.ne' h, List.reverse_singleton]

theorem decimalOf_of_ten_le {n : Nat} (h : 10 ≤ n) : decimalOf n = decimalOf (n / 10) ++ [n % 10] := by
  rw [decimalOf, if_neg (by omega), decimalOf, if_neg (by omega), Nat.digits_def' (by norm_num) (by omega),
    List.reverse_cons]

theorem decimalOf_lt_ten {n d : Nat} (h : d ∈ decimalOf n) : d < 10 := by
  rw [decimalOf] at h
  split_ifs at h
  · simp only [List.mem_singleton] at h
    omega
  · exact Nat.digits_lt_base (by norm_num) (List.mem_reverse.mp h)

theorem foldl_decimalOf (n : Nat) : (decimalOf n).foldl (fun n d => 10 * n + d) 0 = n := by
  rw [decimalOf]
  split_ifs with h
  · rw [h]; rfl
  · calc (Nat.digits 10 n).reverse.foldl (fun n d => 10 * n + d) 0
        = Nat.ofDigits 10 (Nat.digits 10 n) := by
          rw [List.foldl_reverse, Nat.ofDigits_eq_foldr]
          simp only [Nat.cast_id, Nat.add_comm]
      _ = n := Nat.ofDigits_digits 10 n

theorem decimalOf_head_ne_zero {n : Nat} (h : (decimalOf n).head? = some 0) : n = 0 := by
  by_contra hn
  have hdigits : Nat.digits 10 n ≠ [] := Nat.digits_ne_nil_iff_ne_zero.mpr hn
  rw [decimalOf, if_neg hn, List.head?_reverse, List.getLast?_eq_getLast_of_ne_nil hdigits] at h
  exact Nat.getLast_digit_ne_zero 10 hn (Option.some.inj h)

theorem divremU_ten (v : Value) : u (divremU v 10#64).1 = u v / 10 ∧ u (divremU v 10#64).2 = u v % 10 :=
  divremU_spec v 10#64 (by decide)

theorem divremU_ten_eq_zero_iff (v : Value) : (divremU v 10#64).1 = ZERO ↔ u v < 10 := by
  rw [← u_injective.eq_iff, (divremU_ten v).1]
  exact Nat.div_eq_zero_iff_lt (by norm_num)

theorem decimalDigits_last (fuel : Nat) {v : Value} (acc : List Nat) (h : u v < 10) :
    decimalDigits (fuel + 1) v acc = u v :: acc := by
  rw [decimalDigits, if_pos ((divremU_ten_eq_zero_iff v).mpr h), (divremU_ten v).2, Nat.mod_eq_of_lt h]

theorem decimalDigits_more (fuel : Nat) {v : Value} (acc : List Nat) (h : 10 ≤ u v) :
    decimalDigits (fuel + 1) v acc = decimalDigits fuel (divremU v 10#64).1 (u v % 10 :: acc) := by
  rw [decimalDigits, if_neg (mt (divremU_ten_eq_zero_iff v).mp (not_lt.mpr h)), (divremU_ten v).2]

/-- `FMT10`'s loop with rounds enough for all digits emits the decimal digits. -/
theorem decimalDigits_eq (fuel : Nat) (v : Value) (acc : List Nat) (h : u v < 10 ^ (fuel + 1)) :
    decimalDigits (fuel + 1) v acc = decimalOf (u v) ++ acc := by
  induction fuel generalizing v acc with
  | zero =>
    have hlt : u v < 10 := h
    rw [decimalDigits_last 0 acc hlt, decimalOf_of_lt_ten hlt, List.singleton_append]
  | succ fuel ih =>
    rcases Nat.lt_or_ge (u v) 10 with hlt | hge
    · rw [decimalDigits_last _ acc hlt, decimalOf_of_lt_ten hlt, List.singleton_append]
    · have hquotient := (divremU_ten v).1
      have hnext : u (divremU v 10#64).1 < 10 ^ (fuel + 1) := by
        rw [hquotient]
        exact Nat.div_lt_of_lt_mul (by rwa [pow_succ'] at h)
      rw [decimalDigits_more _ acc hge, ih _ _ hnext, hquotient, decimalOf_of_ten_le hge, List.append_assoc,
        List.singleton_append]

theorem decimalDigits_twenty (v : Value) : decimalDigits 20 v [] = decimalOf (u v) := by
  have h : u v < 10 ^ 20 := lt_of_lt_of_le v.isLt (by norm_num)
  rw [decimalDigits_eq 19 v [] h, List.append_nil]

theorem fmt10U_digits (v : Value) : (fmt10U v).digits = decimalOf (u v) := decimalDigits_twenty v

theorem fmt10S_digits (v : Value) : (fmt10S v).digits = decimalOf (sgn v).natAbs :=
  (decimalDigits_twenty (magnitude v)).trans (congrArg decimalOf (u_magnitude v))

theorem sign_mul_natAbs (v : Value) : (if signBit v then -1 else 1) * ((sgn v).natAbs : Int) = sgn v := by
  rw [signBit_eq_sgn]
  split_ifs with h <;> simp only [decide_eq_true_eq] at h <;> omega

/-- Settles O53: the digits are those of `u(v)`, and of the absolute value of `s(v)` beside its sign. -/
theorem decimalFormattingIsExact : Obligations.DecimalFormattingIsExact := by
  intro v
  rw [fmt10U_digits, fmt10S_digits, foldl_decimalOf, foldl_decimalOf]
  exact ⟨fun _ => decimalOf_lt_ten, rfl, rfl, fun _ => decimalOf_lt_ten, sign_mul_natAbs v,
    fun h => u_injective (decimalOf_head_ne_zero h)⟩

end Sys2Proof.Machine
end

section
/-! PROOFS. The statement about the accesses of a command statement (30_encoding.md R70; log 18): what its writes leave in
the block, and the completion after them. -/

namespace Sys2Proof.Machine

/-! ## The writes of a command statement, as one list of offsets and words (R70) -/

/-- Offset and word of each write of a command statement. -/
def commandWrites (i : Instr) (a b : Value) : List (Nat × Word) :=
  [(0x00, lo a), (0x04, hi a)] ++
    (match i.arity with
    | .one => []
    | .two => [(0x08, lo b), (0x0C, hi b)]
    | .shift => [(0x08, lo b), (0x0C, 0x00000000#32)]) ++ [(0x10, encode i)]

/-- The block after several writes. -/
def busWrites (s : State) (ws : List (Nat × Word)) : State := ws.foldl (fun t w => busWrite t (regAt w.1) w.2) s

/-- What register `B` holds after a command statement's writes, `old` before them. -/
def writtenB (i : Instr) (old b : Value) : Value :=
  match i.arity with
  | .one => old
  | .two => b
  | .shift => bits64 (u b % 2 ^ 32 : Nat)

/-- Offsets of the window. -/
def Aligned (ws : List (Nat × Word)) : Prop := ∀ w ∈ ws, w.1 % 4 = 0 ∧ w.1 < 64

theorem commandAccesses_eq (i : Instr) (a b : Value) :
    commandAccesses i a b = (commandWrites i a b).map fun w => accessW w.1 w.2 := by
  rw [commandAccesses, operandBWrites, commandWrites]
  cases i.arity <;> rfl

theorem commandWrites_aligned (i : Instr) (a b : Value) : Aligned (commandWrites i a b) := by
  unfold Aligned commandWrites
  cases i.arity <;> simp

theorem setHi_setLo (old v : Value) : setHi (setLo old (lo v)) (hi v) = v := by
  rw [setHi, lo_setLo, pair_hi_lo]

/-- A shift's count is one data word, under a high word 0 (R70). -/
theorem setHi_setLo_count (old v : Value) : setHi (setLo old (lo v)) 0x00000000#32 = bits64 (u v % 2 ^ 32 : Nat) := by
  rw [setHi, lo_setLo, pair_eq_bits64, toNat_lo, BitVec.toNat_ofNat, Nat.zero_mod, Nat.zero_mul, Nat.zero_add, u]

/-- The block after the writes of a command statement that found it idle, its schedule spent: the operands in `A` and
`B`, and the command in flight with them. -/
def State.issued (s : State) (i : Instr) (a b : Value) : State :=
  { s with
    regA := a
    regB := writtenB i s.regB b
    pend := some ⟨encode i, a, writtenB i s.regB b⟩
    drop := false
    schedule := [] }

theorem busWrites_command {s : State} (hidle : s.pend = none) (i : Instr) (a b : Value) :
    busWrites { s with schedule := [] } (commandWrites i a b) = s.issued i a b := by
  unfold commandWrites State.issued writtenB
  cases i.arity <;> simp [busWrites, regAt, writeCmd, hidle, setHi_setLo, setHi_setLo_count]

/-- The word written for `B` differs from the operand at most in bits that the command does not read (R62). -/
theorem exec_writtenB (i : Instr) (s : State) (c : Word) (a old b : Value) :
    exec i { s with pend := some ⟨c, a, writtenB i old b⟩ } = exec i { s with pend := some ⟨c, a, b⟩ } := by
  cases h : i.arity with
  | one => exact unreadOperandBitsAreIgnored i s c a _ b (.inl h)
  | two => simp only [writtenB, h]
  | shift =>
    have hcount : u (bits64 (u b % 2 ^ 32 : Nat)) % 64 = u b % 64 := by
      have hu := u_bits64 (u b % 2 ^ 32 : Nat)
      omega
    exact unreadOperandBitsAreIgnored i s c a _ b (.inr ⟨h, by simp only [writtenB, h, hcount]⟩)

/-- The block after a command statement that found it as `s`, if `exec` gives `c` for its operands: all but the
operands, `DROP` and the schedule are as in `c`. -/
def State.answered (s c : State) (i : Instr) (a b : Value) : State :=
  { c with regA := a, regB := writtenB i s.regB b, drop := false, schedule := [] }

/-- A completion leaves the operands, `DROP` and the schedule as it finds them, whatever they are. -/
theorem commit_issued (s : State) (i : Instr) (a b : Value) (res : Result) :
    (s.issued i a b).commit res = s.answered (s.commit res) i a b := by
  unfold State.commit State.issued State.answered
  split <;> rfl

/-- The completion of the command issued commits what `exec` gives for its operands (R62, R67). -/
theorem exec_issued (s : State) (i : Instr) (a b : Value) :
    ∃ c, exec i { s with pend := some ⟨encode i, a, b⟩ } = .next c ∧
      exec i (s.issued i a b) = .next (s.answered c i a b) := by
  obtain ⟨f, hf, -⟩ := exec_shape i
  refine ⟨s.commit (f a b), by rw [hf, complete_set_pend], ?_⟩
  calc exec i (s.issued i a b)
      = exec i { s.issued i a b with pend := some ⟨encode i, a, b⟩ } :=
        exec_writtenB i (s.issued i a b) (encode i) a s.regB b
    _ = .next ((s.issued i a b).commit (f a b)) := by rw [hf, complete_set_pend]
    _ = _ := by rw [commit_issued]

/-! ## The block's side: the writes as scheduled accesses -/

theorem step_write {s : State} {off : Nat} {v : Word} {rest : List Event} (h4 : off % 4 = 0) (h64 : off < 64)
    (hs : s.schedule = .host (accessW off v) :: rest) :
    step s = .next (busWrite { s with schedule := rest } (regAt off) v) := by
  rw [step_host hs, accessW, hostStep_write h4 h64, advance_of_schedule hs]

/-- A write does not look at the schedule. -/
theorem busWrite_reschedule (s : State) (r : WindowReg) (v : Word) (es : List Event) :
    ({ busWrite s r v with schedule := es } : State) = busWrite { s with schedule := es } r v := by
  cases r
  case cmd => simp only [busWrite_cmd, writeCmd]; split <;> rfl
  all_goals rfl

theorem runFor_writes {ws : List (Nat × Word)} (hws : Aligned ws) {s : State} {rest : List Event}
    (hs : s.schedule = ws.map (fun w => Event.host (accessW w.1 w.2)) ++ rest) :
    runFor ws.length s = .next (busWrites { s with schedule := rest } ws) := by
  induction ws generalizing s with
  | nil =>
    have hrest : s.schedule = rest := hs
    rw [← hrest]
    rfl
  | cons w ws ih =>
    obtain ⟨⟨h4, h64⟩, htail⟩ := List.forall_mem_cons.mp hws
    rw [List.length_cons, runFor_succ (step_write h4 h64 hs), ih htail (busWrite_schedule _ _ _), busWrite_reschedule]
    rfl

theorem runFor_commandAccesses {s : State} (hidle : s.pend = none) (i : Instr) (a b : Value) :
    runFor (commandAccesses i a b).length { s with schedule := (commandAccesses i a b).map Event.host } =
      .next (s.issued i a b) := by
  rw [commandAccesses_eq, List.length_map, ← busWrites_command hidle]
  exact runFor_writes (rest := []) (commandWrites_aligned i a b) (by rw [List.map_map, List.append_nil]; rfl)

/-- The turn of a block in which a command was issued is that command's completion. -/
theorem step_issued (s : State) (i : Instr) (a b : Value) : step (s.issued i a b) = exec i (s.issued i a b) :=
  step_command (.inl rfl) rfl (decode_encode i)

/-- Settles O54: the writes issue the command, and the step after them completes it. -/
theorem commandStatementRunsItsCommand : Obligations.CommandStatementRunsItsCommand := by
  intro s i a b hidle b'
  obtain ⟨c, hc, hissued⟩ := exec_issued s i a b
  refine ⟨_, c, ?_, hc, rfl⟩
  rw [runFor_add 1 (runFor_commandAccesses hidle i a b), runFor_one, step_issued, hissued]
  rfl

end Sys2Proof.Machine
end

section
/-! PROOFS. The statements about host programs (30_encoding.md R69 to R72; log 18): `POLL`, a command statement in its
program, and the list forms. -/

namespace Sys2Proof.Machine

/-! ## `POLL`, and what a read leaves of the host -/

theorem lookup_receive_self (h : HostState) (off x : Nat) (s : State) :
    (h.receive off x s).lookup x = some (wordRead h off s) :=
  latest_cons_self x _ h.vars

theorem lookup_receive_ne (h : HostState) (off : Nat) (s : State) {x k : Nat} (hk : x ≠ k) :
    (h.receive off x s).lookup k = h.lookup k :=
  latest_cons_ne x _ h.vars hk

/-- The block after a read of STATUS through the window. -/
def State.polled (s : State) : State := { s with schedule := [], busReads := statusWord s :: s.busReads }

theorem wordRead_polled (h : HostState) (s : State) : wordRead h 0x14 s.polled = statusWord s := rfl

theorem hostStmt_poll (t : Nat) (y : System) :
    hostStmt (.poll t) y = .next
      ⟨if y.block.busy then y.host.receive 0x14 t y.block.polled else (y.host.receive 0x14 t y.block.polled).advance,
        y.block.polled⟩ := by
  have hread : accessNow (accessRD 0x14) y.block = .next y.block.polled :=
    accessNow_read y.block (by decide) (by decide)
  have hbit : (returned y.block.polled).getLsbD 0 = y.block.busy := statusBit_busy y.block
  simp only [hostStmt, hread, afterAccess, hbit]

/-- Settles O55: the host receives STATUS, whose bit 0 is BUSY. -/
theorem pollWaitsForTheCompletion : Obligations.PollWaitsForTheCompletion := by
  intro y t
  have hword : statusWord y.block = windowWord y.block 0x14 := statusWord_eq y.block
  have hblock : y.block.polled =
      { y.block with schedule := [], busReads := windowWord y.block 0x14 :: y.block.busReads } := by
    rw [← hword]
    rfl
  have hself := lookup_receive_self y.host 0x14 t y.block.polled
  rw [wordRead_polled, hword] at hself
  refine ⟨_, hostStmt_poll t y, ?_⟩
  cases y.block.busy with
  | true => exact ⟨rfl, hself, fun x hx => lookup_receive_ne y.host 0x14 y.block.polled hx.symm, rfl, hblock⟩
  | false => exact ⟨rfl, hself, fun x hx => lookup_receive_ne y.host 0x14 y.block.polled hx.symm, rfl, hblock⟩

/-- A read into one of the variables `xs` leaves the operands that do not use these, `R` apart. -/
theorem receive_keeps {xs : List Nat} {x off : Nat} (hx : x ∈ xs) (hlo : off ≠ 0x20) (hhi : off ≠ 0x24)
    {o : Operand} (ho : o.keptThrough xs) (h : HostState) (s : State) :
    o.valueIn (h.receive off x s) = o.valueIn h := by
  cases o with
  | literal v => rw [literal_valueIn, literal_valueIn]
  | pair xlo xhi =>
    have hxlo : x ≠ xlo := fun e => ho.1 (e ▸ hx)
    have hxhi : x ≠ xhi := fun e => ho.2 (e ▸ hx)
    simp only [Operand.valueIn, Operand.low, Operand.high, HostOperand.valueIn, lookup_receive_ne _ _ _ hxlo,
      lookup_receive_ne _ _ _ hxhi]
  | lastR => exact ho.elim
  | lastS =>
    simp only [Operand.valueIn, Operand.low, Operand.high, HostOperand.valueIn, receive_lastReads,
      latest_cons_ne _ _ _ hlo, latest_cons_ne _ _ _ hhi]

theorem jump_valueIn (h : HostState) (pos : Nat) (o : Operand) : o.valueIn (h.jump pos) = o.valueIn h := by
  cases o <;> rfl

/-! ## Statements at a place of a program -/

/-- From statement number `pos` on, the program has the statements `stmts`. -/
def StandsAt (prog : List HostStmt) (pos : Nat) (stmts : List HostStmt) : Prop :=
  ∃ after, prog.drop pos = stmts ++ after

theorem standsAt_between (before stmts after : List HostStmt) :
    StandsAt (before ++ stmts ++ after) before.length stmts :=
  ⟨after, by rw [List.append_assoc, List.drop_left]⟩

section StandsAt
variable {prog : List HostStmt} {pos : Nat}

theorem StandsAt.head {stmt : HostStmt} {rest : List HostStmt} (h : StandsAt prog pos (stmt :: rest)) :
    prog[pos]? = some stmt := by
  obtain ⟨after, hafter⟩ := h
  rw [← Nat.add_zero pos, ← List.getElem?_drop, hafter]
  rfl

theorem StandsAt.left {xs ys : List HostStmt} (h : StandsAt prog pos (xs ++ ys)) : StandsAt prog pos xs := by
  obtain ⟨after, hafter⟩ := h
  exact ⟨ys ++ after, by rw [hafter, List.append_assoc]⟩

theorem StandsAt.right {xs ys : List HostStmt} (h : StandsAt prog pos (xs ++ ys)) :
    StandsAt prog (pos + xs.length) ys := by
  obtain ⟨after, hafter⟩ := h
  exact ⟨after, by rw [← List.drop_drop, hafter, List.append_assoc, List.drop_left]⟩

theorem StandsAt.tail {stmt : HostStmt} {rest : List HostStmt} (h : StandsAt prog pos (stmt :: rest)) :
    StandsAt prog (pos + 1) rest :=
  StandsAt.right (xs := [stmt]) h

end StandsAt

/-! ## A command statement in its program (R70) -/

/-- `stmt` writes the word `w.2` at the offset `w.1`, in a host where its operand has that value. -/
def WritesWord (h : HostState) (stmt : HostStmt) (w : Nat × Word) : Prop :=
  ∃ o : HostOperand, stmt = .w w.1 o ∧ o.valueIn h = some w.2

theorem writesWord_advance {h : HostState} : WritesWord h.advance = WritesWord h := by
  funext stmt w
  simp only [WritesWord, hostAdvance_valueIn]

theorem systemRun_writes {prog stmts : List HostStmt} {ws : List (Nat × Word)} {y : System}
    (hstmts : List.Forall₂ (WritesWord y.host) stmts ws) (hws : Aligned ws)
    (hat : StandsAt prog y.host.position stmts) :
    ∃ s, systemRun prog (List.replicate stmts.length false) y =
        .next ⟨y.host.jump (y.host.position + stmts.length), s⟩ ∧
      ({ s with schedule := [] } : State) = busWrites { y.block with schedule := [] } ws := by
  induction stmts generalizing y ws with
  | nil =>
    cases hstmts
    exact ⟨y.block, rfl, rfl⟩
  | cons stmt stmts ih =>
    cases hstmts with
    | @cons _ w _ ws hw hstmts =>
      obtain ⟨o, rfl, ho⟩ := hw
      obtain ⟨⟨h4, h64⟩, htail⟩ := List.forall_mem_cons.mp hws
      have hstep := (systemStep_host hat.head).trans (hostStmt_w h4 h64 ho)
      rw [← writesWord_advance] at hstmts
      obtain ⟨s, hrun, hs⟩ := ih (y := ⟨y.host.advance, _⟩) hstmts htail hat.tail
      refine ⟨s, ?_, hs.trans ?_⟩
      · rw [List.length_cons, List.replicate_succ, systemRun_cons hstep, hrun, Nat.add_comm stmts.length,
          ← Nat.add_assoc]
        rfl
      · rw [busWrite_reschedule]
        rfl

/-- The statements of a command statement but its POLL. -/
def writeStatements (i : Instr) (opA opB : Operand) : List HostStmt :=
  [.w 0x00 opA.low, .w 0x04 opA.high] ++
    (match i.arity with
    | .one => []
    | .two => [.w 0x08 opB.low, .w 0x0C opB.high]
    | .shift => [.w 0x08 opB.low, .w 0x0C (.word 0x00000000#32)]) ++ [.w 0x10 (.word (encode i))]

theorem commandStatement_eq (i : Instr) (opA opB : Operand) (t : Nat) :
    commandStatement i opA opB t = writeStatements i opA opB ++ [.poll t] := by
  rw [commandStatement, writeStatements]
  cases i.arity <;> rfl

theorem writeStatements_write {h : HostState} {i : Instr} {opA opB : Operand} {a b : Value}
    (hA : opA.valueIn h = some a) (hB : i.arity = .one ∨ opB.valueIn h = some b) :
    List.Forall₂ (WritesWord h) (writeStatements i opA opB) (commandWrites i a b) := by
  obtain ⟨hAlo, hAhi⟩ := operand_words h hA
  have hA' : List.Forall₂ (WritesWord h) [.w 0x00 opA.low, .w 0x04 opA.high] [(0x00, lo a), (0x04, hi a)] :=
    .cons ⟨_, rfl, hAlo⟩ (.cons ⟨_, rfl, hAhi⟩ .nil)
  have hcmd : List.Forall₂ (WritesWord h) [.w 0x10 (.word (encode i))] [(0x10, encode i)] :=
    .cons ⟨_, rfl, rfl⟩ .nil
  refine List.rel_append (List.rel_append hA' ?_) hcmd
  cases hi : i.arity with
  | one => exact .nil
  | two =>
    obtain ⟨hBlo, hBhi⟩ := operand_words h (hB.resolve_left (by simp [hi]))
    exact .cons ⟨_, rfl, hBlo⟩ (.cons ⟨_, rfl, hBhi⟩ .nil)
  | shift =>
    obtain ⟨hBlo, -⟩ := operand_words h (hB.resolve_left (by simp [hi]))
    exact .cons ⟨_, rfl, hBlo⟩ (.cons ⟨_, rfl, rfl⟩ .nil)

/-- The turns of a command statement: its writes, the block's completion, and a POLL that finds it idle. -/
def commandTurns (stmts : List HostStmt) : List Bool := List.replicate (stmts.length - 1) false ++ [true, false]

theorem systemStep_block (prog : List HostStmt) (y : System) : systemStep prog true y = blockTurnNow y := rfl

/-- The block's turn after the writes of a command statement is its completion. -/
theorem blockTurnNow_issued {h : HostState} {s s₀ c : State} {i : Instr} {a b : Value}
    (hs : ({ s with schedule := [] } : State) = s₀.issued i a b) (hc : exec i (s₀.issued i a b) = .next c) :
    blockTurnNow ⟨h, s⟩ = .next ⟨h, c⟩ := by
  have hpend : s.pend = some ⟨encode i, a, writtenB i s₀.regB b⟩ := congrArg State.pend hs
  have hstep : step { s with schedule := [.block] } = exec i { s with schedule := [] } :=
    step_command (.inr ⟨[], rfl⟩) hpend (decode_encode i)
  rw [blockTurnNow, hstep, hs, hc]
  rfl

/-- A `POLL` that finds the block idle. -/
theorem hostStmt_poll_idle {y : System} (hidle : y.block.pend = none) (t : Nat) :
    hostStmt (.poll t) y = .next ⟨(y.host.receive 0x14 t y.block.polled).advance, y.block.polled⟩ := by
  have hbusy : y.block.busy = false := by rw [State.busy, hidle]; rfl
  rw [hostStmt_poll, hbusy]
  rfl

/-- The last two turns of a command statement: the block completes, and the host's POLL finds it idle. -/
theorem systemRun_completion_poll {prog : List HostStmt} {h : HostState} {s s₀ c : State} {i : Instr} {a b : Value}
    {t : Nat} (hs : ({ s with schedule := [] } : State) = s₀.issued i a b) (hc : exec i (s₀.issued i a b) = .next c)
    (hidle : c.pend = none) (hat : prog[h.position]? = some (.poll t)) :
    systemRun prog [true, false] ⟨h, s⟩ = .next ⟨(h.receive 0x14 t c.polled).advance, c.polled⟩ := by
  have hpoll : systemStep prog false ⟨h, c⟩ = .next ⟨(h.receive 0x14 t c.polled).advance, c.polled⟩ :=
    (systemStep_host hat).trans (hostStmt_poll_idle (y := ⟨h, c⟩) hidle t)
  rw [systemRun_cons ((systemStep_block prog _).trans (blockTurnNow_issued hs hc)), systemRun_cons hpoll, systemRun_nil]

theorem exec_next_idle {i : Instr} {s t : State} (h : exec i s = .next t) : t.pend = none := by
  obtain ⟨p, res, -, -, rfl⟩ := exec_next h
  exact commit_pend s res

theorem commandStatement_length (i : Instr) (opA opB : Operand) (t : Nat) :
    (commandStatement i opA opB t).length = (writeStatements i opA opB).length + 1 := by
  rw [commandStatement_eq, List.length_append, List.length_singleton]

theorem commandTurns_commandStatement (i : Instr) (opA opB : Operand) (t : Nat) :
    commandTurns (commandStatement i opA opB t) =
      List.replicate (writeStatements i opA opB).length false ++ [true, false] := by
  rw [commandTurns, commandStatement_length, Nat.add_sub_cancel]

/-- From `y` to `z` a host ran the command statement of `i`, `a` and `b`, of `len` statements and with POLL's variable
`t`; `c` is what `exec` gives. -/
structure CommandDone (y z : System) (i : Instr) (a b : Value) (t len : Nat) (c : State) : Prop where
  answer : exec i { y.block with pend := some ⟨encode i, a, b⟩ } = .next c
  block : z.block = (y.block.answered c i a b).polled
  idle : z.block.pend = none
  position : z.host.position = y.host.position + len
  status : z.host.lookup t = some (statusWord z.block)
  keeps : ∀ {xs : List Nat}, t ∈ xs → ∀ {o : Operand}, o.keptThrough xs → o.valueIn z.host = o.valueIn y.host

/-- A host at a command statement makes its writes, and its POLL receives STATUS once the block has completed. -/
theorem systemRun_commandStatement {prog : List HostStmt} {y : System} {i : Instr} {opA opB : Operand} {a b : Value}
    {t : Nat} (hat : StandsAt prog y.host.position (commandStatement i opA opB t)) (hidle : y.block.pend = none)
    (hA : opA.valueIn y.host = some a) (hB : i.arity = .one ∨ opB.valueIn y.host = some b) :
    ∃ z c, systemRun prog (commandTurns (commandStatement i opA opB t)) y = .next z ∧
      CommandDone y z i a b t (commandStatement i opA opB t).length c := by
  obtain ⟨c, hc, hissued⟩ := exec_issued y.block i a b
  have hidle' := exec_next_idle hc
  rw [commandStatement_eq] at hat
  obtain ⟨s, hwrites, hs⟩ := systemRun_writes (writeStatements_write hA hB) (commandWrites_aligned i a b) hat.left
  rw [busWrites_command hidle] at hs
  have hrun := (systemRun_append [true, false] hwrites).trans
    (systemRun_completion_poll hs hissued hidle' hat.right.head)
  rw [← commandTurns_commandStatement i opA opB t] at hrun
  refine ⟨_, c, hrun, ⟨hc, rfl, hidle', ?_, lookup_receive_self _ _ _ _, fun {_} ht {_} ho => ?_⟩⟩
  · rw [commandStatement_length, ← Nat.add_assoc]
    rfl
  · rw [hostAdvance_operandIn, receive_keeps ht (by decide) (by decide) ho, jump_valueIn]

/-- Settles O57: the run of the command statement, read field by field. -/
theorem hostRunsACommandStatement : Obligations.HostRunsACommandStatement := by
  intro before after y i opA opB a b t hpos hidle hA hB stmts
  have hat : StandsAt (before ++ stmts ++ after) y.host.position stmts := hpos ▸ standsAt_between before stmts after
  obtain ⟨z, c, hrun, hdone⟩ := systemRun_commandStatement hat hidle hA hB
  refine ⟨z, c, hrun, hdone.answer, hpos ▸ hdone.position, hdone.status, ?_⟩
  rw [hdone.block]
  exact ⟨rfl, (exec_next_idle hdone.answer : c.pend = none), rfl, rfl, rfl, rfl, rfl, rfl, rfl⟩

/-! ## The list forms (R72) -/

/-- The list form's choice between the running value and the next element. -/
def ListFold.pick (f : ListFold) (acc v : Value) : Value :=
  match f with
  | .minSN => minBy (cmpS acc v) acc v
  | .maxSN => maxBy (cmpS acc v) acc v
  | .minUN => minBy (cmpU acc v) acc v
  | .maxUN => maxBy (cmpU acc v) acc v

theorem exec_fold (f : ListFold) (s : State) :
    exec f.command s = complete (fun a b => Result.value (f.pick a b)) s := by
  cases f
  case minSN => exact exec_mins s
  case maxSN => exact exec_maxs s
  case minUN => exact exec_minu s
  case maxUN => exact exec_maxu s

theorem fold_result (f : ListFold) (v : Value) (vs : List Value) :
    f.result (v :: vs) = some ((v :: vs).foldl f.pick f.seed) := by
  cases f <;> rfl

theorem fold_arity (f : ListFold) : f.command.arity = .two := by cases f <;> rfl

/-- `GETR` puts `R` into its two variables and leaves the block as it is but for the words read. -/
theorem systemRun_getR {prog : List HostStmt} {y : System} {xs : List Nat} {xlo xhi : Nat}
    (hat : StandsAt prog y.host.position (getR xlo xhi)) (hne : xlo ≠ xhi) (hxlo : xlo ∈ xs) (hxhi : xhi ∈ xs) :
    ∃ z, systemRun prog [false, false] y = .next z ∧ z.host.position = y.host.position + 2 ∧
      z.block.pend = y.block.pend ∧ (Operand.pair xlo xhi).valueIn z.host = some y.block.regR ∧
      ∀ o : Operand, o.keptThrough xs → o.valueIn z.host = o.valueIn y.host := by
  obtain ⟨s₁, hlo, hs₁, hword₁⟩ := hostStmt_rd (off := 0x18) (by decide) (by decide) xlo y
  obtain ⟨s₂, hhi, hs₂, hword₂⟩ := hostStmt_rd (off := 0x1C) (by decide) (by decide) xhi
    ⟨(y.host.receive 0x18 xlo s₁).advance, s₁⟩
  have hR : s₁.regR = y.block.regR := by rw [hs₁]
  refine ⟨⟨((y.host.receive 0x18 xlo s₁).advance.receive 0x1C xhi s₂).advance, s₂⟩, ?_, rfl, ?_, ?_, fun o ho => ?_⟩
  · rw [systemRun_cons ((systemStep_host hat.head).trans hlo),
      systemRun_cons ((systemStep_host hat.tail.head).trans hhi), systemRun_nil]
  · rw [hs₂, hs₁]
  · have hxhi' := lookup_receive_self (y.host.receive 0x18 xlo s₁).advance 0x1C xhi s₂
    have hxlo' := lookup_receive_self y.host 0x18 xlo s₁
    rw [hword₂, show busRead s₁ (regAt 0x1C) = hi y.block.regR from congrArg hi hR] at hxhi'
    rw [hword₁, show busRead y.block (regAt 0x18) = lo y.block.regR from rfl, ← hostAdvance_lookup,
      ← lookup_receive_ne _ 0x1C s₂ hne.symm] at hxlo'
    rw [hostAdvance_operandIn, Operand.valueIn, Operand.low, Operand.high, HostOperand.valueIn, HostOperand.valueIn,
      hxhi', hxlo']
    exact congrArg some (pair_hi_lo y.block.regR)
  · rw [hostAdvance_operandIn, receive_keeps hxhi (by decide) (by decide) ho, hostAdvance_operandIn,
      receive_keeps hxlo (by decide) (by decide) ho]

/-- The turns of one round of a list form: five writes, the completion, a POLL, and two reads. -/
def roundTurns : List Bool := [false, false, false, false, false, true, false, false, false]

/-- A host and block, `len` statements on from `y`, with the block idle, the value `acc` in the variables of `acc`, and
the other operands as they were. -/
structure RoundsDone (y z : System) (t xlo xhi len : Nat) (acc : Value) : Prop where
  position : z.host.position = y.host.position + len
  idle : z.block.pend = none
  acc : (Operand.pair xlo xhi).valueIn z.host = some acc
  keeps : ∀ o : Operand, o.keptThrough [t, xlo, xhi] → o.valueIn z.host = o.valueIn y.host

theorem foldRound_turns (f : ListFold) (opAcc opV : Operand) (t : Nat) :
    roundTurns = commandTurns (commandStatement f.command opAcc opV t) ++ [false, false] := by
  have hlen : (writeStatements f.command opAcc opV).length = 5 := by rw [writeStatements, fold_arity]; rfl
  rw [commandTurns_commandStatement, hlen]
  rfl

theorem RoundsDone.trans {y y' z : System} {t xlo xhi m n : Nat} {v w : Value} (h : RoundsDone y y' t xlo xhi m v)
    (h' : RoundsDone y' z t xlo xhi n w) : RoundsDone y z t xlo xhi (m + n) w where
  position := by rw [h'.position, h.position, Nat.add_assoc]
  idle := h'.idle
  acc := h'.acc
  keeps o ho := (h'.keeps o ho).trans (h.keeps o ho)

section Rounds
variable {prog : List HostStmt} {f : ListFold} {t xlo xhi : Nat} (hne : xlo ≠ xhi)
include hne

theorem systemRun_foldRound {y : System} {opAcc opV : Operand} {acc v : Value}
    (hat : StandsAt prog y.host.position (foldRound f.command opAcc opV t xlo xhi)) (hidle : y.block.pend = none)
    (hacc : opAcc.valueIn y.host = some acc) (hv : opV.valueIn y.host = some v) :
    ∃ z, systemRun prog roundTurns y = .next z ∧
      RoundsDone y z t xlo xhi (foldRound f.command opAcc opV t xlo xhi).length (f.pick acc v) := by
  obtain ⟨y', c, hrun, hdone⟩ := systemRun_commandStatement hat.left hidle hacc (.inr hv)
  have hat' : StandsAt prog y'.host.position (getR xlo xhi) := hdone.position ▸ hat.right
  obtain ⟨z, hget, hpos, hpend, hR, hkeeps⟩ :=
    systemRun_getR (xs := [t, xlo, xhi]) hat' hne (by simp) (by simp)
  refine ⟨z, ?_, ⟨?_, hpend.trans hdone.idle, hR.trans ?_, fun o ho => (hkeeps o ho).trans (hdone.keeps (by simp) ho)⟩⟩
  · rw [foldRound_turns f opAcc opV t, systemRun_append _ hrun, hget]
  · rw [hpos, hdone.position, foldRound, List.length_append, Nat.add_assoc]
    rfl
  · have hc := hdone.answer
    rw [exec_fold, complete_set_pend, commit_value] at hc
    rw [hdone.block, ← Host.Outcome.next.inj hc]
    rfl

/-- The rounds after the first: each takes the running value from the variables of `acc`. -/
theorem systemRun_foldRounds (vs : List (Operand × Value)) {y : System} {acc : Value}
    (hat : StandsAt prog y.host.position (vs.flatMap fun v => foldRound f.command (.pair xlo xhi) v.1 t xlo xhi))
    (hidle : y.block.pend = none) (hacc : (Operand.pair xlo xhi).valueIn y.host = some acc)
    (hvs : ∀ v ∈ vs, v.1.valueIn y.host = some v.2 ∧ v.1.keptThrough [t, xlo, xhi]) :
    ∃ z, systemRun prog (vs.flatMap fun _ => roundTurns) y = .next z ∧
      RoundsDone y z t xlo xhi (vs.flatMap fun v => foldRound f.command (.pair xlo xhi) v.1 t xlo xhi).length
        ((vs.map Prod.snd).foldl f.pick acc) := by
  induction vs generalizing y acc with
  | nil => exact ⟨y, rfl, rfl, hidle, hacc, fun _ _ => rfl⟩
  | cons v rest ih =>
    obtain ⟨⟨hv, -⟩, hrest⟩ := List.forall_mem_cons.mp hvs
    rw [List.flatMap_cons] at hat
    obtain ⟨y', hround, hdone⟩ := systemRun_foldRound hne hat.left hidle hacc hv
    obtain ⟨z, hrun, hdone'⟩ := ih (hdone.position ▸ hat.right) hdone.idle hdone.acc
      fun w hw => ⟨(hdone.keeps w.1 (hrest w hw).2).trans (hrest w hw).1, (hrest w hw).2⟩
    refine ⟨z, ?_, ?_⟩
    · rw [List.flatMap_cons, systemRun_append _ hround, hrun]
    · rw [List.flatMap_cons, List.length_append]
      exact hdone.trans hdone'

end Rounds

/-- Settles O58: the first round folds the seed with the first element, the others the running value with theirs. -/
theorem listFormsComputeTheirFold : Obligations.ListFormsComputeTheirFold := by
  intro f vs t xlo xhi before stmts after y hne hvs hstmts hpos hidle round
  cases vs with
  | nil => cases hstmts
  | cons v rest =>
    obtain ⟨⟨hv, -⟩, hrest⟩ := List.forall_mem_cons.mp hvs
    have hat : StandsAt (before ++ stmts ++ after) y.host.position stmts := hpos ▸ standsAt_between before stmts after
    obtain rfl : foldRound f.command (.literal f.seed) v.1 t xlo xhi ++
        (rest.flatMap fun w => foldRound f.command (.pair xlo xhi) w.1 t xlo xhi) = stmts := by
      rw [← Option.some.inj hstmts, List.flatMap_map]
    obtain ⟨y', hfirst, hdone⟩ := systemRun_foldRound hne hat.left hidle (literal_valueIn _ f.seed) hv
    obtain ⟨z, hrun, hdone'⟩ := systemRun_foldRounds hne rest (hdone.position ▸ hat.right) hdone.idle hdone.acc
      fun w hw => ⟨(hdone.keeps w.1 (hrest w hw).2).trans (hrest w hw).1, (hrest w hw).2⟩
    refine ⟨z, ?_, ?_, ?_⟩
    · rw [List.flatMap_cons]
      exact (systemRun_append _ hfirst).trans hrun
    · rw [(hdone.trans hdone').position, hpos, List.length_append]
    · rw [hdone'.acc, List.map_cons, fold_result, List.foldl_cons]

end Sys2Proof.Machine
end

section
/-! PROOFS. The statement about binary64 literals (30_encoding.md R70, 47_convert.md R180; log 23). -/

namespace Sys2Proof.Machine

/-! ## A binary64 pattern and its three fields (47_convert.md R180) -/

/-- The pattern without sign that has the biased exponent `bexp` and the fraction `frac`. -/
def f64Unsigned (bexp frac : Nat) : Value := BitVec.ofNat 64 (bexp * 2 ^ 52 + frac)

theorem u_f64Unsigned {bexp frac : Nat} (hb : bexp < 2 ^ 11) (hf : frac < 2 ^ 52) :
    u (f64Unsigned bexp frac) = bexp * 2 ^ 52 + frac := by
  rw [u, f64Unsigned, BitVec.toNat_ofNat]
  exact Nat.mod_eq_of_lt (by omega)

theorem u_f64Negate {f : Value} (h : u f < 2 ^ 63) : u (f64Negate f) = u f + 2 ^ 63 := by
  have hmin : MIN_S.toNat = 2 ^ 63 := rfl
  have hor := Nat.two_pow_add_eq_or_of_lt h 1
  rw [Nat.mul_one, Nat.add_comm] at hor
  rw [f64Negate, hor, u, BitVec.toNat_or, Nat.or_comm, hmin, u]

/-- The pattern with the given fields. -/
def f64Pattern (neg : Bool) (bexp frac : Nat) : Value :=
  if neg then f64Negate (f64Unsigned bexp frac) else f64Unsigned bexp frac

theorem toNat_signBit (f : Value) : (signBit f).toNat = u f / 2 ^ 63 := by
  have hlt := f.isLt
  rw [signBit_eq_decide, u]
  by_cases h : 2 ^ 63 ≤ f.toNat
  · rw [decide_eq_true h, Bool.toNat_true]
    omega
  · rw [decide_eq_false h, Bool.toNat_false]
    omega

section Fields
variable {bexp frac : Nat} (hb : bexp < 2 ^ 11) (hf : frac < 2 ^ 52)
include hb hf

theorem u_f64Pattern (neg : Bool) : u (f64Pattern neg bexp frac) = neg.toNat * 2 ^ 63 + bexp * 2 ^ 52 + frac := by
  have hu := u_f64Unsigned hb hf
  cases neg with
  | false =>
    rw [f64Pattern, if_neg Bool.false_ne_true, hu, Bool.toNat_false]
    omega
  | true =>
    rw [f64Pattern, if_pos rfl, u_f64Negate (by omega), hu, Bool.toNat_true]
    omega

theorem f64Exp_f64Pattern (neg : Bool) : f64Exp (f64Pattern neg bexp frac) = bexp := by
  rw [f64Exp_eq, u_f64Pattern hb hf]
  omega

theorem f64Frac_f64Pattern (neg : Bool) : f64Frac (f64Pattern neg bexp frac) = frac := by
  rw [f64Frac_eq, u_f64Pattern hb hf]
  omega

theorem f64Sign_f64Pattern (neg : Bool) : f64Sign (f64Pattern neg bexp frac) = neg := by
  have hu := u_f64Pattern hb hf neg
  rw [u] at hu
  rw [f64Sign_eq, signBit_eq_decide, hu]
  cases neg with
  | false => exact decide_eq_false (by rw [Bool.toNat_false]; omega)
  | true => exact decide_eq_true (by rw [Bool.toNat_true]; omega)

end Fields

theorem f64Exp_lt (f : Value) : f64Exp f < 2 ^ 11 := by
  rw [f64Exp_eq]
  exact Nat.mod_lt _ (by norm_num)

theorem f64Pattern_fields (f : Value) : f64Pattern (f64Sign f) (f64Exp f) (f64Frac f) = f := by
  apply BitVec.eq_of_toNat_eq
  have hu := u_f64Pattern (f64Exp_lt f) (f64Frac_lt f) (f64Sign f)
  have hlt := f.isLt
  rw [f64Sign_eq, toNat_signBit, f64Exp_eq, f64Frac_eq] at hu
  rw [f64Sign_eq, f64Exp_eq, f64Frac_eq]
  simp only [u] at hu ⊢
  omega

/-- The whole number that a finite pattern's exponent and fraction stand for (R180): a normal one has a hidden bit. -/
def f64Significand (bexp frac : Nat) : Nat := if bexp = 0 then frac else 2 ^ 52 + frac

/-- The power of two by which the significand is scaled (R180). -/
def f64Scale (bexp : Nat) : Int := if bexp = 0 then -1074 else (bexp : Int) - 1075

theorem f64Class_f64Pattern {bexp frac : Nat} (hb : bexp < 0x7FF) (hf : frac < 2 ^ 52) (neg : Bool) :
    f64Class (f64Pattern neg bexp frac) = .finite neg (f64Significand bexp frac) (f64Scale bexp) := by
  have hb' : bexp < 2 ^ 11 := by omega
  rw [f64Class, f64Exp_f64Pattern hb' hf, f64Frac_f64Pattern hb' hf, f64Sign_f64Pattern hb' hf, if_neg hb.ne,
    f64Significand, f64Scale]
  split_ifs <;> rfl

theorem f64Value_f64Pattern {bexp frac : Nat} (hb : bexp < 0x7FF) (hf : frac < 2 ^ 52) (neg : Bool) :
    f64Value (f64Pattern neg bexp frac) =
      some ((if neg then -1 else 1) * (f64Significand bexp frac : ℚ) * (2 : ℚ) ^ f64Scale bexp) := by
  rw [f64Value, f64Class_f64Pattern hb hf]

/-- A finite pattern has an exponent below the reserved one. -/
theorem eq_f64Pattern_of_finite {f : Value} {neg : Bool} {m : Nat} {e : Int} (h : f64Class f = .finite neg m e) :
    ∃ bexp < 0x7FF, ∃ frac < 2 ^ 52,
      f = f64Pattern neg bexp frac ∧ m = f64Significand bexp frac ∧ e = f64Scale bexp := by
  have hlt := f64Exp_lt f
  have hexp : f64Exp f < 0x7FF := by
    by_contra hge
    rw [f64Class, if_pos (by omega)] at h
    split_ifs at h
  rw [← f64Pattern_fields f, f64Class_f64Pattern hexp (f64Frac_lt f)] at h
  obtain ⟨rfl, rfl, rfl⟩ := F64Class.finite.inj h
  exact ⟨_, hexp, _, f64Frac_lt f, (f64Pattern_fields f).symm, rfl, rfl⟩

/-! ## The literal of a magnitude -/

theorem bitLength_eq {n k : Nat} (hl : 2 ^ k ≤ n) (hu : n < 2 ^ (k + 1)) : bitLength n = k + 1 := by
  have hn : n ≠ 0 := by have := Nat.two_pow_pos k; omega
  rw [bitLength, if_neg hn, (Nat.log2_eq_iff hn).mpr ⟨hl, hu⟩]

theorem inUnits_eq_some {m n : Nat} {e ulp : Int} (h : inUnits m e ulp = some n) :
    (m : ℚ) * (2 : ℚ) ^ e = n * (2 : ℚ) ^ ulp := by
  rw [inUnits] at h
  split_ifs at h with he hmod
  · obtain ⟨k, hk⟩ := Int.eq_ofNat_of_zero_le (sub_nonneg.mpr he)
    obtain rfl : e = ulp + k := by omega
    cases h
    rw [hk, Int.toNat_natCast, zpow_add₀ (by norm_num), zpow_natCast]
    push_cast
    ring
  · obtain ⟨k, hk⟩ := Int.eq_ofNat_of_zero_le (show 0 ≤ ulp - e by omega)
    obtain rfl : ulp = e + k := by omega
    cases h
    rw [hk, Int.toNat_natCast] at hmod ⊢
    obtain ⟨q, rfl⟩ := Nat.dvd_of_mod_eq_zero hmod
    rw [Nat.mul_div_cancel_left _ (by positivity), zpow_add₀ (by norm_num), zpow_natCast]
    push_cast
    ring

theorem inUnits_self (m : Nat) (e : Int) : inUnits m e e = some m := by
  rw [inUnits, if_pos le_rfl, sub_self, Int.toNat_zero, pow_zero, mul_one]

theorem scaled_bounds {m : Nat} (hm : m ≠ 0) (e : Int) :
    (2 : ℚ) ^ (e + bitLength m - 1) ≤ m * (2 : ℚ) ^ e ∧ (m : ℚ) * (2 : ℚ) ^ e < (2 : ℚ) ^ (e + bitLength m) := by
  obtain ⟨hl, hu⟩ := bitLength_spec hm
  have hpos : 1 ≤ bitLength m := by rw [bitLength, if_neg hm]; omega
  have hl' : (2 : ℚ) ^ (bitLength m - 1) ≤ m := by exact_mod_cast hl
  have hu' : (m : ℚ) < (2 : ℚ) ^ bitLength m := by exact_mod_cast hu
  have he : (0 : ℚ) < (2 : ℚ) ^ e := by positivity
  constructor
  · rw [show e + bitLength m - 1 = ((bitLength m - 1 : Nat) : Int) + e by omega, zpow_add₀ (by norm_num), zpow_natCast]
    exact mul_le_mul_of_nonneg_right hl' he.le
  · rw [add_comm e, zpow_add₀ (by norm_num), zpow_natCast]
    exact mul_lt_mul_of_pos_right hu' he

theorem lt_two_pow_of_scaled {n k : Nat} {ulp top : Int} (htop : ulp + k = top)
    (h : (n : ℚ) * (2 : ℚ) ^ ulp < (2 : ℚ) ^ top) : n < 2 ^ k := by
  rw [← htop, add_comm, zpow_add₀ (by norm_num), zpow_natCast] at h
  exact_mod_cast lt_of_mul_lt_mul_right h (by positivity)

theorem two_pow_le_of_scaled {n k : Nat} {ulp top : Int} (htop : ulp + k = top)
    (h : (2 : ℚ) ^ top ≤ (n : ℚ) * (2 : ℚ) ^ ulp) : 2 ^ k ≤ n := by
  rw [← htop, add_comm, zpow_add₀ (by norm_num), zpow_natCast] at h
  exact_mod_cast le_of_mul_le_mul_right h (by positivity)

/-! ## The literal of a magnitude, below and from `2^-1022` on -/

section Magnitude
variable {m : Nat} {e top : Int} (htop : e + bitLength m - 1 = top)
include htop

theorem f64Magnitude_above (h : 1023 < top) : f64Magnitude m e = none := by
  subst htop
  exact if_pos h

theorem f64Magnitude_below (h : top < -1022) : f64Magnitude m e = (inUnits m e (-1074)).map (f64Unsigned 0) := by
  have hunsigned : BitVec.ofNat 64 = f64Unsigned 0 := by
    funext n
    rw [f64Unsigned, Nat.zero_mul, Nat.zero_add]
  subst htop
  rw [← hunsigned]
  exact (if_neg (by omega)).trans (if_pos h)

theorem f64Magnitude_within (hl : -1022 ≤ top) (hu : top ≤ 1023) :
    f64Magnitude m e = (inUnits m e (top - 52)).map (packNormal (top + 1023).toNat) := by
  subst htop
  exact (if_neg (by omega)).trans (if_neg (by omega))

end Magnitude

/-- A magnitude's literal is the pattern whose exponent and fraction stand for it. -/
theorem f64Magnitude_sound {m : Nat} {e : Int} {f : Value} (hm : m ≠ 0) (h : f64Magnitude m e = some f) :
    ∃ bexp < 0x7FF, ∃ frac < 2 ^ 52, f = f64Unsigned bexp frac ∧
      (m : ℚ) * (2 : ℚ) ^ e = f64Significand bexp frac * (2 : ℚ) ^ f64Scale bexp := by
  obtain ⟨hlow, hhigh⟩ := scaled_bounds hm e
  obtain ⟨top, htop⟩ : ∃ top, e + bitLength m - 1 = top := ⟨_, rfl⟩
  rw [htop] at hlow
  rw [show e + bitLength m = top + 1 by omega] at hhigh
  rcases lt_or_ge 1023 top with habove | hu
  · rw [f64Magnitude_above htop habove] at h
    cases h
  rcases lt_or_ge top (-1022) with hbelow | hl
  · rw [f64Magnitude_below htop hbelow] at h
    obtain ⟨n, hn, rfl⟩ := Option.map_eq_some_iff.mp h
    have heq := inUnits_eq_some hn
    have hhigh' : (n : ℚ) * (2 : ℚ) ^ (-1074 : Int) < (2 : ℚ) ^ (-1022 : Int) :=
      heq ▸ hhigh.trans_le (zpow_le_zpow_right₀ (by norm_num) (by omega))
    exact ⟨0, by decide, n, lt_two_pow_of_scaled (by norm_num) hhigh', rfl, heq⟩
  · rw [f64Magnitude_within htop hl hu] at h
    obtain ⟨n, hn, rfl⟩ := Option.map_eq_some_iff.mp h
    have heq := inUnits_eq_some hn
    have hn52 : 2 ^ 52 ≤ n := two_pow_le_of_scaled (by norm_num) (heq ▸ hlow)
    have hn53 : n < 2 ^ 53 := lt_two_pow_of_scaled (by norm_num; omega) (heq ▸ hhigh)
    have hsig : f64Significand (top + 1023).toNat (n - 2 ^ 52) = n := by
      rw [f64Significand, if_neg (by omega), Nat.add_sub_cancel' hn52]
    have hscale : f64Scale (top + 1023).toNat = top - 52 := by
      rw [f64Scale, if_neg (by omega)]
      omega
    exact ⟨_, by omega, n - 2 ^ 52, by omega, rfl, by rw [hsig, hscale, heq]⟩

theorem bitLength_le_of_lt_two_pow {n k : Nat} (hn : n ≠ 0) (h : n < 2 ^ k) : bitLength n ≤ k := by
  have hlt := (Nat.pow_lt_pow_iff_right (by norm_num)).mp ((bitLength_spec hn).1.trans_lt h)
  omega

/-- Every finite pattern but zero is its magnitude's literal. -/
theorem f64Magnitude_complete {bexp frac : Nat} (hb : bexp < 0x7FF) (hf : frac < 2 ^ 52)
    (hm : f64Significand bexp frac ≠ 0) :
    f64Magnitude (f64Significand bexp frac) (f64Scale bexp) = some (f64Unsigned bexp frac) := by
  rcases Nat.eq_zero_or_pos bexp with rfl | hpos
  · have hsig : f64Significand 0 frac = frac := rfl
    have hscale : f64Scale 0 = -1074 := rfl
    rw [hsig] at hm
    have hlen := bitLength_le_of_lt_two_pow hm hf
    rw [hsig, hscale, f64Magnitude_below rfl (by omega), inUnits_self, Option.map_some]
  · have hsig : f64Significand bexp frac = 2 ^ 52 + frac := if_neg hpos.ne'
    have hscale : f64Scale bexp = (bexp : Int) - 1075 := if_neg hpos.ne'
    have hlen : bitLength (2 ^ 52 + frac) = 52 + 1 := bitLength_eq (by omega) (by omega)
    have htop : (bexp : Int) - 1075 + bitLength (2 ^ 52 + frac) - 1 = (bexp : Int) - 1023 := by rw [hlen]; omega
    rw [hsig, hscale, f64Magnitude_within htop (by omega) (by omega),
      show (bexp : Int) - 1023 - 52 = (bexp : Int) - 1075 by omega, inUnits_self, Option.map_some,
      show ((bexp : Int) - 1023 + 1023).toNat = bexp by omega, packNormal, Nat.add_sub_cancel_left, f64Unsigned]

/-! ## The literal with its sign -/

theorem f64Literal_zero (neg : Bool) (e : Int) : f64Literal neg 0 e = some (f64Pattern neg 0 0) := rfl

theorem f64Literal_of_ne_zero {m : Nat} (hm : m ≠ 0) (neg : Bool) (e : Int) :
    f64Literal neg m e = (f64Magnitude m e).map fun f => if neg then f64Negate f else f := by
  rw [f64Literal, if_neg hm]

/-- A literal's pattern stands for the number that the literal is written for. -/
theorem f64Literal_sound {neg : Bool} {m : Nat} {e : Int} {f : Value} (h : f64Literal neg m e = some f) :
    f64Value f = some ((if neg then -1 else 1) * (m : ℚ) * (2 : ℚ) ^ e) := by
  by_cases hm : m = 0
  · subst hm
    rw [f64Literal_zero] at h
    rw [← Option.some.inj h, f64Value_f64Pattern (by decide) (by decide)]
    simp [f64Significand]
  · rw [f64Literal_of_ne_zero hm] at h
    obtain ⟨g, hg, rfl⟩ := Option.map_eq_some_iff.mp h
    obtain ⟨bexp, hb, frac, hf, rfl, heq⟩ := f64Magnitude_sound hm hg
    rw [mul_assoc, heq, ← mul_assoc]
    exact f64Value_f64Pattern hb hf neg

/-- Settles O59: soundness is `f64Literal_sound`; and a finite pattern, taken apart, is the literal of its fields. -/
theorem binaryLiteralsHaveTheirValue : Obligations.BinaryLiteralsHaveTheirValue := by
  refine ⟨fun neg m e f => f64Literal_sound, fun neg m e f hclass => ?_⟩
  obtain ⟨bexp, hb, frac, hf, rfl, rfl, rfl⟩ := eq_f64Pattern_of_finite hclass
  by_cases hm : f64Significand bexp frac = 0
  · have h0 : bexp = 0 ∧ frac = 0 := by
      rw [f64Significand] at hm
      split_ifs at hm <;> omega
    obtain ⟨rfl, rfl⟩ := h0
    exact f64Literal_zero neg _
  · rw [f64Literal_of_ne_zero hm, f64Magnitude_complete hb hf hm]
    rfl

end Sys2Proof.Machine
end

section
/-! PROOFS. The statements about ADD, SUB and the kernel's additive laws (40_add_sub.md). -/

namespace Sys2Proof.Machine

/-- A command whose rule gives one value writes it to `R` and completes without error (30_encoding.md R68). -/
theorem complete_value (f : Value → Value → Value) {s : State} {p : Pending} (h : s.pend = some p) :
    complete (fun a b => Result.value (f a b)) s = .next { s with regR := f p.a p.b, err := 0#2, pend := none } := by
  rw [complete_some _ h, commit_value, errNone]

theorem bits64_add (m n : Int) : bits64 (m + n) = bits64 m + bits64 n := BitVec.ofInt_add m n

theorem bits64_sub (m n : Int) : bits64 (m - n) = bits64 m - bits64 n := by
  simp only [bits64, Int.sub_eq_add_neg, BitVec.ofInt_add, BitVec.ofInt_neg, BitVec.sub_eq_add_neg]

/-- The adder's sum is that of the unsigned readings, wrapped (40_add_sub.md R100). -/
theorem add64_eq_bits64 (a b : Value) : add64 a b = bits64 ((u a : Int) + u b) := by
  rw [add64_eq, bits64_add, bits64_u, bits64_u]

/-- The subtractor's difference is that of the unsigned readings, wrapped (40_add_sub.md R102). -/
theorem sub64_eq_bits64 (a b : Value) : sub64 a b = bits64 ((u a : Int) - u b) := by
  rw [sub64_eq, bits64_sub, bits64_u, bits64_u]

/-- Settles O8: ADD completes with the adder's sum. -/
theorem addWritesWrappedSum : Obligations.AddWritesWrappedSum := by
  refine ⟨decode_encode .add, fun s p hp => ?_⟩
  rw [exec_add, complete_value _ hp, add64_eq_bits64]

/-- Settles O9: SUB completes with the subtractor's difference. -/
theorem subWritesWrappedDifference : Obligations.SubWritesWrappedDifference := by
  refine ⟨decode_encode .sub, fun s p hp => ?_⟩
  rw [exec_sub, complete_value _ hp, sub64_eq_bits64]

/-- Settles O47: the kernel's adder, subtractor and negator are those of bit vectors, whose laws these are. -/
theorem subtractionUndoesAddition : Obligations.SubtractionUndoesAddition := by
  intro a b
  rw [add64_eq, add64_eq, add64_eq, sub64_eq, sub64_eq, neg64_eq]
  exact ⟨BitVec.add_sub_cancel a b, BitVec.add_comm a b, BitVec.sub_eq_add_neg a b⟩

end Sys2Proof.Machine
end

section
/-! PROOFS. The statements about the multiplier and the divider (41_muldiv.md): the low product and its laws, exact and
truncating division, the zero divisor, and the most negative value. -/

namespace Sys2Proof.Machine

/-! ## Multiplication -/

theorem bits64_mul (m n : Int) : bits64 (m * n) = bits64 m * bits64 n := BitVec.ofInt_mul m n

/-- The unsigned product is that of the unsigned readings, wrapped (41_muldiv.md R111). -/
theorem mulU_eq_bits64 (a b : Value) : mulU a b = bits64 ((u a : Int) * u b) := by
  rw [mulU_eq, bits64_mul, bits64_u, bits64_u]

/-- The signed product is that of the signed readings, wrapped (41_muldiv.md R112). -/
theorem mulS_eq_bits64 (a b : Value) : mulS a b = bits64 (sgn a * sgn b) := by
  rw [mulS_eq, bits64_mul, bits64_sgn, bits64_sgn]

/-- Settles O10: both multiplications complete with the wrapped product of their readings. -/
theorem multipliesWriteTheLowProduct : Obligations.MultipliesWriteTheLowProduct := by
  refine ⟨decode_encode .mulu, decode_encode .muls, fun s p hp => ⟨?_, ?_⟩⟩
  · rw [exec_mulu, complete_value _ hp, mulU_eq_bits64]
  · rw [exec_muls, complete_value _ hp, mulS_eq_bits64]

/-- Settles O48: the multiplier and the negator are those of bit vectors, whose laws these are. -/
theorem multiplicationLawsHold : Obligations.MultiplicationLawsHold := by
  intro a b
  rw [mulU_eq, mulU_eq, mulU_eq, mulS_eq, mulS_eq, neg64_eq, neg64_eq]
  exact ⟨mul_comm a b, rfl, BitVec.mul_zero, BitVec.mul_zero, BitVec.neg_neg⟩

/-! ## The completion of a division -/

/-- A division by a nonzero divisor writes one value to `R` and one to `S` (30_encoding.md R68). -/
theorem complete_division (f g : Value → Value → Value) {s : State} {p : Pending} (h : s.pend = some p)
    (hb : p.b ≠ ZERO) :
    complete (fun a b => guardDivisor b (Result.values (f a b) (g a b))) s =
      .next { s with regR := f p.a p.b, regS := g p.a p.b, err := 0#2, pend := none } := by
  rw [complete_some _ h, guardDivisor_ne _ hb, commit_values, errNone]

/-- A division by zero writes `ERR = 1` and no result (60_exceptions.md R201). -/
theorem complete_division_zero (f g : Value → Value → Value) {s : State} {p : Pending} (h : s.pend = some p)
    (hb : p.b = ZERO) :
    complete (fun a b => guardDivisor b (Result.values (f a b) (g a b))) s =
      .next { s with err := 1#2, pend := none } := by
  rw [complete_some _ h, hb, guardDivisor_zero, commit_raise_divideByZero, errDivideByZero]

/-- Settles O11, by the divider's postcondition (R113) and the routing of its two results. -/
theorem unsignedDivisionIsExact : Obligations.UnsignedDivisionIsExact := by
  refine ⟨decode_encode .divu, decode_encode .remu, fun s p hp => ⟨fun hb => ?_, fun hb => ?_⟩⟩
  · rw [exec_divu, exec_remu, complete_division _ _ hp hb, complete_division _ _ hp hb, divremU_fst _ _ hb,
      divremU_snd _ _ hb, bits64_natCast, bits64_natCast]
    exact ⟨rfl, rfl⟩
  · rw [exec_divu, exec_remu]
    exact ⟨complete_division_zero _ _ hp hb, complete_division_zero _ _ hp hb⟩

/-- Settles O12, by the signed division's quotient and remainder (R116) and the routing of its two results. -/
theorem signedDivisionTruncates : Obligations.SignedDivisionTruncates := by
  refine ⟨decode_encode .divs, decode_encode .rems, fun s p hp => ⟨fun hb => ?_, fun hb => ?_⟩⟩
  · rw [exec_divs, exec_rems, complete_division _ _ hp hb, complete_division _ _ hp hb, divremS_fst _ _ hb,
      divremS_snd _ _ hb]
    exact ⟨rfl, rfl⟩
  · rw [exec_divs, exec_rems]
    exact ⟨complete_division_zero _ _ hp hb, complete_division_zero _ _ hp hb⟩

/-! ## The most negative value -/

/-- The signed division's two results, from the truncating quotient and remainder of the readings (41_muldiv.md R116). -/
theorem divremS_eq {a b q r : Value} (hb : b ≠ ZERO) (hq : bits64 ((sgn a).tdiv (sgn b)) = q)
    (hr : bits64 ((sgn a).tmod (sgn b)) = r) : divremS a b = (q, r) :=
  Prod.ext ((divremS_fst a b hb).trans hq) ((divremS_snd a b hb).trans hr)

theorem sgn_minS : sgn MIN_S = -2 ^ 63 := by decide

theorem sgn_maxS : sgn MAX_S = 2 ^ 63 - 1 := by decide

theorem natAbs_sgn_le (v : Value) : (sgn v).natAbs ≤ 2 ^ 63 := by
  have hlo := minS_le_sgn v
  have hhi := sgn_le_maxS v
  rw [sgn_minS] at hlo
  rw [sgn_maxS] at hhi
  omega

/-- Only `MIN_S` has the magnitude 2^63. -/
theorem natAbs_sgn_lt {v : Value} (hv : v ≠ MIN_S) : (sgn v).natAbs < 2 ^ 63 := by
  have hne : sgn v ≠ -2 ^ 63 := fun h => hv (sgn_injective (h.trans sgn_minS.symm))
  have hhi := sgn_le_maxS v
  have hle := natAbs_sgn_le v
  rw [sgn_maxS] at hhi
  omega

/-- Every other value is smaller in magnitude than `MIN_S`, so dividing it by `MIN_S` leaves it as the remainder. -/
theorem divremS_minS {b : Value} (hb : b ≠ MIN_S) : divremS b MIN_S = (ZERO, b) := by
  have hquot : (sgn b).tdiv (sgn MIN_S) = 0 := by
    have hlt : (sgn b).natAbs < (sgn MIN_S).natAbs := natAbs_sgn_lt hb
    rw [tdiv_eq_natAbs, Nat.div_eq_of_lt hlt]
    exact ite_self _
  have hrem : (sgn b).tmod (sgn MIN_S) = sgn b := by
    simpa [hquot] using Int.tdiv_mul_add_tmod (sgn b) (sgn MIN_S)
  exact divremS_eq (by decide) (by rw [hquot]; rfl) (by rw [hrem, bits64_sgn])

/-- DIVS on given operands, once their signed division is known. -/
theorem exec_divs_of_divremS {a b q r : Value} (hb : b ≠ ZERO) (h : divremS a b = (q, r)) (s : State) (c : Word) :
    exec .divs { s with pend := some ⟨c, a, b⟩ } = .next { s with regR := q, regS := r, err := 0#2, pend := none } := by
  rw [exec_divs, complete_division _ _ rfl hb, h]

/-- Settles O14: the fixed rows by evaluating the truncating division of the readings, the last by comparing magnitudes. -/
theorem mostNegativeValueWraps : Obligations.MostNegativeValueWraps := by
  have hminS : MIN_S ≠ ZERO := by decide
  have hnegOne : bits64 (-1) ≠ ZERO := by decide
  have hthree : bits64 3 ≠ ZERO := by decide
  have hmul : MIN_S * bits64 (-1) = MIN_S := by decide
  refine ⟨by rw [neg64_eq]; decide, fun s c => ⟨?_, ?_, ?_, ?_, fun b hb => ?_⟩⟩
  · exact exec_divs_of_divremS hnegOne (divremS_eq hnegOne (by decide) (by decide)) s c
  · exact exec_divs_of_divremS hthree (divremS_eq hthree (by decide) (by decide)) s c
  · exact exec_divs_of_divremS hminS (divremS_eq hminS (by decide) (by decide)) s c
  · rw [exec_muls, complete_value _ rfl, mulS_eq, hmul]
  · rw [exec_rems, complete_division _ _ rfl hminS, divremS_minS hb]

/-! ## The division identity -/

/-- An identity of integers, read back in patterns: the shape of R119's two identities. -/
theorem eq_add64_mulU_bits64 {a b : Value} {x y q r : Int} (hx : bits64 x = a) (hy : bits64 y = b)
    (h : q * y + r = x) : a = add64 (mulU (bits64 q) b) (bits64 r) := by
  rw [mulU_eq, add64_eq, ← hy, ← bits64_mul, ← bits64_add, h, hx]

theorem sgn_bits64 {n : Int} (h : n.natAbs < 2 ^ 63) : sgn (bits64 n) = n :=
  BitVec.toInt_ofInt_eq_self (by decide) (by omega) (by omega)

theorem natAbs_sgn_pos {b : Value} (hb : b ≠ ZERO) : 0 < (sgn b).natAbs :=
  Int.natAbs_pos.mpr fun h => hb (sgn_injective h)

/-- The remainder of the readings is representable, so the signed remainder reads as it (41_muldiv.md R116). -/
theorem sgn_divremS_snd (a b : Value) (hb : b ≠ ZERO) : sgn (divremS a b).2 = (sgn a).tmod (sgn b) := by
  have hlt : ((sgn a).tmod (sgn b)).natAbs < 2 ^ 63 := by
    rw [Int.natAbs_tmod]
    exact (Nat.mod_lt _ (natAbs_sgn_pos hb)).trans_le (natAbs_sgn_le b)
  rw [divremS_snd a b hb, sgn_bits64 hlt]

/-- The signed remainder is zero or has the dividend's sign (41_muldiv.md R119). -/
theorem divremS_snd_sign (a b : Value) (hb : b ≠ ZERO) :
    (divremS a b).2 = ZERO ∨ signBit (divremS a b).2 = signBit a := by
  by_cases h0 : (sgn a).tmod (sgn b) = 0
  · exact .inl (by rw [divremS_snd a b hb, h0]; rfl)
  · right
    rw [signBit_eq_sgn, signBit_eq_sgn, sgn_divremS_snd a b hb, decide_eq_decide]
    rw [tmod_eq_natAbs] at h0 ⊢
    split_ifs at h0 ⊢ <;> omega

/-- Settles O49, by the identities of integer division on each pair of readings. -/
theorem divisionIdentityHolds : Obligations.DivisionIdentityHolds := by
  intro a b hb
  refine ⟨?_, ?_, ?_, divremS_snd_sign a b hb, ?_⟩
  · rw [divremU_fst a b hb, divremU_snd a b hb, ← bits64_natCast, ← bits64_natCast]
    exact eq_add64_mulU_bits64 (bits64_u a) (bits64_u b) (by exact_mod_cast Nat.div_add_mod' (u a) (u b))
  · rw [divremS_fst a b hb, divremS_snd a b hb]
    exact eq_add64_mulU_bits64 (bits64_sgn a) (bits64_sgn b) (Int.tdiv_mul_add_tmod _ _)
  · rw [(divremU_spec a b hb).2]
    exact Nat.mod_lt _ (Nat.pos_of_ne_zero fun h => hb (u_injective h))
  · rw [sgn_divremS_snd a b hb, Int.natAbs_tmod]
    exact Nat.mod_lt _ (natAbs_sgn_pos hb)

end Sys2Proof.Machine
end

section
/-! PROOFS. The statement about NEG and ABS (42_sign.md). -/

namespace Sys2Proof.Machine

theorem bits64_neg (n : Int) : bits64 (-n) = -bits64 n := BitVec.ofInt_neg

/-- The negator's result is the negated unsigned reading, wrapped (42_sign.md R130). -/
theorem neg64_eq_bits64 (a : Value) : neg64 a = bits64 (-(u a : Int)) := by
  rw [neg64_eq, bits64_neg, bits64_u]

/-- ABS exempts `MIN_S` from negation, but `MIN_S` is its own negation: the result is the multiplier's and divider's
magnitude (42_sign.md R132). -/
theorem abs64_eq_magnitude (a : Value) : abs64 a = magnitude a := by
  by_cases h : a = MIN_S
  · subst h
    decide
  · simp [abs64, magnitude, h]

/-- The absolute value of the signed reading, wrapped (42_sign.md R132). -/
theorem abs64_eq_bits64 (a : Value) : abs64 a = bits64 |sgn a| := by
  rw [abs64_eq_magnitude, ← bits64_u (magnitude a), u_magnitude, Int.natCast_natAbs]

/-- Settles O15: NEG completes with the negator's result, and ABS with the operand's magnitude. -/
theorem negAndAbsWriteSignResults : Obligations.NegAndAbsWriteSignResults := by
  refine ⟨decode_encode .neg, decode_encode .abs, fun s p hp => ⟨?_, ?_⟩⟩
  · rw [exec_neg, complete_value (fun a _ => neg64 a) hp, neg64_eq_bits64]
  · rw [exec_abs, complete_value (fun a _ => abs64 a) hp, abs64_eq_bits64]

end Sys2Proof.Machine
end

section
/-! PROOFS. The statement about AND, OR, XOR and NOT (43_bitwise.md). -/

namespace Sys2Proof.Machine

/-- AND on the two words is AND on the value (43_bitwise.md R140). -/
theorem pair_and (a b : Value) : pair (hi a &&& hi b) (lo a &&& lo b) = a &&& b := by
  rw [pair, ← BitVec.and_append, ← pair, ← pair, pair_hi_lo, pair_hi_lo]

/-- OR on the two words is OR on the value (43_bitwise.md R141). -/
theorem pair_or (a b : Value) : pair (hi a ||| hi b) (lo a ||| lo b) = a ||| b := by
  rw [pair, ← BitVec.or_append, ← pair, ← pair, pair_hi_lo, pair_hi_lo]

/-- XOR on the two words is XOR on the value (43_bitwise.md R142). -/
theorem pair_xor (a b : Value) : pair (hi a ^^^ hi b) (lo a ^^^ lo b) = a ^^^ b := by
  rw [pair, ← BitVec.xor_append, ← pair, ← pair, pair_hi_lo, pair_hi_lo]

/-- The complement is the distance of the unsigned reading to `2^64 - 1` (43_bitwise.md R143). -/
theorem not_eq_bits64 (a : Value) : ~~~a = bits64 (2 ^ 64 - 1 - u a) := by
  have hones : bits64 (2 ^ 64 - 1) = BitVec.allOnes 64 := by decide
  rw [bits64_sub, bits64_u, hones, BitVec.allOnes_sub_eq_not]

/-- Settles O16: each command completes with the bit-vector operation on the whole operands, whose bits the library
gives. -/
theorem bitwiseCommandsActBitByBit : Obligations.BitwiseCommandsActBitByBit := by
  refine ⟨decode_encode .and, decode_encode .or, decode_encode .xor, decode_encode .not, fun s p hp =>
    ⟨p.a &&& p.b, p.a ||| p.b, p.a ^^^ p.b, ~~~p.a, ?_, ?_, ?_, ?_, fun k hk => ?_, not_eq_bits64 p.a⟩⟩
  · rw [exec_and, complete_value _ hp, pair_and]
  · rw [exec_or, complete_value _ hp, pair_or]
  · rw [exec_xor, complete_value _ hp, pair_xor]
  · rw [exec_not, complete_value (fun a _ => pair (~~~hi a) (~~~lo a)) hp, pair_not]
  · exact ⟨BitVec.getLsbD_and, BitVec.getLsbD_or, BitVec.getLsbD_xor, by simp [hk]⟩

end Sys2Proof.Machine
end

section
/-! PROOFS. The statements about SLL, SRL and SRA and their kernel shifts (44_shift.md). -/

namespace Sys2Proof.Machine

/-- A left shift is the wrapped product with a power of two (44_shift.md R150). -/
theorem shl64_eq_bits64 (a : Value) {n : Nat} (hn : n < 64) : shl64 a n = bits64 (u a * 2 ^ n : Nat) :=
  u_injective (by rw [u_shl64 a n hn, bits64_natCast, u, u, BitVec.toNat_ofNat])

/-- A logical right shift is the floor of the quotient by a power of two (44_shift.md R150). -/
theorem shr64_eq_bits64 (a : Value) {n : Nat} (hn : n < 64) : shr64 a n = bits64 (u a / 2 ^ n : Nat) := by
  rw [← u_shr64 a n hn, bits64_u]

/-- Settles O17: both commands complete with the kernel's shift by the count `u(b) mod 64`. -/
theorem logicalShiftsMoveByTheCountModSixtyFour : Obligations.LogicalShiftsMoveByTheCountModSixtyFour := by
  refine ⟨decode_encode .sll, decode_encode .srl, fun s p hp => ⟨?_, ?_⟩⟩
  · rw [exec_sll, complete_value (fun a b => shl64 a (shiftCount b)) hp, shl64_eq_bits64 _ (shiftCount_lt _),
      shiftCount_eq]
  · rw [exec_srl, complete_value (fun a b => shr64 a (shiftCount b)) hp, shr64_eq_bits64 _ (shiftCount_lt _),
      shiftCount_eq]

/-- Bit `k` of the arithmetic shift is bit `k + n` of the operand, or its sign past the top (44_shift.md R153). -/
theorem getLsbD_sra64 (a : Value) {n k : Nat} (hn : n < 64) (hk : k < 64) :
    (sra64 a n).getLsbD k = if k + n < 64 then a.getLsbD (k + n) else a.getLsbD 63 := by
  rw [sra64_eq a n hn, BitVec.getLsbD_sshiftRight, decide_eq_false (not_le.mpr hk), Bool.not_false, Bool.true_and,
    Nat.add_comm n k, BitVec.msb_eq_getLsbD_last]

/-- Settles O18: SRA completes with the kernel's arithmetic shift by `u(b) mod 64`, as a quotient and bit by bit. -/
theorem arithmeticShiftFillsWithTheSign : Obligations.ArithmeticShiftFillsWithTheSign := by
  refine ⟨decode_encode .sra, fun s p hp => ?_⟩
  have hn : u p.b % 64 < 64 := Nat.mod_lt _ (by norm_num)
  refine ⟨sra64 p.a (u p.b % 64), ?_, sra64_bits p.a _ hn, fun _ hk => getLsbD_sra64 p.a hn hk⟩
  rw [exec_sra, complete_value (fun a b => sra64 a (shiftCount b)) hp, shiftCount_eq]

/-! ## Shifts as multiplication and division (R154) -/

/-- The shifted `ONE` is the library's power of two. -/
theorem shl64_one {n : Nat} (hn : n < 64) : shl64 ONE n = BitVec.twoPow 64 n := shl64_eq ONE n hn

theorem u_shl64_one {n : Nat} (hn : n < 64) : u (shl64 ONE n) = 2 ^ n := by
  rw [shl64_one hn, u, BitVec.toNat_twoPow_of_lt hn]

theorem shl64_one_ne_zero {n : Nat} (hn : n < 64) : shl64 ONE n ≠ ZERO := by
  intro hzero
  have hpow := u_shl64_one hn
  rw [hzero] at hpow
  exact (Nat.two_pow_pos n).ne hpow

theorem shl64_eq_mulU (a : Value) {n : Nat} (hn : n < 64) : shl64 a n = mulU a (shl64 ONE n) := by
  rw [mulU_eq, shl64_one hn, shl64_eq a n hn, BitVec.shiftLeft_eq_mul_twoPow]

theorem shr64_eq_divremU (a : Value) {n : Nat} (hn : n < 64) : shr64 a n = (divremU a (shl64 ONE n)).1 := by
  rw [divremU_fst a _ (shl64_one_ne_zero hn), u_shl64_one hn, shr64_eq_bits64 a hn, bits64_natCast]

/-- On a non-negative operand the sign that comes in is zero. -/
theorem sra64_eq_shr64 {a : Value} {n : Nat} (hn : n < 64) (ha : signBit a = false) : sra64 a n = shr64 a n := by
  rw [sra64_eq a n hn, shr64_eq a n hn,
    BitVec.sshiftRight_eq_of_msb_false ((BitVec.msb_eq_getLsbD_last a).trans ha)]

/-- Settles O50: the multiplier and the divider on the power of two `shl64(ONE, n)`; a shift by 0 is the kernel's own
first case. -/
theorem shiftsAreMultiplicationAndDivision : Obligations.ShiftsAreMultiplicationAndDivision := fun a _ hn =>
  ⟨shl64_eq_mulU a hn, shr64_eq_divremU a hn, sra64_eq_shr64 hn, rfl, rfl, rfl⟩

end Sys2Proof.Machine
end

section
/-! PROOFS. The statements about CMPU, CMPS, MINU, MINS, MAXU and MAXS (45_compare.md). -/

namespace Sys2Proof.Machine

/-- The pattern that a compare writes to `R`: -1 is all ones (45_compare.md R161). -/
theorem bits64_threeWay {α : Type} [LinearOrder α] (x y : α) :
    bits64 (if x < y then -1 else if x = y then 0 else 1) =
      if x < y then 0xFFFFFFFFFFFFFFFF#64 else if x = y then 0#64 else 1#64 := by
  rw [apply_ite bits64, apply_ite bits64]
  rfl

/-- A compare whose three-way result is that of the operands' readings under `key` writes the result to `R`, sets the
flag of the relation that holds, and completes without error (30_encoding.md R68). -/
theorem complete_compare {α : Type} [LinearOrder α] {key : Value → α} {cmp : Value → Value → Int}
    (hcmp : ∀ a b, cmp a b = if key a < key b then -1 else if key a = key b then 0 else 1) {s : State} {p : Pending}
    (hp : s.pend = some p) :
    complete (fun a b => compareResult (cmp a b)) s = .next { s with
      regR := if key p.a < key p.b then 0xFFFFFFFFFFFFFFFF#64 else if key p.a = key p.b then 0#64 else 1#64,
      lt := decide (key p.a < key p.b), eq := decide (key p.a = key p.b), gt := decide (key p.b < key p.a),
      err := 0#2, pend := none } := by
  rw [complete_some _ hp, compareResult, commit_compared, hcmp, bits64_threeWay, flagsOf_threeWay, errNone]

/-- Settles O19, by the kernel's three-way results as comparisons of the readings (R160). -/
theorem comparesWriteResultAndFlags : Obligations.ComparesWriteResultAndFlags := by
  refine ⟨decode_encode .cmpu, decode_encode .cmps, fun s p hp => ⟨?_, ?_⟩⟩
  · rw [exec_cmpu, complete_compare cmpU_eq hp]
  · rw [exec_cmps, complete_compare cmpS_eq hp]

/-- Settles O20: the sign of the three-way result tells which operand is selected (R163 to R166). -/
theorem minAndMaxSelectAnOperand : Obligations.MinAndMaxSelectAnOperand := by
  refine ⟨decode_encode .minu, decode_encode .mins, decode_encode .maxu, decode_encode .maxs,
    fun s p hp => ⟨?_, ?_, ?_, ?_⟩⟩
  · rw [exec_minu, complete_value (fun a b => minBy (cmpU a b) a b) hp]
    simp only [minBy, cmpU_nonpos_iff]
  · rw [exec_mins, complete_value (fun a b => minBy (cmpS a b) a b) hp]
    simp only [minBy, cmpS_nonpos_iff]
  · rw [exec_maxu, complete_value (fun a b => maxBy (cmpU a b) a b) hp]
    simp only [maxBy, cmpU_nonneg_iff]
  · rw [exec_maxs, complete_value (fun a b => maxBy (cmpS a b) a b) hp]
    simp only [maxBy, cmpS_nonneg_iff]

end Sys2Proof.Machine
end

section
/-! PROOFS. The statement about LZC (46_count.md). -/

namespace Sys2Proof.Machine

/-- The bits that `lzc64` counts are 0: the operand lies below the weight of the lowest of them. -/
theorem getLsbD_eq_false_of_lzc64 (a : Value) {k : Nat} (hk : 64 - lzc64 a ≤ k) : a.getLsbD k = false :=
  Nat.testBit_lt_two_pow ((lzc64_spec a).1.trans_le (Nat.pow_le_pow_right Nat.two_pos hk))

theorem u_ne_zero_of_lzc64_lt {a : Value} (h : lzc64 a < 64) : u a ≠ 0 := by
  intro hz
  have ha : a = ZERO := BitVec.eq_of_toNat_eq hz
  exact absurd h (by rw [ha]; decide)

/-- The bit below the counted ones is 1: the operand lies between its weight and twice its weight. -/
theorem getLsbD_eq_true_of_lzc64_lt {a : Value} (h : lzc64 a < 64) : a.getLsbD (63 - lzc64 a) = true := by
  obtain ⟨hlt, hge⟩ := lzc64_spec a
  have hge := hge (u_ne_zero_of_lzc64_lt h)
  have hexp : 64 - lzc64 a = 63 - lzc64 a + 1 := by omega
  rw [hexp] at hlt hge
  have hweight : 2 ^ (63 - lzc64 a) ≤ u a := by
    rw [pow_succ] at hge
    omega
  exact Nat.testBit_of_two_pow_le_and_two_pow_add_one_gt hweight hlt

/-- Settles O21: LZC completes with the kernel's count, which places the highest set bit (R170). -/
theorem lzcCountsLeadingZeros : Obligations.LzcCountsLeadingZeros := by
  refine ⟨decode_encode .lzc, fun s p hp =>
    ⟨lzc64 p.a, lzc64_le p.a, ?_, fun _ hk _ => getLsbD_eq_false_of_lzc64 p.a hk, getLsbD_eq_true_of_lzc64_lt⟩⟩
  rw [exec_lzc, complete_value (fun a _ => BitVec.ofNat 64 (lzc64 a)) hp, bits64_natCast]

end Sys2Proof.Machine
end

section
/-! PROOFS. The statements about CVTFU, CVTFS, CVTUF and CVTSF (47_convert.md). -/

namespace Sys2Proof.Machine

/-! ## Truncation of a binary64 value (47_convert.md R181) -/

/-- `sign(x) * floor(|x|)` for a rational number. -/
theorem truncScaled_eq_truncate (neg : Bool) (m : Nat) (e : Int) {x : ℚ}
    (hx : (if neg then -1 else 1) * (m : ℚ) * (2 : ℚ) ^ e = x) :
    truncScaled neg m e = if 0 ≤ x then ⌊x⌋ else -⌊-x⌋ := by
  have hq : 0 ≤ (m : ℚ) * (2 : ℚ) ^ e := by positivity
  rw [truncScaled_eq]
  cases neg with
  | false =>
    have hxq : x = (m : ℚ) * (2 : ℚ) ^ e := by rw [← hx, if_neg Bool.false_ne_true, one_mul]
    rw [hxq, if_neg Bool.false_ne_true, if_pos hq]
  | true =>
    have hxq : x = -((m : ℚ) * (2 : ℚ) ^ e) := by rw [← hx, if_pos rfl, neg_one_mul, neg_mul]
    rw [hxq, if_pos rfl, neg_neg]
    split_ifs with hneg
    · rw [le_antisymm (neg_nonneg.mp hneg) hq, neg_zero, Int.floor_zero, neg_zero]
    · rfl

/-- Only a finite pattern has a value. -/
theorem f64Class_of_f64Value {f : Value} {x : ℚ} (h : f64Value f = some x) :
    ∃ neg m e, f64Class f = .finite neg m e ∧ (if neg then -1 else 1) * (m : ℚ) * (2 : ℚ) ^ e = x := by
  rw [f64Value] at h
  cases hc : f64Class f with
  | nan => rw [hc] at h; cases h
  | inf neg => rw [hc] at h; cases h
  | finite neg m e =>
    rw [hc] at h
    exact ⟨neg, m, e, rfl, Option.some.inj h⟩

theorem f2i_of_f64Value_none {a : Value} (h : f64Value a = none) : f2i a = ZERO := by
  rw [f64Value] at h
  rw [f2i]
  cases hc : f64Class a with
  | nan => rfl
  | inf neg => rfl
  | finite neg m e => rw [hc] at h; cases h

theorem f2i_of_f64Value_some {a : Value} {x : ℚ} (h : f64Value a = some x) :
    f2i a = bits64 (if 0 ≤ x then ⌊x⌋ else -⌊-x⌋) := by
  obtain ⟨neg, m, e, hc, hx⟩ := f64Class_of_f64Value h
  rw [f2i, hc]
  exact congrArg bits64 (truncScaled_eq_truncate neg m e hx)

/-- Settles O22: both commands complete with the operand's truncation, which only a finite operand has. -/
theorem conversionsToIntegerTruncate : Obligations.ConversionsToIntegerTruncate := by
  refine ⟨decode_encode .cvtfu, decode_encode .cvtfs, fun s p hp =>
    ⟨f2i p.a, ?_, ?_, f2i_of_f64Value_none, fun _ => f2i_of_f64Value_some⟩⟩
  · rw [exec_cvtfu, complete_value (fun a _ => f2i a) hp]
  · rw [exec_cvtfs, complete_value (fun a _ => f2i a) hp]

/-! ## What `rne64` packs (47_convert.md R184) -/

theorem rne64_zero : rne64 0 = ZERO := rfl

/-- An integer of at most 53 bits fits the significand. -/
theorem rne64_short {n k : Nat} (hk : k ≤ 52) (hl : 2 ^ k ≤ n) (hu : n < 2 ^ (k + 1)) :
    rne64 n = packNormal (1023 + k) (n * 2 ^ (52 - k)) := by
  have hn : n ≠ 0 := (Nat.two_pow_pos k).trans_le hl |>.ne'
  have hlen : bitLength n = k + 1 := bitLength_eq hl hu
  rw [rne64, if_neg hn, hlen, if_pos (by omega), show 1022 + (k + 1) = 1023 + k by omega,
    show 53 - (k + 1) = 52 - k by omega]

/-- A longer one is rounded to 53 bits. -/
theorem rne64_long {n k : Nat} (hl : 2 ^ (52 + (k + 1)) ≤ n) (hu : n < 2 ^ (53 + (k + 1))) :
    rne64 n = packNormal (1076 + k) (roundShift n (k + 1)) := by
  have hn : n ≠ 0 := (Nat.two_pow_pos _).trans_le hl |>.ne'
  have hlen : bitLength n = 54 + k := (bitLength_eq hl (hu.trans_eq (by congr 1; omega))).trans (by omega)
  rw [rne64, if_neg hn, hlen, if_neg (by omega), show 1022 + (54 + k) = 1076 + k by omega,
    show 54 + k - 53 = k + 1 by omega]

/-- A short integer scaled to 53 bits is in the range of `packNormal`. -/
theorem scaled_significand_range {n k : Nat} (hk : k ≤ 52) (hl : 2 ^ k ≤ n) (hu : n < 2 ^ (k + 1)) :
    2 ^ 52 ≤ n * 2 ^ (52 - k) ∧ n * 2 ^ (52 - k) ≤ 2 ^ 53 := by
  constructor
  · calc 2 ^ 52 = 2 ^ k * 2 ^ (52 - k) := by rw [← pow_add, Nat.add_sub_cancel' hk]
      _ ≤ n * 2 ^ (52 - k) := Nat.mul_le_mul_right _ hl
  · calc n * 2 ^ (52 - k) ≤ 2 ^ (k + 1) * 2 ^ (52 - k) := Nat.mul_le_mul_right _ hu.le
      _ = 2 ^ 53 := by rw [← pow_add]; congr 1; omega

/-- The integers below 2^64 but zero, by bit length. -/
theorem short_or_long {n : Nat} (h0 : n ≠ 0) (hn : n < 2 ^ 64) :
    (∃ k ≤ 52, 2 ^ k ≤ n ∧ n < 2 ^ (k + 1)) ∨
    ∃ k < 11, 2 ^ (52 + (k + 1)) ≤ n ∧ n < 2 ^ (53 + (k + 1)) := by
  obtain ⟨hl, hu⟩ := bitLength_spec h0
  have hpos : bitLength n ≠ 0 := by rw [bitLength, if_neg h0]; exact Nat.succ_ne_zero _
  have hlen := bitLength_le_of_lt_two_pow h0 hn
  by_cases hshort : bitLength n ≤ 53
  · exact .inl ⟨bitLength n - 1, by omega, hl, by rwa [Nat.sub_add_cancel (by omega)]⟩
  · refine .inr ⟨bitLength n - 54, by omega, ?_, ?_⟩
    · rwa [show 52 + (bitLength n - 54 + 1) = bitLength n - 1 by omega]
    · rwa [show 53 + (bitLength n - 54 + 1) = bitLength n by omega]

theorem f64Sign_packNormal {bexp m : Nat} (he : bexp < 2046) (hm : m ≤ 2 ^ 53) :
    f64Sign (packNormal bexp m) = false := by
  have hu := u_packNormal he hm
  rw [f64Sign_eq, signBit_eq_decide, ← u, hu]
  exact decide_eq_false (by omega)

theorem f64Sign_rne64 {n : Nat} (hn : n < 2 ^ 64) : f64Sign (rne64 n) = false := by
  by_cases h0 : n = 0
  · rw [h0]; rfl
  rcases short_or_long h0 hn with ⟨k, hk, hl, hu⟩ | ⟨k, hk, hl, hu⟩
  · rw [rne64_short hk hl hu]
    exact f64Sign_packNormal (by omega) (scaled_significand_range hk hl hu).2
  · rw [rne64_long hl hu]
    exact f64Sign_packNormal (by omega) (roundShift_range hl hu).2

/-! ## Rounding to the nearest value, ties to even (47_convert.md R184) -/

theorem f64Value_zero : f64Value ZERO = some 0 := by
  have h := f64Value_f64Pattern (bexp := 0) (frac := 0) (by decide) (by decide) false
  rwa [f64Significand, if_pos rfl, Nat.cast_zero, mul_zero, zero_mul] at h

theorem f64Value_rne64_short {n k : Nat} (hk : k ≤ 52) (hl : 2 ^ k ≤ n) (hu : n < 2 ^ (k + 1)) :
    f64Value (rne64 n) = some (n : ℚ) := by
  obtain ⟨hml, hmu⟩ := scaled_significand_range hk hl hu
  have hexp : ((1023 + k : Nat) : Int) - 1075 = -((52 - k : Nat) : Int) := by omega
  rw [rne64_short hk hl hu, f64Value_packNormal (by omega) (by omega) hml hmu, hexp, zpow_neg, zpow_natCast]
  push_cast
  rw [mul_inv_cancel_right₀ (by positivity)]

theorem f64Value_rne64_long {n k : Nat} (hk : k < 11) (hl : 2 ^ (52 + (k + 1)) ≤ n) (hu : n < 2 ^ (53 + (k + 1))) :
    f64Value (rne64 n) = some ((roundShift n (k + 1) : ℚ) * 2 ^ (k + 1)) := by
  obtain ⟨hml, hmu⟩ := roundShift_range hl hu
  have hexp : ((1076 + k : Nat) : Int) - 1075 = ((k + 1 : Nat) : Int) := by omega
  rw [rne64_long hl hu, f64Value_packNormal (by omega) (by omega) hml hmu, hexp, zpow_natCast]

/-- Rounding to multiples of `2^(k+1)` errs by at most half of it, and by half only to an even multiple. -/
theorem roundShift_error (n k : Nat) :
    2 * |(roundShift n (k + 1) : ℚ) * 2 ^ (k + 1) - n| ≤ 2 ^ (k + 1) ∧
    (2 * |(roundShift n (k + 1) : ℚ) * 2 ^ (k + 1) - n| = 2 ^ (k + 1) → roundShift n (k + 1) % 2 = 0) := by
  obtain ⟨hup, hdown, htieUp, htieDown⟩ := roundShift_spec n k
  have hup' : 2 * (n : ℚ) ≤ 2 * ((roundShift n (k + 1) : ℚ) * 2 ^ (k + 1)) + 2 ^ (k + 1) := by exact_mod_cast hup
  have hdown' : 2 * ((roundShift n (k + 1) : ℚ) * 2 ^ (k + 1)) ≤ 2 * (n : ℚ) + 2 ^ (k + 1) := by exact_mod_cast hdown
  rcases abs_cases ((roundShift n (k + 1) : ℚ) * 2 ^ (k + 1) - n) with ⟨habs, -⟩ | ⟨habs, -⟩ <;> rw [habs]
  · refine ⟨by linarith, fun htie => htieDown ?_⟩
    have : 2 * ((roundShift n (k + 1) : ℚ) * 2 ^ (k + 1)) = 2 * n + 2 ^ (k + 1) := by linarith
    exact_mod_cast this
  · refine ⟨by linarith, fun htie => htieUp ?_⟩
    have : 2 * (n : ℚ) = 2 * ((roundShift n (k + 1) : ℚ) * 2 ^ (k + 1)) + 2 ^ (k + 1) := by linarith
    exact_mod_cast this

/-- Different multiples of a number lie at least that number apart. -/
theorem le_abs_sub_of_multiples {i j : Int} {c : ℚ} (hc : 0 < c) (h : i ≠ j) : c ≤ |(i : ℚ) * c - j * c| := by
  have hone : (1 : ℚ) ≤ |((i - j : Int) : ℚ)| := by exact_mod_cast Int.one_le_abs (sub_ne_zero.mpr h)
  rw [← sub_mul, abs_mul, abs_of_pos hc, ← Int.cast_sub]
  exact le_mul_of_one_le_left hc.le hone

/-- No multiple of `2^(k+1)` is nearer than the rounded one, and where another is equally near, the rounded one is
even. -/
theorem roundShift_nearest (n k : Nat) (j : Int) :
    |(roundShift n (k + 1) : ℚ) * 2 ^ (k + 1) - n| ≤ |j * 2 ^ (k + 1) - (n : ℚ)| ∧
    (|(roundShift n (k + 1) : ℚ) * 2 ^ (k + 1) - n| = |j * 2 ^ (k + 1) - (n : ℚ)| → j ≠ roundShift n (k + 1) →
      roundShift n (k + 1) % 2 = 0) := by
  by_cases hj : j = roundShift n (k + 1)
  · rw [hj, Int.cast_natCast]
    exact ⟨le_rfl, fun _ hne => absurd rfl hne⟩
  · obtain ⟨herr, htie⟩ := roundShift_error n k
    have hgap := le_abs_sub_of_multiples (c := 2 ^ (k + 1)) (by positivity) hj
    have htri := abs_sub_le ((j : ℚ) * 2 ^ (k + 1)) n ((roundShift n (k + 1) : ℚ) * 2 ^ (k + 1))
    rw [Int.cast_natCast] at hgap
    rw [abs_sub_comm (n : ℚ)] at htri
    exact ⟨by linarith, fun heq _ => htie (by linarith)⟩

/-- A number below `2^(52+k+1)` is farther from `n` than that power is, which is itself a multiple of `2^(k+1)`. -/
theorem roundShift_nearer_than_small {n k : Nat} (hl : 2 ^ (52 + (k + 1)) ≤ n) {y : ℚ}
    (hy : |y| < 2 ^ (52 + (k + 1))) : |(roundShift n (k + 1) : ℚ) * 2 ^ (k + 1) - n| < |y - n| := by
  have hl' : (2 : ℚ) ^ (52 + (k + 1)) ≤ n := by exact_mod_cast hl
  have hyn : y < 2 ^ (52 + (k + 1)) := (le_abs_self y).trans_lt hy
  have hpow : ((2 ^ 52 : Int) : ℚ) * 2 ^ (k + 1) = 2 ^ (52 + (k + 1)) := by
    rw [pow_add 2 52, Int.cast_pow, Int.cast_ofNat]
  calc |(roundShift n (k + 1) : ℚ) * 2 ^ (k + 1) - n|
      ≤ |((2 ^ 52 : Int) : ℚ) * 2 ^ (k + 1) - n| := (roundShift_nearest n k (2 ^ 52)).1
    _ = n - 2 ^ (52 + (k + 1)) := by rw [hpow, abs_sub_comm, abs_of_nonneg (sub_nonneg.mpr hl')]
    _ < n - y := by linarith
    _ = |y - n| := by rw [abs_sub_comm, abs_of_nonneg (by linarith)]

/-- Of a long integer, the patterns from its leading bit's weight on are multiples of the last kept bit's weight, and
the smaller ones are farther away. -/
theorem nearest_rne64_long {n k : Nat} (hk : k < 11) (hl : 2 ^ (52 + (k + 1)) ≤ n) (hu : n < 2 ^ (53 + (k + 1))) :
    NearestTiesToEven (rne64 n) n := by
  obtain ⟨hml, hmu⟩ := roundShift_range hl hu
  have hparity : f64Frac (rne64 n) % 2 = roundShift n (k + 1) % 2 := by
    rw [rne64_long hl hu, f64Frac_packNormal_parity (by omega) hml hmu]
  refine ⟨_, f64Value_rne64_long hk hl hu, fun g y hy => ?_⟩
  rw [hparity, Int.cast_natCast]
  by_cases hbig : (2 : ℚ) ^ (52 + (k + 1)) ≤ |y|
  · obtain ⟨j, rfl⟩ := f64Value_multiple hy (k + 1) hbig
    obtain ⟨hle, htie⟩ := roundShift_nearest n k j
    exact ⟨hle, fun heq hne => htie heq fun hj => hne (by rw [hj, Int.cast_natCast])⟩
  · have hlt := roundShift_nearer_than_small hl (not_le.mp hbig)
    exact ⟨hlt.le, fun heq => absurd heq hlt.ne⟩

theorem nearest_rne64 {n : Nat} (hn : n < 2 ^ 64) : NearestTiesToEven (rne64 n) n := by
  by_cases h0 : n = 0
  · rw [h0, rne64_zero]
    exact nearest_of_exact (by rw [f64Value_zero, Nat.cast_zero, Int.cast_zero])
  rcases short_or_long h0 hn with ⟨k, hk, hl, hu⟩ | ⟨k, hk, hl, hu⟩
  · exact nearest_of_exact (by rw [f64Value_rne64_short hk hl hu, Int.cast_natCast])
  · exact nearest_rne64_long hk hl hu

/-! ## Rounding is symmetric about zero (47_convert.md R186) -/

theorem eq_f64Pattern_of_f64Value {f : Value} {x : ℚ} (h : f64Value f = some x) :
    ∃ neg, ∃ bexp < 0x7FF, ∃ frac < 2 ^ 52, f = f64Pattern neg bexp frac := by
  obtain ⟨neg, m, e, hc, -⟩ := f64Class_of_f64Value h
  obtain ⟨bexp, hb, frac, hf, hpat, -, -⟩ := eq_f64Pattern_of_finite hc
  exact ⟨neg, bexp, hb, frac, hf, hpat⟩

/-- The other sign bit gives the opposite value (R180). -/
theorem f64Value_f64Pattern_not {neg : Bool} {bexp frac : Nat} {x : ℚ} (hb : bexp < 0x7FF) (hf : frac < 2 ^ 52)
    (h : f64Value (f64Pattern neg bexp frac) = some x) : f64Value (f64Pattern (!neg) bexp frac) = some (-x) := by
  rw [f64Value_f64Pattern hb hf] at h ⊢
  rw [← Option.some.inj h]
  cases neg <;> simp

/-- The binary64 values are symmetric about zero. -/
theorem f64Value_neg {g : Value} {y : ℚ} (h : f64Value g = some y) : ∃ g', f64Value g' = some (-y) := by
  obtain ⟨neg, bexp, hb, frac, hf, rfl⟩ := eq_f64Pattern_of_f64Value h
  exact ⟨_, f64Value_f64Pattern_not hb hf h⟩

/-- On a pattern without sign, `f64Negate` changes the sign field only. -/
theorem f64Negate_f64Pattern (bexp frac : Nat) : f64Negate (f64Pattern false bexp frac) = f64Pattern true bexp frac := rfl

theorem f64Frac_f64Negate {f : Value} (hs : f64Sign f = false) : f64Frac (f64Negate f) = f64Frac f := by
  have hfields := f64Pattern_fields f
  rw [hs] at hfields
  rw [← congrArg f64Negate hfields, f64Negate_f64Pattern, f64Frac_f64Pattern (f64Exp_lt f) (f64Frac_lt f)]

theorem f64Value_f64Negate {f : Value} {x : ℚ} (hs : f64Sign f = false) (h : f64Value f = some x) :
    f64Value (f64Negate f) = some (-x) := by
  obtain ⟨neg, bexp, hb, frac, hf, rfl⟩ := eq_f64Pattern_of_f64Value h
  rw [f64Sign_f64Pattern (by omega) hf] at hs
  rw [hs] at h ⊢
  rw [f64Negate_f64Pattern]
  exact f64Value_f64Pattern_not (neg := false) hb hf h

theorem nearest_f64Negate {f : Value} {n : Int} (hs : f64Sign f = false) (h : NearestTiesToEven f n) :
    NearestTiesToEven (f64Negate f) (-n) := by
  obtain ⟨x, hx, hnear⟩ := h
  refine ⟨-x, f64Value_f64Negate hs hx, fun g y hy => ?_⟩
  obtain ⟨g', hg'⟩ := f64Value_neg hy
  obtain ⟨hle, htie⟩ := hnear g' (-y) hg'
  have hxdist : |-x - ((-n : Int) : ℚ)| = |x - n| := by rw [Int.cast_neg, neg_sub_neg, abs_sub_comm]
  have hydist : |y - ((-n : Int) : ℚ)| = |-y - n| := by rw [Int.cast_neg, ← abs_neg]; congr 1; ring
  rw [hxdist, hydist, f64Frac_f64Negate hs]
  exact ⟨hle, fun heq hne => htie heq fun hyx => hne (neg_eq_iff_eq_neg.mp hyx)⟩

/-- R186's pattern for `MIN_S` is the general rule's, so the sign and the magnitude decide every case. -/
theorem cvtSigned_eq (a : Value) :
    cvtSigned a = if signBit a then f64Negate (rne64 (sgn a).natAbs) else rne64 (sgn a).natAbs := by
  rw [← u_magnitude, magnitude, cvtSigned]
  by_cases hmin : a = MIN_S
  · subst hmin
    decide
  · rw [if_neg hmin]
    split_ifs <;> rfl

theorem nearest_cvtSigned (a : Value) : NearestTiesToEven (cvtSigned a) (sgn a) := by
  have hlt : (sgn a).natAbs < 2 ^ 64 := (natAbs_sgn_le a).trans_lt (by norm_num)
  have hnear := nearest_rne64 hlt
  rw [cvtSigned_eq]
  split_ifs with hs
  · have hneg := nearest_f64Negate (f64Sign_rne64 hlt) hnear
    rwa [Int.ofNat_natAbs_of_nonpos ((sgn_neg_iff a).mpr hs).le, neg_neg] at hneg
  · rwa [Int.natAbs_of_nonneg (not_lt.mp (mt (sgn_neg_iff a).mp hs))] at hnear

/-- Settles O23: CVTUF completes with the rounded unsigned reading, CVTSF with the rounded magnitude and the sign. -/
theorem conversionsFromIntegerRoundToNearest : Obligations.ConversionsFromIntegerRoundToNearest := by
  refine ⟨decode_encode .cvtuf, decode_encode .cvtsf, fun s p hp =>
    ⟨rne64 (u p.a), cvtSigned p.a, ?_, ?_, nearest_rne64 p.a.isLt, nearest_cvtSigned p.a, fun hz => ?_⟩⟩
  · rw [exec_cvtuf, complete_value (fun a _ => rne64 (u a)) hp]
  · rw [exec_cvtsf, complete_value (fun a _ => cvtSigned a) hp]
  · rw [hz]
    exact ⟨rfl, rfl⟩

end Sys2Proof.Machine
end

section
/-! PROOFS. The statements about errors (60_exceptions.md): which word and operands complete with which `ERR`, when the
block takes no step, and which accesses stop the host. -/

namespace Sys2Proof.Machine

/-! ## The error code of a command -/

/-- A command's result is the divide error for a division by zero, and free of error otherwise (60_exceptions.md R201). -/
theorem ResultShape.raises_or_succeeds {i : Instr} {b : Value} {res : Result} (h : ResultShape i b res) :
    (Divides i ∧ b = ZERO ∧ res = .raise errDivideByZero) ∨ (¬ (Divides i ∧ b = ZERO) ∧ res.err = errNone) := by
  rcases h with ⟨hd, -, v, rfl⟩ | ⟨hd, -, v, k, rfl⟩ | ⟨-, -, hb, v, w, rfl⟩ | ⟨hd, -, hb, rfl⟩
  · exact .inr ⟨fun hz => hd hz.1, rfl⟩
  · exact .inr ⟨fun hz => hd hz.1, rfl⟩
  · exact .inr ⟨fun hz => hb hz.2, rfl⟩
  · exact .inl ⟨hd, hb, rfl⟩

/-- Settles O13: the committed result is the divide error, or has `ERR = 0`. -/
theorem onlyDivisionReportsAZeroDivisor : Obligations.OnlyDivisionReportsAZeroDivisor := by
  intro s p i hp
  obtain ⟨res, hexec, hshape⟩ := exec_some i hp
  refine ⟨_, hexec, ?_⟩
  rcases hshape.raises_or_succeeds with ⟨hd, hb, rfl⟩ | ⟨hrun, herr⟩
  · exact ⟨iff_of_true rfl ⟨hd, hb⟩, fun _ => commit_raise_divideByZero s⟩
  · have hne : (s.commit res).err ≠ 1#2 := by
      rw [commit_err, herr]
      decide
    exact ⟨iff_of_false hne hrun, fun h => absurd h hne⟩

/-! ## The error code of a step -/

theorem decode_eq_illegal {c : Word} (h : ∀ i, c ≠ encode i) : ∃ why, decode c = .illegal why :=
  decode_illegal_iff.mpr fun ⟨i, hi⟩ => h i (decode_eq_command_iff_encode.mp hi)

/-- Settles O27: a word that encodes no command decodes as illegal. -/
theorem illegalCommandReportsErrTwo : Obligations.IllegalCommandReportsErrTwo := by
  intro s p hb hp hc
  obtain ⟨why, hd⟩ := decode_eq_illegal hc
  exact step_illegal hb hp hd

theorem encode_injective : Function.Injective encode := fun i j h => by
  have hd := (decode_encode i).symm.trans (decode_eq_command_iff_encode.mpr h)
  exact Decoded.command.inj hd

/-- The words of the four divisions (30_encoding.md R63). -/
theorem divisionWord_iff {c : Word} :
    (c = 0x22#32 ∨ c = 0x23#32 ∨ c = 0x24#32 ∨ c = 0x25#32) ↔ ∃ i, Divides i ∧ c = encode i := by
  simp only [Divides, or_and_right, exists_or, exists_eq_left]
  rfl

/-- Settles O28: the word is no command's, or the one command's that it encodes, whose result decides. -/
theorem errorCodeFollowsThePriorities : Obligations.ErrorCodeFollowsThePriorities := by
  intro s p hb hp
  simp only [divisionWord_iff, ← not_divides_iff]
  by_cases hc : ∃ i, p.cmd = encode i
  · obtain ⟨i, hi⟩ := hc
    obtain ⟨res, hexec, hshape⟩ := exec_some i (show s.advance.pend = some p from hp)
    have hstep := (step_command hb hp (decode_eq_command_iff_encode.mpr hi)).trans hexec
    have honly : ∀ j, p.cmd = encode j → j = i := fun j hj => encode_injective (hj.symm.trans hi)
    refine ⟨_, hstep, commit_drop _ _, fun hnone => absurd hi (hnone i), ?_⟩
    rw [commit_err]
    rcases hshape.raises_or_succeeds with ⟨hd, hz, rfl⟩ | ⟨hrun, herr⟩
    · refine ⟨fun _ _ => rfl, fun j hj hor => ?_⟩
      obtain rfl := honly j hj
      exact absurd ⟨hd, hz⟩ (not_and_or.mpr hor)
    · refine ⟨fun ⟨j, hd, hj⟩ hz => ?_, fun _ _ _ => herr⟩
      obtain rfl := honly j hj
      exact absurd ⟨hd, hz⟩ hrun
  · have hnone : ∀ i, p.cmd ≠ encode i := fun i hi => hc ⟨i, hi⟩
    exact ⟨_, illegalCommandReportsErrTwo s p hb hp hnone, rfl, fun _ => rfl,
      fun ⟨i, _, hi⟩ => absurd hi (hnone i), fun i hi => absurd hi (hnone i)⟩

/-! ## Steps that stop, and steps that do nothing -/

/-- Settles O45: the block's turn and a reset always answer, and a host access answers or is undefined. -/
theorem stepStopsOnlyOnUndefinedAccess : Obligations.StepStopsOnlyOnUndefinedAccess := by
  intro s
  rcases schedule_cases s with hb | ⟨x, rest, hs⟩ | ⟨rest, hs⟩
  · obtain ⟨t, ht, -⟩ := step_blockNext hb
    exact .inl ⟨t, ht⟩
  · rw [step_host hs]
    rcases hostStep_cases x s.advance with
      ⟨-, h⟩ | ⟨_, _, -, -, -, -, h⟩ | ⟨_, _, -, -, -, h⟩ | ⟨off, size, hroute, h⟩
    · exact .inl ⟨_, h⟩
    · exact .inl ⟨_, h⟩
    · exact .inl ⟨_, h⟩
    · exact .inr ⟨x, rest, off, size, hs, hroute, h⟩
  · exact .inl ⟨_, step_reset hs⟩

/-- Settles O33: the access is routed as undefined, whether it reads or writes. -/
theorem undefinedAccessFaults : Obligations.UndefinedAccessFaults := by
  intro s off size v rest h64 hundef
  have hroute := route_undefined h64 hundef
  exact ⟨fun hs => by rw [step_host hs, hostStep, hroute, hostRead],
    fun hs => by rw [step_host hs, hostStep, hroute, hostWrite]⟩

/-- Settles O44. -/
theorem idleBlockKeepsItsState : Obligations.IdleBlockKeepsItsState :=
  fun _ hb hp => step_idle hb hp

end Sys2Proof.Machine
end

section
/-! PROOFS. The statements about hazards and timing (70_reset_and_hazards.md): operand writes beside a completion, and the
iteration counts of the multiplier and the divider. -/

namespace Sys2Proof.Machine

/-! ## An operand write and a completion -/

/-- A completion and a write to an operand half touch no field in common (R227). -/
theorem commit_busWrite {r : WindowReg} (hr : r.IsOperandHalf) (s : State) (v : Word) (res : Result) :
    (busWrite s r v).commit res = busWrite (s.commit res) r v := by
  rcases hr with rfl | rfl | rfl | rfl <;>
    simp only [busWrite, State.commit] <;> split <;> rfl

/-- Settles O41: the two orders give a committed write and a written commit, in the state with both events taken. -/
theorem operandWriteCommutesWithCompletion : Obligations.OperandWriteCommutesWithCompletion := by
  intro s p off v rest hp hoff
  have h4 : off % 4 = 0 := by omega
  have h64 : off < 64 := by omega
  obtain ⟨res, hres⟩ := step_commits p
  refine ⟨busWrite (State.commit { s with schedule := rest } res) (regAt off) v, ?_, ?_⟩
  · have hwrite := step_write (s := { s with schedule := .host (accessW off v) :: .block :: rest }) h4 h64 rfl
    obtain ⟨hpend, -⟩ := busWrite_elsewhere h4 h64 (by omega) { s with schedule := .block :: rest } v
    have hsched := busWrite_schedule { s with schedule := .block :: rest } v (regAt off)
    refine (runFor_succ hwrite).trans ((runFor_one _).trans ((hres _ (.inr ⟨rest, hsched⟩) (hpend.trans hp)).trans ?_))
    rw [advance_of_schedule hsched, busWrite_reschedule, commit_busWrite (isOperandHalf_regAt_iff.mpr hoff)]
  · have hcomplete := hres { s with schedule := .block :: .host (accessW off v) :: rest } (.inr ⟨_, rfl⟩) hp
    have hwrite := step_host (commit_schedule { s with schedule := .host (accessW off v) :: rest } res)
    refine (runFor_succ hcomplete).trans ((runFor_one _).trans (hwrite.trans ?_))
    rw [accessW, hostStep_write h4 h64, ← commit_advance]
    rfl

/-! ## Iteration counts -/

theorem bitLength_half {n : Nat} (h : n ≠ 0) : bitLength n = bitLength (n / 2) + 1 := by
  rw [bitLength, if_neg h, Nat.log2_def, bitLength]
  split_ifs <;> omega

/-- The multiplier's loop goes round once per bit of the tested operand, if it may (41_muldiv.md R110). -/
theorem mulCount_eq (fuel : Nat) (t : Value) (h : u t < 2 ^ fuel) : mulCount fuel t = bitLength (u t) := by
  induction fuel generalizing t with
  | zero => rw [mulCount, Nat.lt_one_iff.mp h]; rfl
  | succ fuel ih =>
    rw [mulCount]
    split_ifs with hz
    · subst hz; rfl
    · have hshift : u (shr64 t 1) = u t / 2 := u_shr64 t 1 (by decide)
      have hne : u t ≠ 0 := fun h0 => hz (u_injective h0)
      rw [ih _ (by omega), hshift, bitLength_half hne]

theorem mulIterationsU_eq (a b : Value) : mulIterationsU a b = bitLength (min (u a) (u b)) := by
  rw [mulIterationsU]
  split_ifs with h <;> rw [cmpU_nonneg_iff] at h
  · rw [mulCount_eq 64 b b.isLt, min_eq_right h]
  · rw [mulCount_eq 64 a a.isLt, min_eq_left (by omega)]

theorem bitLength_le_64 {n : Nat} (h : n < 2 ^ 64) : bitLength n ≤ 64 := by
  by_cases h0 : n = 0
  · subst h0; decide
  · exact bitLength_le_of_lt_two_pow h0 h

theorem divIterationsU_eq {b : Value} (hb : b ≠ ZERO) (a : Value) :
    divIterationsU a b = if u a < u b ∨ a = b then 0 else lzc64 b - lzc64 a + 1 := by
  simp only [divIterationsU, hb, false_or, cmpU_neg_iff]

theorem divIterationsU_le {b : Value} (hb : b ≠ ZERO) (a : Value) : divIterationsU a b ≤ 64 := by
  rw [divIterationsU_eq hb]
  split_ifs with h
  · decide
  · obtain ⟨hge, hne⟩ := not_or.mp h
    have hgt : u b < u a := lt_of_le_of_ne (not_lt.mp hge) fun hu => hne (u_injective hu.symm)
    obtain ⟨hshift, -⟩ := align_spec a b hb hgt
    exact hshift

theorem divIterationsU_eq_zero_iff {b : Value} (hb : b ≠ ZERO) (a : Value) :
    divIterationsU a b = 0 ↔ u a < u b ∨ a = b := by
  rw [divIterationsU_eq hb, ite_eq_left_iff]
  exact ⟨fun h0 => by_contra fun h => Nat.succ_ne_zero _ (h0 h), fun h hn => absurd h hn⟩

/-- Settles O56: the multiplier tests the smaller operand's bits, and the divider's alignment is below 64 places. -/
theorem iterationCountsAreBounded : Obligations.IterationCountsAreBounded := fun a b =>
  have hmin : min (u a) (u b) < 2 ^ 64 := (min_le_left _ _).trans_lt a.isLt
  ⟨mulIterationsU_eq a b, (mulIterationsU_eq a b).trans_le (bitLength_le_64 hmin),
    fun hb => divIterationsU_le hb a, fun hb => divIterationsU_eq_zero_iff hb a⟩

end Sys2Proof.Machine
end
